-- ==== Sys2Proof/Word.lean ====
section
/-! DEFINITION. The two bit-vector types of the hardware (spec/00_scope.md rule R15). Everything that
cuts, joins or shifts them is in Machine/Operands.lean. -/

namespace Sys2Proof

/-- A byte: an unsigned integer in 0..255 (R15). -/
abbrev Byte := BitVec 8

/-- A word: an unsigned integer in 0..2^32-1, bit 31 most significant (R15, R16). -/
abbrev Word := BitVec 32

end Sys2Proof
end

