-- ==== Sys2Proof/Syntax.lean ====
section
/-! DEFINITION. What the hardware can be told to do, as data: the 27 rows of spec/opcode_table.json
(nine `CMD8` command words, eighteen `UOP5` micro-operation words), the fields of the two formats,
and the small sets of names the rules use. -/

namespace Sys2Proof

/-- The padding discipline `padsel` selects (R71, R32). -/
inductive PadMode where
  | zero
  | pkcs7
  deriving DecidableEq, Repr, Inhabited

/-- The select signal `DIR` of the round multiplexer (R170). -/
inductive Dir where
  | enc
  | dec
  deriving DecidableEq, Repr, Inhabited

/-- The bit fields of a `CMD8` command word (R71): `zero` is bits 7:5, `padsel` bit 4, `opc` bits 3:0. -/
structure Cmd8 where
  zero   : BitVec 3
  padsel : BitVec 1
  opc    : BitVec 4
  deriving DecidableEq, Repr

/-- The bit fields of a `UOP5` micro-operation word (R83): `dir` is bit 4, `rsel` bits 3:2, `sc` bits 1:0. -/
structure Uop5 where
  dir  : BitVec 1
  rsel : BitVec 2
  sc   : BitVec 2
  deriving DecidableEq, Repr

/-- A word in one of the two formats: the host issues the first (R70), the round multiplexer produces
the second and the host cannot issue it (R83). The formats overlap as numbers, so a word is only
decoded together with its format. -/
inductive FetchWord where
  | cmd8 (w : BitVec 8)
  | uop5 (w : BitVec 5)
  deriving DecidableEq, Repr

/-- Why a word spells nothing (R78 for commands, R83 for micro-operations). -/
inductive Reserved where
  /-- `zero != 0` (R78). -/
  | zeroBits
  /-- `opc` is 0x0, 0x7 or 0xA..0xF (R78). -/
  | opc
  /-- `padsel = 1` with `opc != 0x4` (R78). -/
  | padsel
  /-- `RSEL = 3`, never produced (R83). -/
  | rsel
  /-- `SC = 3`, never produced (R83). -/
  | sc
  /-- There is no command word to read: the byte string is empty (R70: a command is one word). -/
  | noWord
  deriving DecidableEq, Repr

/-- One constructor per row of spec/opcode_table.json. The operands of a command are not fields of its
word (R76: there are no immediates); they stand beside the word in the command the host issues (R38). -/
inductive Instr where
  /-- `ENGINE_NEW` (R115). -/
  | engineNew
  /-- `ENGINE_ENCRYPT` (R135). -/
  | engineEncrypt
  /-- `ENGINE_DECRYPT` (R150). -/
  | engineDecrypt
  /-- `CBC_NEW` with `padsel = 0`, written `CBC_NEW.Z` (R205, R81). -/
  | cbcNewZ
  /-- `CBC_NEW` with `padsel = 1`, written `CBC_NEW.P` (R205, R81). -/
  | cbcNewP
  /-- `CBC_ENCRYPT` (R207). -/
  | cbcEncrypt
  /-- `CBC_DECRYPT` (R210). -/
  | cbcDecrypt
  /-- `PAD` (R185). -/
  | pad
  /-- `UNPAD` (R186). -/
  | unpad
  /-- `UOP.ENC.INIT.4` (R83, R137). -/
  | uopEncInit4
  | uopEncInit6
  | uopEncInit8
  /-- `UOP.ENC.MID.4` (R83, R138). -/
  | uopEncMid4
  | uopEncMid6
  | uopEncMid8
  /-- `UOP.ENC.FINAL.4` (R83, R139). -/
  | uopEncFinal4
  | uopEncFinal6
  | uopEncFinal8
  /-- `UOP.DEC.INIT.4` (R83, R152). -/
  | uopDecInit4
  | uopDecInit6
  | uopDecInit8
  /-- `UOP.DEC.MID.4` (R83, R153). -/
  | uopDecMid4
  | uopDecMid6
  | uopDecMid8
  /-- `UOP.DEC.FINAL.4` (R83, R154). -/
  | uopDecFinal4
  | uopDecFinal6
  | uopDecFinal8
  deriving DecidableEq, Repr

end Sys2Proof
end

