-- ==== Sys2Proof/WellFormed.lean ====
section
/-! DEFINITION. When the fields of a word spell something (spec/30_encoding.md rules R78, R83), one check
a rule, and when an instruction is well formed. -/

namespace Sys2Proof

/-- R78: bits 7:5 must be 0. -/
def Cmd8.zeroOk (f : Cmd8) : Bool := f.zero == 0#3

/-- R72, R78: `opc` is one of the eight assigned values; 0x0, 0x7 and 0xA..0xF are reserved. -/
def Cmd8.opcOk (f : Cmd8) : Bool :=
  f.opc == 0x1#4 || f.opc == 0x2#4 || f.opc == 0x3#4 || f.opc == 0x4#4
    || f.opc == 0x5#4 || f.opc == 0x6#4 || f.opc == 0x8#4 || f.opc == 0x9#4

/-- R71, R78: `padsel` must be 0 in every command but `CBC_NEW`. -/
def Cmd8.padselOk (f : Cmd8) : Bool := f.padsel == 0#1 || f.opc == 0x4#4

/-- The fields of a command word that is not reserved (R78). -/
def Cmd8.wf (f : Cmd8) : Bool := f.zeroOk && f.opcOk && f.padselOk

/-- R83: `RSEL = 3` is never produced. -/
def Uop5.rselOk (f : Uop5) : Bool := f.rsel != 3#2

/-- R83: `SC = 3` is never produced. -/
def Uop5.scOk (f : Uop5) : Bool := f.sc != 3#2

/-- The fields of a micro-operation word that occurs (R83). -/
def Uop5.wf (f : Uop5) : Bool := f.rselOk && f.scOk

/-- The format and fields of each row of spec/opcode_table.json (its "source_fields"). -/
def Instr.fields : Instr → Cmd8 ⊕ Uop5
  | .engineNew     => .inl ⟨0, 0, 0x1⟩
  | .engineEncrypt => .inl ⟨0, 0, 0x2⟩
  | .engineDecrypt => .inl ⟨0, 0, 0x3⟩
  | .cbcNewZ       => .inl ⟨0, 0, 0x4⟩
  | .cbcNewP       => .inl ⟨0, 1, 0x4⟩
  | .cbcEncrypt    => .inl ⟨0, 0, 0x5⟩
  | .cbcDecrypt    => .inl ⟨0, 0, 0x6⟩
  | .pad           => .inl ⟨0, 0, 0x8⟩
  | .unpad         => .inl ⟨0, 0, 0x9⟩
  | .uopEncInit4   => .inr ⟨0, 0, 0⟩
  | .uopEncInit6   => .inr ⟨0, 0, 1⟩
  | .uopEncInit8   => .inr ⟨0, 0, 2⟩
  | .uopEncMid4    => .inr ⟨0, 1, 0⟩
  | .uopEncMid6    => .inr ⟨0, 1, 1⟩
  | .uopEncMid8    => .inr ⟨0, 1, 2⟩
  | .uopEncFinal4  => .inr ⟨0, 2, 0⟩
  | .uopEncFinal6  => .inr ⟨0, 2, 1⟩
  | .uopEncFinal8  => .inr ⟨0, 2, 2⟩
  | .uopDecInit4   => .inr ⟨1, 0, 0⟩
  | .uopDecInit6   => .inr ⟨1, 0, 1⟩
  | .uopDecInit8   => .inr ⟨1, 0, 2⟩
  | .uopDecMid4    => .inr ⟨1, 1, 0⟩
  | .uopDecMid6    => .inr ⟨1, 1, 1⟩
  | .uopDecMid8    => .inr ⟨1, 1, 2⟩
  | .uopDecFinal4  => .inr ⟨1, 2, 0⟩
  | .uopDecFinal6  => .inr ⟨1, 2, 1⟩
  | .uopDecFinal8  => .inr ⟨1, 2, 2⟩

/-- An instruction is well formed when the fields of its row pass every check. The constructors carry no
operands (R76), so nothing else can be wrong with one. -/
def Instr.wf (i : Instr) : Bool :=
  match i.fields with
  | .inl f => f.wf
  | .inr f => f.wf

end Sys2Proof
end

