-- ==== Sys2Proof/Decode.lean ====
section
/-! DEFINITION. The decoder of both word formats, total on every word and rejecting by name
(spec/30_encoding.md rules R71, R72, R78, R83, R84), and the encoder after it. -/

namespace Sys2Proof

/-- R71, R84: `zero = w[7:5]`, `padsel = w[4]`, `opc = w[3:0]`. -/
def splitCmd8 (w : BitVec 8) : Cmd8 where
  zero   := w.extractLsb' 5 3
  padsel := w.extractLsb' 4 1
  opc    := w.extractLsb' 0 4

/-- R83: `DIR` in bit 4, `RSEL` in bits 3:2, `SC` in bits 1:0. -/
def splitUop5 (w : BitVec 5) : Uop5 where
  dir  := w.extractLsb' 4 1
  rsel := w.extractLsb' 2 2
  sc   := w.extractLsb' 0 2

/-- The opcode map of R72, read by `opc`, with `padsel` choosing between the two spellings of `CBC_NEW`
(R81). Asked only of words that pass the checks; `none` for the values R72 reserves. -/
def commandOf (f : Cmd8) : Option Instr :=
  match f.opc.toNat with
  | 0x1 => some .engineNew
  | 0x2 => some .engineEncrypt
  | 0x3 => some .engineDecrypt
  | 0x4 => some (if f.padsel = 1#1 then .cbcNewP else .cbcNewZ)
  | 0x5 => some .cbcEncrypt
  | 0x6 => some .cbcDecrypt
  | 0x8 => some .pad
  | 0x9 => some .unpad
  | _   => none

/-- R84, in the rule's order: reserved bits, then `opc`, then `padsel`. -/
def decodeCmd8 (w : BitVec 8) : Except Reserved Instr :=
  let f := splitCmd8 w
  if f.zeroOk then
    match commandOf f with
    | none   => .error .opc
    | some i => if f.padselOk then .ok i else .error .padsel
  else .error .zeroBits

/-- The eighteen combinations of R83: `RSEL` 0 `INIT`, 1 `MID`, 2 `FINAL`; `DIR` 0 `ENC`, 1 `DEC`;
`SC` 0, 1, 2 for 4, 6, 8 block words. Asked only of fields that pass the checks. -/
def microOpOf (f : Uop5) : Option Instr :=
  match f.dir.toNat, f.rsel.toNat, f.sc.toNat with
  | 0, 0, 0 => some .uopEncInit4
  | 0, 0, 1 => some .uopEncInit6
  | 0, 0, 2 => some .uopEncInit8
  | 0, 1, 0 => some .uopEncMid4
  | 0, 1, 1 => some .uopEncMid6
  | 0, 1, 2 => some .uopEncMid8
  | 0, 2, 0 => some .uopEncFinal4
  | 0, 2, 1 => some .uopEncFinal6
  | 0, 2, 2 => some .uopEncFinal8
  | 1, 0, 0 => some .uopDecInit4
  | 1, 0, 1 => some .uopDecInit6
  | 1, 0, 2 => some .uopDecInit8
  | 1, 1, 0 => some .uopDecMid4
  | 1, 1, 1 => some .uopDecMid6
  | 1, 1, 2 => some .uopDecMid8
  | 1, 2, 0 => some .uopDecFinal4
  | 1, 2, 1 => some .uopDecFinal6
  | 1, 2, 2 => some .uopDecFinal8
  | _, _, _ => none

/-- R83: a micro-operation word with `RSEL = 3` or `SC = 3` is never produced; it is refused (U6 of
spec/93_implementation_defined.md). -/
def decodeUop5 (w : BitVec 5) : Except Reserved Instr :=
  let f := splitUop5 w
  if f.rselOk then
    match microOpOf f with
    | some i => .ok i
    | none   => .error .sc
  else .error .rsel

/-- The decoder, by format. -/
def decode : FetchWord → Except Reserved Instr
  | .cmd8 w => decodeCmd8 w
  | .uop5 w => decodeUop5 w

/-- Decoding a byte string: a command is always one word of 8 bits (R70), so the first byte is the
command word and the rest is left over. -/
def decodeBytes : List (BitVec 8) → Except Reserved (Instr × List (BitVec 8))
  | []        => .error .noWord
  | w :: rest =>
    match decodeCmd8 w with
    | .ok i    => .ok (i, rest)
    | .error e => .error e

/-- The words of R72 and of the `UOP5` rows, written out. -/
def encode : Instr → FetchWord
  | .engineNew     => .cmd8 0x01#8
  | .engineEncrypt => .cmd8 0x02#8
  | .engineDecrypt => .cmd8 0x03#8
  | .cbcNewZ       => .cmd8 0x04#8
  | .cbcNewP       => .cmd8 0x14#8
  | .cbcEncrypt    => .cmd8 0x05#8
  | .cbcDecrypt    => .cmd8 0x06#8
  | .pad           => .cmd8 0x08#8
  | .unpad         => .cmd8 0x09#8
  | .uopEncInit4   => .uop5 0x00#5
  | .uopEncInit6   => .uop5 0x01#5
  | .uopEncInit8   => .uop5 0x02#5
  | .uopEncMid4    => .uop5 0x04#5
  | .uopEncMid6    => .uop5 0x05#5
  | .uopEncMid8    => .uop5 0x06#5
  | .uopEncFinal4  => .uop5 0x08#5
  | .uopEncFinal6  => .uop5 0x09#5
  | .uopEncFinal8  => .uop5 0x0a#5
  | .uopDecInit4   => .uop5 0x10#5
  | .uopDecInit6   => .uop5 0x11#5
  | .uopDecInit8   => .uop5 0x12#5
  | .uopDecMid4    => .uop5 0x14#5
  | .uopDecMid6    => .uop5 0x15#5
  | .uopDecMid8    => .uop5 0x16#5
  | .uopDecFinal4  => .uop5 0x18#5
  | .uopDecFinal6  => .uop5 0x19#5
  | .uopDecFinal8  => .uop5 0x1a#5

/-- Whether an instruction is one of the eight commands the host can issue (R11), as against a
micro-operation of the round multiplexer (R83). -/
def Instr.isCommand (i : Instr) : Bool :=
  match encode i with
  | .cmd8 _ => true
  | .uop5 _ => false

/-- The format in which the opcode table's word `w` of `nbits` bits is read. The table's two formats
overlap as numbers: a word given with fewer than 8 bits is a micro-operation; a word of 8 bits is a
command when it spells one (R84), and otherwise the micro-operation whose table word it is, if any
(log entry 8). `none` when `w` is no single word. -/
def tableFormat (nbits w : Nat) : Option FetchWord :=
  if nbits < 8 then
    if w < 32 then some (.uop5 (BitVec.ofNat 5 w)) else none
  else if w < 256 then
    match decodeCmd8 (BitVec.ofNat 8 w), decodeUop5 (BitVec.ofNat 5 w) with
    | .error _, .ok _ => if w < 32 then some (.uop5 (BitVec.ofNat 5 w)) else some (.cmd8 (BitVec.ofNat 8 w))
    | _, _            => some (.cmd8 (BitVec.ofNat 8 w))
  else none

/-- The instruction the decoder reads from a row of the opcode table, numbered as the table numbers it. -/
def decodeTableWord (nbits w : Nat) : Option Instr :=
  match tableFormat nbits w with
  | none    => none
  | some fw =>
    match decode fw with
    | .ok i    => some i
    | .error _ => none

end Sys2Proof
end

