-- ==== Sys2Proof/Config.lean ====
section
/-! DEFINITION. What the spec leaves open: the values of storage that "holds no value"
(spec/10_state.md rule R21). Each is an opaque constant with no body, so nothing can be proved of it
and a theorem that mentions it holds whatever it is. The first argument is the epoch, a counter of the
model's own (`State.epoch`) that moves on whenever a command leaves storage unspecified. The parameters
of R14 that the spec decides stand in the rules that use them (Machine/); `LEN_BITS` and `MAX_MSG_LEN`
are taken as unbounded (log entry 5). -/

namespace Sys2Proof.Config

/-- The word storage elements that may hold no value (R24, R25, R29, R30). -/
inductive WordSlot where
  | t  (i : Nat)
  | a  (i : Nat)
  | tk (i : Nat)
  | ke (r j : Nat)
  | kd (r j : Nat)
  deriving DecidableEq, Repr

/-- The byte storage elements that may hold no value (R34 `CHAIN`, R167 `blk`). -/
inductive ByteSlot where
  | chain (i : Nat)
  | blkIn (i : Nat)
  deriving DecidableEq, Repr

/-- The counters that hold no value outside the command that uses them (R30, R31, R35). Inside a command `RND` holds
no value either where no block operation is under way or one has just started (R31, R166): the two slots with the
offset `BLK` of the block are its values there, one for each block of a message (log entry 17). -/
inductive CountSlot where
  | widx
  | rcp
  | rnd
  /-- `RND` in `LOAD` of the block at offset `off` (R166, on `IDLE`). -/
  | rndLoad (off : Nat)
  /-- `RND` after `DONE` of the block at offset `off`, until the next block starts (R166, on `DONE`). -/
  | rndIdle (off : Nat)
  | blk
  deriving DecidableEq, Repr

/-- The byte strings that hold no value outside the command that uses them (R40 `PADBUF`; R167 `out`,
R217 `result`). -/
inductive StringSlot where
  | padbuf
  | out
  | result
  deriving DecidableEq, Repr

/-- FREE VALUE: what a word element that holds no value reads as (log entry 1). -/
opaque freeWord : Nat → WordSlot → Word

/-- FREE VALUE: what a byte element that holds no value reads as (log entry 1). -/
opaque freeByte : Nat → ByteSlot → Byte

/-- FREE VALUE: what a counter holds when the spec says it holds no value (log entry 1). -/
opaque freeCount : Nat → CountSlot → Nat

/-- FREE VALUE: what a byte string holds when the spec says it holds no value (log entry 1). -/
opaque freeString : Nat → StringSlot → List Byte

/-- FREE VALUE: `PAD_MODE` after reset, before the first successful `CBC_NEW` (R45; log entry 1). -/
opaque freePadMode : Nat → PadMode

/-- FREE VALUE: the latched direction outside a block operation (R170; log entry 1). -/
opaque freeDir : Nat → Dir

/-- FREE VALUE: the byte at an offset at or beyond the end of a buffer: it "does not exist and no rule
reads one" (R50; log entry 2). -/
opaque noByte : Nat → Byte

/-- FREE VALUE: the word at an index at or beyond the end of a word sequence (R50; log entry 2). -/
opaque noWord : Nat → Word

end Sys2Proof.Config
end

