-- ==== Sys2Proof/Machine/State.lean ====
section
/-! DEFINITION. The state of the machine as plain data (spec/10_state.md rules R20 to R46), reset
(R45, spec/70_reset_and_hazards.md rules R260, R261), and why a step can stop.

The groups are those of R20: the context, the orchestrator binding, the response registers, and the
working state of the three units. An array whose elements may hold no value (R21) is the list of the
elements that do, from index 0 up; what an element not listed reads as is `Machine/Ops.lean`. -/

namespace Sys2Proof.Machine

/-- The three error kinds, a closed set (R230). -/
inductive Err where
  | invalidDataSize
  | invalidBlockSize
  | invalidKeySize
  deriving DecidableEq, Repr, Inhabited

/-- `STATUS` (R37): `OK` or one of the error kinds. -/
inductive Status where
  | ok
  | err (e : Err)
  deriving DecidableEq, Repr, Inhabited

/-- States of the block datapath (R166). -/
inductive Fsm where
  | idle
  | load
  | round
  | final
  | done
  deriving DecidableEq, Repr, Inhabited

/-- States of the key-schedule expander (R176). -/
inductive Kfsm where
  | idle
  | check
  | copy
  | expand
  | invmix
  | done
  deriving DecidableEq, Repr, Inhabited

/-- States of the orchestrator (R217). -/
inductive Cfsm where
  | idle
  | check
  | pad
  | xorIn
  | crypt
  | xorOut
  | next
  | unpad
  | done
  deriving DecidableEq, Repr, Inhabited

/-- A command as the host presents it: the word and the operands (R38). `KEY_LEN_IN`, `IV_LEN` and
`DIN_LEN` are the lengths of the byte strings. -/
structure Command where
  word   : Byte
  bsIn   : Nat
  keyBuf : List Byte
  ivBuf  : List Byte
  din    : List Byte
  deriving DecidableEq, Repr

/-- What the host agent (R9) does next. `issue` presents a command, executed whole (R8). `start` presents
the same command, sequenced through the state machines one step at a time (R165). `wait` makes no move
for one step. `reset` resets the hardware, abandoning a command that is running (R261). -/
inductive HostMove where
  | issue (c : Command)
  | start (c : Command)
  | wait
  | reset
  deriving DecidableEq, Repr

/-- The context (R22 to R28). `ke` and `kd` list, row by row, the elements that hold values (R24). -/
structure Context where
  cfgValid  : Bool
  blockSize : Nat
  keyLen    : Nat
  ke        : List (List Word)
  kd        : List (List Word)
  deriving DecidableEq, Repr

/-- The orchestrator binding (R32, R33). -/
structure Binding where
  padMode : PadMode
  padSize : Nat
  deriving DecidableEq, Repr

/-- The response registers (R37, R39). `DOUT_LEN` is the length of `dout`. -/
structure Response where
  status : Status
  dout   : List Byte
  deriving DecidableEq, Repr

/-- Working state of the block datapath: `T`, `A` (R29), `RND` (R31), `FSM` (R166), the latched direction
and input block, and the output block (R167). -/
structure Datapath where
  t     : List Word
  a     : List Word
  rnd   : Nat
  fsm   : Fsm
  dir   : Dir
  blkIn : List Byte
  out   : List Byte
  deriving DecidableEq, Repr

/-- Working state of the key-schedule expander: `TK`, `WIDX`, `RCP` (R30), `KFSM` (R176). -/
structure Expander where
  tk   : List Word
  widx : Nat
  rcp  : Nat
  kfsm : Kfsm
  deriving DecidableEq, Repr

/-- Working state of the orchestrator: `CHAIN` (R34), `BLK` (R35, R218), `PADBUF` (R40), the result being
assembled (R217), `CFSM` (R217). `PADBUF_LEN` is the length of `padbuf`. -/
structure Orchestrator where
  chain  : List Byte
  blk    : Nat
  padbuf : List Byte
  result : List Byte
  cfsm   : Cfsm
  deriving DecidableEq, Repr

/-- The whole state. `cmd` holds the operands of the latest command presented (R38, R50), `host` what the
host will do, in order (R59), and `epoch` is the model's own counter that makes free values fresh. -/
structure State where
  ctx   : Context
  binding : Binding
  resp  : Response
  dp    : Datapath
  kx    : Expander
  orch  : Orchestrator
  cmd   : Command
  host  : List HostMove
  epoch : Nat
  deriving DecidableEq, Repr

/-- Why a step stops with a fault. No run from reset reaches one (R241; spec/93_implementation_defined.md
U10). -/
inductive Fault where
  /-- Raised by the orchestrator's state machine when a block it must read lies beyond the end of its
  buffer: such an offset does not exist (R50) and `MemRead` is defined only within the length (R18).
  Safe: the machine stops. -/
  | offsetBeyondBuffer
  /-- Raised by a state machine standing in a state in which the latched command never puts it, so that
  R176 or R217 has no row to follow. Safe: the machine stops. -/
  | noTransition
  deriving DecidableEq, Repr

/-- Why a step has no meaning to run. -/
inductive Refusal where
  /-- The arm of an instruction that has no meaning yet. Safe. No arm uses it. -/
  | notModelled (mnemonic : String)
  /-- Raised by the step when the host presents a reserved command word: "The hardware does not accept a
  reserved word: no state changes, `STATUS` and `DOUT` keep their values, and no response is produced.
  A model treats it as a *refusal*" (R78). Safe. -/
  | reservedCommand (why : Reserved)
  /-- Raised by the step when the select signals spell a micro-operation word that is never produced
  (R83; U6 of spec/93_implementation_defined.md). Safe. -/
  | reservedMicroOp (why : Reserved)
  deriving DecidableEq, Repr

/-- The operands before the host has presented any command: no rule reads them (R38; log entry 4). -/
def Command.empty : Command where
  word   := 0
  bsIn   := 0
  keyBuf := []
  ivBuf  := []
  din    := []

/-- The reset state (R45, R260), with the host agent's side of the state given: the operands it last
presented and its further moves are not the hardware's to reset. Elements that hold no value are not
listed, or are the free values of epoch `e` (R21, log entry 1). -/
def State.resetAt (e : Nat) (cmd : Command) (host : List HostMove) : State where
  ctx   := { cfgValid := false, blockSize := 0, keyLen := 0, ke := [], kd := [] }
  binding := { padMode := Config.freePadMode e, padSize := 0 }
  resp  := { status := .ok, dout := [] }
  dp    := { t := [], a := [], rnd := Config.freeCount e .rnd % 15, fsm := .idle,
             dir := Config.freeDir e, blkIn := [], out := Config.freeString e .out }
  kx    := { tk := [], widx := Config.freeCount e .widx % 121, rcp := Config.freeCount e .rcp % 30,
             kfsm := .idle }
  orch  := { chain := [], blk := Config.freeCount e .blk, padbuf := Config.freeString e .padbuf,
             result := Config.freeString e .result, cfsm := .idle }
  cmd   := cmd
  host  := host
  epoch := e

/-- The machine right after reset (R45, R260), with no command presented. -/
def State.reset : State := State.resetAt 0 .empty []

end Sys2Proof.Machine
end

