-- ==== Sys2Proof/Machine/Operands.lean ====
section
/-! DEFINITION. Cutting and joining bytes and words (spec/00_scope.md rules R16, R17), reading operands
(R52, R76; spec/20_memory.md rules R54, R55) and the legal sizes (R12, R23, R117). -/

namespace Sys2Proof.Machine

/-- `byte(v, k) = v[31-8k : 24-8k]`: byte 0 is the most significant (R16). -/
def byte (v : Word) (k : Nat) : Byte := v.extractLsb' (24 - 8 * k) 8

/-- `word(b0, b1, b2, b3)`, most significant byte first (R16). -/
def word (b0 b1 b2 b3 : Byte) : Word :=
  (b0.setWidth 32 <<< 24) ||| (b1.setWidth 32 <<< 16) ||| (b2.setWidth 32 <<< 8) ||| b3.setWidth 32

/-- Byte `i` of a byte string; an offset at or beyond the length does not exist (R50) and reads as a
free value (log entry 2). -/
def byteAt (s : List Byte) (i : Nat) : Byte := s.getD i (Config.noByte i)

/-- Word `i` of a word sequence; an index beyond its end reads as a free value (log entry 2). -/
def wordAt (w : List Word) (i : Nat) : Word := w.getD i (Config.noWord i)

/-- `BE32(s, i) = word(s[4i], s[4i+1], s[4i+2], s[4i+3])` (R17, R52), over the bytes `f` reads. -/
def be32 (f : Nat → Byte) (i : Nat) : Word := word (f (4 * i)) (f (4 * i + 1)) (f (4 * i + 2)) (f (4 * i + 3))

/-- The four bytes of a word in the order they leave the hardware (R52). -/
def wordBytes (v : Word) : List Byte := [byte v 0, byte v 1, byte v 2, byte v 3]

/-- The first `n` words of a byte string, read big-endian (R52, R76). -/
def beWords (s : List Byte) (n : Nat) : List Word := (List.range n).map (be32 (byteAt s))

/-- `rep(b, n)` (R17). -/
def rep (b : Byte) (n : Nat) : List Byte := List.replicate n b

/-- `s[i..j]`: bytes `i` to `j-1` (R17). -/
def slice (s : List Byte) (i j : Nat) : List Byte := (s.drop i).take (j - i)

/-- `XorBlock(a, b)`, byte by byte, for two strings of one length (R208). -/
def xorBlock (a b : List Byte) : List Byte := List.zipWith (· ^^^ ·) a b

/-- `VALID_SIZES`: 16, 24 or 32 bytes, for keys and for blocks (R12). -/
def validSize (n : Nat) : Bool := n == 16 || n == 24 || n == 32

/-- Words of a size in bytes: `b_c = block_size / 4`, `k_c = key_length / 4` (R12, R23). -/
def wordsOf (bytes : Nat) : Nat := bytes / 4

/-- `rounds(klen, bs)`: "10 rounds if block=16 and key=16; 14 rounds if block=32 or key=32; otherwise 12"
(R117). -/
def rounds (klen bs : Nat) : Nat :=
  if bs = 16 ∧ klen = 16 then 10 else if bs = 32 ∨ klen = 32 then 14 else 12

/-- `N = (R+1) * b_c`, the number of schedule words (R118). -/
def scheduleLength (klen bs : Nat) : Nat := (rounds klen bs + 1) * wordsOf bs

end Sys2Proof.Machine
end

