-- ==== Sys2Proof/Machine/Tables.lean ====
section
/-! DEFINITION. Arithmetic in GF(2^8) and the constant tables (spec/40_gf_tables.md rules R90 to R101,
spec/41_round_tables.md rules R110 to R112). The byte tables are listed as R94 to R96 list them; the
word tables are generated from R98 to R100. They are constants and no part of the state (R47). -/

namespace Sys2Proof.Machine

/-- `xtime(a)`: shift left as a 9-bit value, reduce by 0x11B when bit 8 is 1, keep bits 7:0 (R92). -/
def xtime (a : Byte) : Byte :=
  let t : BitVec 9 := a.setWidth 9 <<< 1
  (if t.getLsbD 8 then t ^^^ 0x11B#9 else t).setWidth 8

/-- One pass of the loop of `gmul` and those after it (R92). -/
def gmulLoop : Nat → Byte → Byte → Byte → Byte
  | 0,     _, _, r => r
  | n + 1, a, b, r => gmulLoop n (xtime a) (b >>> 1) (if b.getLsbD 0 then r ^^^ a else r)

/-- `gmul(a, b)`: eight passes from `r = 0` (R92). -/
def gmul (a b : Byte) : Byte := gmulLoop 8 a b 0

/-- `ginv(a)`: the inverse of a nonzero byte, and 0 for 0 (R93), computed as the power `a^254` by squaring
(DEDUCED, log entry 9: the nonzero bytes form a group of 255 elements). -/
def ginv (a : Byte) : Byte :=
  let a2   := gmul a a
  let a3   := gmul a2 a
  let a6   := gmul a3 a3
  let a12  := gmul a6 a6
  let a15  := gmul a12 a3
  let a30  := gmul a15 a15
  let a60  := gmul a30 a30
  let a120 := gmul a60 a60
  let a126 := gmul a120 a6
  let a127 := gmul a126 a
  gmul a127 a127

/-- The affine map of R94. -/
def sboxAffine (b : Byte) : Byte :=
  b ^^^ b.rotateLeft 1 ^^^ b.rotateLeft 2 ^^^ b.rotateLeft 3 ^^^ b.rotateLeft 4 ^^^ 0x63

/-- The S-box listing of R94: entry `x` at row `x >> 4`, column `x & 15`. -/
def sboxRows : List (List Byte) :=
  [[0x63, 0x7c, 0x77, 0x7b, 0xf2, 0x6b, 0x6f, 0xc5, 0x30, 0x01, 0x67, 0x2b, 0xfe, 0xd7, 0xab, 0x76],
   [0xca, 0x82, 0xc9, 0x7d, 0xfa, 0x59, 0x47, 0xf0, 0xad, 0xd4, 0xa2, 0xaf, 0x9c, 0xa4, 0x72, 0xc0],
   [0xb7, 0xfd, 0x93, 0x26, 0x36, 0x3f, 0xf7, 0xcc, 0x34, 0xa5, 0xe5, 0xf1, 0x71, 0xd8, 0x31, 0x15],
   [0x04, 0xc7, 0x23, 0xc3, 0x18, 0x96, 0x05, 0x9a, 0x07, 0x12, 0x80, 0xe2, 0xeb, 0x27, 0xb2, 0x75],
   [0x09, 0x83, 0x2c, 0x1a, 0x1b, 0x6e, 0x5a, 0xa0, 0x52, 0x3b, 0xd6, 0xb3, 0x29, 0xe3, 0x2f, 0x84],
   [0x53, 0xd1, 0x00, 0xed, 0x20, 0xfc, 0xb1, 0x5b, 0x6a, 0xcb, 0xbe, 0x39, 0x4a, 0x4c, 0x58, 0xcf],
   [0xd0, 0xef, 0xaa, 0xfb, 0x43, 0x4d, 0x33, 0x85, 0x45, 0xf9, 0x02, 0x7f, 0x50, 0x3c, 0x9f, 0xa8],
   [0x51, 0xa3, 0x40, 0x8f, 0x92, 0x9d, 0x38, 0xf5, 0xbc, 0xb6, 0xda, 0x21, 0x10, 0xff, 0xf3, 0xd2],
   [0xcd, 0x0c, 0x13, 0xec, 0x5f, 0x97, 0x44, 0x17, 0xc4, 0xa7, 0x7e, 0x3d, 0x64, 0x5d, 0x19, 0x73],
   [0x60, 0x81, 0x4f, 0xdc, 0x22, 0x2a, 0x90, 0x88, 0x46, 0xee, 0xb8, 0x14, 0xde, 0x5e, 0x0b, 0xdb],
   [0xe0, 0x32, 0x3a, 0x0a, 0x49, 0x06, 0x24, 0x5c, 0xc2, 0xd3, 0xac, 0x62, 0x91, 0x95, 0xe4, 0x79],
   [0xe7, 0xc8, 0x37, 0x6d, 0x8d, 0xd5, 0x4e, 0xa9, 0x6c, 0x56, 0xf4, 0xea, 0x65, 0x7a, 0xae, 0x08],
   [0xba, 0x78, 0x25, 0x2e, 0x1c, 0xa6, 0xb4, 0xc6, 0xe8, 0xdd, 0x74, 0x1f, 0x4b, 0xbd, 0x8b, 0x8a],
   [0x70, 0x3e, 0xb5, 0x66, 0x48, 0x03, 0xf6, 0x0e, 0x61, 0x35, 0x57, 0xb9, 0x86, 0xc1, 0x1d, 0x9e],
   [0xe1, 0xf8, 0x98, 0x11, 0x69, 0xd9, 0x8e, 0x94, 0x9b, 0x1e, 0x87, 0xe9, 0xce, 0x55, 0x28, 0xdf],
   [0x8c, 0xa1, 0x89, 0x0d, 0xbf, 0xe6, 0x42, 0x68, 0x41, 0x99, 0x2d, 0x0f, 0xb0, 0x54, 0xbb, 0x16]]

/-- The inverse S-box listing of R95, same layout. -/
def invSboxRows : List (List Byte) :=
  [[0x52, 0x09, 0x6a, 0xd5, 0x30, 0x36, 0xa5, 0x38, 0xbf, 0x40, 0xa3, 0x9e, 0x81, 0xf3, 0xd7, 0xfb],
   [0x7c, 0xe3, 0x39, 0x82, 0x9b, 0x2f, 0xff, 0x87, 0x34, 0x8e, 0x43, 0x44, 0xc4, 0xde, 0xe9, 0xcb],
   [0x54, 0x7b, 0x94, 0x32, 0xa6, 0xc2, 0x23, 0x3d, 0xee, 0x4c, 0x95, 0x0b, 0x42, 0xfa, 0xc3, 0x4e],
   [0x08, 0x2e, 0xa1, 0x66, 0x28, 0xd9, 0x24, 0xb2, 0x76, 0x5b, 0xa2, 0x49, 0x6d, 0x8b, 0xd1, 0x25],
   [0x72, 0xf8, 0xf6, 0x64, 0x86, 0x68, 0x98, 0x16, 0xd4, 0xa4, 0x5c, 0xcc, 0x5d, 0x65, 0xb6, 0x92],
   [0x6c, 0x70, 0x48, 0x50, 0xfd, 0xed, 0xb9, 0xda, 0x5e, 0x15, 0x46, 0x57, 0xa7, 0x8d, 0x9d, 0x84],
   [0x90, 0xd8, 0xab, 0x00, 0x8c, 0xbc, 0xd3, 0x0a, 0xf7, 0xe4, 0x58, 0x05, 0xb8, 0xb3, 0x45, 0x06],
   [0xd0, 0x2c, 0x1e, 0x8f, 0xca, 0x3f, 0x0f, 0x02, 0xc1, 0xaf, 0xbd, 0x03, 0x01, 0x13, 0x8a, 0x6b],
   [0x3a, 0x91, 0x11, 0x41, 0x4f, 0x67, 0xdc, 0xea, 0x97, 0xf2, 0xcf, 0xce, 0xf0, 0xb4, 0xe6, 0x73],
   [0x96, 0xac, 0x74, 0x22, 0xe7, 0xad, 0x35, 0x85, 0xe2, 0xf9, 0x37, 0xe8, 0x1c, 0x75, 0xdf, 0x6e],
   [0x47, 0xf1, 0x1a, 0x71, 0x1d, 0x29, 0xc5, 0x89, 0x6f, 0xb7, 0x62, 0x0e, 0xaa, 0x18, 0xbe, 0x1b],
   [0xfc, 0x56, 0x3e, 0x4b, 0xc6, 0xd2, 0x79, 0x20, 0x9a, 0xdb, 0xc0, 0xfe, 0x78, 0xcd, 0x5a, 0xf4],
   [0x1f, 0xdd, 0xa8, 0x33, 0x88, 0x07, 0xc7, 0x31, 0xb1, 0x12, 0x10, 0x59, 0x27, 0x80, 0xec, 0x5f],
   [0x60, 0x51, 0x7f, 0xa9, 0x19, 0xb5, 0x4a, 0x0d, 0x2d, 0xe5, 0x7a, 0x9f, 0x93, 0xc9, 0x9c, 0xef],
   [0xa0, 0xe0, 0x3b, 0x4d, 0xae, 0x2a, 0xf5, 0xb0, 0xc8, 0xeb, 0xbb, 0x3c, 0x83, 0x53, 0x99, 0x61],
   [0x17, 0x2b, 0x04, 0x7e, 0xba, 0x77, 0xd6, 0x26, 0xe1, 0x69, 0x14, 0x63, 0x55, 0x21, 0x0c, 0x7d]]

/-- Entry `x` of a byte table laid out in 16 rows of 16. -/
def tableAt (rows : List (List Byte)) (x : Byte) : Byte := (rows.getD (x.toNat / 16) []).getD (x.toNat % 16) 0

/-- `S[x]` (R94). -/
def sbox (x : Byte) : Byte := tableAt sboxRows x

/-- `Si[x]` (R95). -/
def invSbox (x : Byte) : Byte := tableAt invSboxRows x

/-- The round-constant listing of R96. -/
def rconTable : List Byte :=
  [0x01, 0x02, 0x04, 0x08, 0x10, 0x20, 0x40, 0x80, 0x1b, 0x36,
   0x6c, 0xd8, 0xab, 0x4d, 0x9a, 0x2f, 0x5e, 0xbc, 0x63, 0xc6,
   0x97, 0x35, 0x6a, 0xd4, 0xb3, 0x7d, 0xfa, 0xef, 0xc5, 0x91]

/-- `RCON[i]` (R96); an index past 29 does not exist and reads as a free value. -/
def rcon (i : Nat) : Byte := byteAt rconTable i

/-- `SHIFT[b_c][dir][k]`: the column offset for byte position `k`; position 0 has offset 0 (R97). -/
def shift (bc : Nat) (dir : Dir) (k : Nat) : Nat :=
  match dir, bc, k with
  | _,    _, 0 => 0
  | .enc, 8, 1 => 1
  | .enc, 8, 2 => 3
  | .enc, 8, _ => 4
  | .enc, _, k => k
  | .dec, 4, 1 => 3
  | .dec, 4, 2 => 2
  | .dec, 4, _ => 1
  | .dec, 6, 1 => 5
  | .dec, 6, 2 => 4
  | .dec, 6, _ => 3
  | .dec, _, 1 => 7
  | .dec, _, 2 => 5
  | .dec, _, _ => 4

/-- `T1[x]` (R98). -/
def tableT1 (x : Byte) : Word := word (gmul 2 (sbox x)) (sbox x) (sbox x) (gmul 3 (sbox x))
/-- `T2[x]` (R98). -/
def tableT2 (x : Byte) : Word := word (gmul 3 (sbox x)) (gmul 2 (sbox x)) (sbox x) (sbox x)
/-- `T3[x]` (R98). -/
def tableT3 (x : Byte) : Word := word (sbox x) (gmul 3 (sbox x)) (gmul 2 (sbox x)) (sbox x)
/-- `T4[x]` (R98). -/
def tableT4 (x : Byte) : Word := word (sbox x) (sbox x) (gmul 3 (sbox x)) (gmul 2 (sbox x))

/-- `U1[x]` (R100). -/
def tableU1 (x : Byte) : Word := word (gmul 14 x) (gmul 9 x) (gmul 13 x) (gmul 11 x)
/-- `U2[x]` (R100). -/
def tableU2 (x : Byte) : Word := word (gmul 11 x) (gmul 14 x) (gmul 9 x) (gmul 13 x)
/-- `U3[x]` (R100). -/
def tableU3 (x : Byte) : Word := word (gmul 13 x) (gmul 11 x) (gmul 14 x) (gmul 9 x)
/-- `U4[x]` (R100). -/
def tableU4 (x : Byte) : Word := word (gmul 9 x) (gmul 13 x) (gmul 11 x) (gmul 14 x)

/-- `T5[x]`: the bytes of `U1` over `Si[x]` (R99). -/
def tableT5 (x : Byte) : Word :=
  word (gmul 14 (invSbox x)) (gmul 9 (invSbox x)) (gmul 13 (invSbox x)) (gmul 11 (invSbox x))
/-- `T6[x]` (R99). -/
def tableT6 (x : Byte) : Word :=
  word (gmul 11 (invSbox x)) (gmul 14 (invSbox x)) (gmul 9 (invSbox x)) (gmul 13 (invSbox x))
/-- `T7[x]` (R99). -/
def tableT7 (x : Byte) : Word :=
  word (gmul 13 (invSbox x)) (gmul 11 (invSbox x)) (gmul 14 (invSbox x)) (gmul 9 (invSbox x))
/-- `T8[x]` (R99). -/
def tableT8 (x : Byte) : Word :=
  word (gmul 9 (invSbox x)) (gmul 13 (invSbox x)) (gmul 11 (invSbox x)) (gmul 14 (invSbox x))

/-- The table a middle round pairs with byte position `k` (R138, R153, R171): `T1..T4` or `T5..T8`. -/
def roundTable (dir : Dir) (k : Nat) (x : Byte) : Word :=
  match dir, k with
  | .enc, 0 => tableT1 x
  | .enc, 1 => tableT2 x
  | .enc, 2 => tableT3 x
  | .enc, _ => tableT4 x
  | .dec, 0 => tableT5 x
  | .dec, 1 => tableT6 x
  | .dec, 2 => tableT7 x
  | .dec, _ => tableT8 x

/-- The per-byte function of a final round (R139, R154, R171). -/
def subByte (dir : Dir) (x : Byte) : Byte :=
  match dir with
  | .enc => sbox x
  | .dec => invSbox x

/-- `MixColumn` of a column, row 0 first (R101). -/
def mixColumn (a0 a1 a2 a3 : Byte) : Byte × Byte × Byte × Byte :=
  (gmul 2 a0 ^^^ gmul 3 a1 ^^^ a2 ^^^ a3,
   a0 ^^^ gmul 2 a1 ^^^ gmul 3 a2 ^^^ a3,
   a0 ^^^ a1 ^^^ gmul 2 a2 ^^^ gmul 3 a3,
   gmul 3 a0 ^^^ a1 ^^^ a2 ^^^ gmul 2 a3)

/-- `InvMixColumn` of a column, row 0 first (R101). -/
def invMixColumn (a0 a1 a2 a3 : Byte) : Byte × Byte × Byte × Byte :=
  (gmul 14 a0 ^^^ gmul 11 a1 ^^^ gmul 13 a2 ^^^ gmul 9 a3,
   gmul 9 a0 ^^^ gmul 14 a1 ^^^ gmul 11 a2 ^^^ gmul 13 a3,
   gmul 13 a0 ^^^ gmul 9 a1 ^^^ gmul 14 a2 ^^^ gmul 11 a3,
   gmul 11 a0 ^^^ gmul 13 a1 ^^^ gmul 9 a2 ^^^ gmul 14 a3)

/-- `RotWord(v)`: left by 8 bits, byte by byte (R121). -/
def rotWord (v : Word) : Word := word (byte v 1) (byte v 2) (byte v 3) (byte v 0)

/-- `SubWord(v)` (R121). -/
def subWord (v : Word) : Word := word (sbox (byte v 0)) (sbox (byte v 1)) (sbox (byte v 2)) (sbox (byte v 3))

/-- `InvMixWord(v)`, through `U1..U4` (R121). -/
def invMixWord (v : Word) : Word :=
  tableU1 (byte v 0) ^^^ tableU2 (byte v 1) ^^^ tableU3 (byte v 2) ^^^ tableU4 (byte v 3)

/-! ## Checksums (R103) -/

/-- `wsum(X)`: the sum over `x` of `(x+1) * X[x]`, modulo 2^32 (R103). -/
def wsum (table : Byte → Word) : Word :=
  (List.range 256).foldl (fun h x => h + BitVec.ofNat 32 (x + 1) * table (BitVec.ofNat 8 x)) 0

/-- `h31(X)`: `h <- 0; for x = 0..255: h <- (h*31 + X[x]) mod 2^32` (R103). -/
def h31 (table : Byte → Word) : Word := (List.range 256).foldl (fun h x => h * 31 + table (BitVec.ofNat 8 x)) 0

/-- A byte table read as a table of words, as R103 reads `S` and `Si`. -/
def widened (table : Byte → Byte) (x : Byte) : Word := (table x).setWidth 32

/-- The listing of R103: each table with its `wsum` and its `h31`. -/
def tableChecksums : List ((Byte → Word) × Word × Word) :=
  [(tableT1, 0xcbcdd642, 0xd59bafc4), (tableT2, 0xa5cb8c7c, 0xffb5bf24), (tableT3, 0x13a58c7c, 0xa8e0df24),
   (tableT4, 0xce13667c, 0x138a0a44), (tableT5, 0x27ffb109, 0x60e0a9be), (tableT6, 0x1427c11d, 0xd3a6eebe),
   (tableT7, 0xf313e74f, 0x970e635a), (tableT8, 0xfff2d337, 0x1bc37452), (tableU1, 0xffffbfc0, 0xf30ef800),
   (tableU2, 0xffffbfc0, 0x700ef800), (tableU3, 0xffffbfc0, 0x1fedf800), (tableU4, 0xffffbfc0, 0x89ccf800),
   (widened sbox, 0x003f107c, 0x1ed69b24), (widened invSbox, 0x003f107c, 0x51a50c80)]

/-- Whether a table has the checksums listed beside it: the check R103 offers a model that generates its tables. -/
def hasChecksums (entry : (Byte → Word) × Word × Word) : Bool :=
  wsum entry.1 == entry.2.1 && h31 entry.1 == entry.2.2

end Sys2Proof.Machine
end

