-- ==== Sys2Proof/Machine/Ops.lean ====
section
/-! DEFINITION. The named operations over the state: reading and writing its arrays, latching a command,
ending a command with a response, raising an error (the one way of taking an exception on this hardware,
spec/60_exceptions.md rules R230, R236, R238), and leaving working state unspecified (R21). -/

namespace Sys2Proof.Machine

/-- What a meaning or a step answers. -/
abbrev Answer := Host.Outcome State Fault Refusal

/-- An encryption round-key element `KE[r][j]` (R24); one that holds no value reads as a free value. -/
def State.keAt (s : State) (r j : Nat) : Word :=
  (s.ctx.ke.getD r []).getD j (Config.freeWord s.epoch (.ke r j))

/-- A decryption round-key element `KD[r][j]` (R25). -/
def State.kdAt (s : State) (r j : Nat) : Word :=
  (s.ctx.kd.getD r []).getD j (Config.freeWord s.epoch (.kd r j))

/-- The round-key store the direction selects: `K = KE` if `dir = ENC` else `KD` (R167, R171). -/
def State.roundKey (s : State) (dir : Dir) (r j : Nat) : Word :=
  match dir with
  | .enc => s.keAt r j
  | .dec => s.kdAt r j

/-- `T[i]` (R29). -/
def State.tAt (s : State) (i : Nat) : Word := s.dp.t.getD i (Config.freeWord s.epoch (.t i))

/-- `TK[i]` (R30). -/
def State.tkAt (s : State) (i : Nat) : Word := s.kx.tk.getD i (Config.freeWord s.epoch (.tk i))

/-- Byte `i` of `CHAIN` (R34). -/
def State.chainAt (s : State) (i : Nat) : Byte := s.orch.chain.getD i (Config.freeByte s.epoch (.chain i))

/-- Byte `i` of the datapath's input block (R167 `blk`). -/
def State.blkInAt (s : State) (i : Nat) : Byte := s.dp.blkIn.getD i (Config.freeByte s.epoch (.blkIn i))

/-- The first `n` bytes of `CHAIN` (R34: "the first `BLOCK_SIZE` are used"). -/
def State.chainBlock (s : State) (n : Nat) : List Byte := (List.range n).map s.chainAt

/-- Writing elements `0 .. new.length-1` of an array, the others staying as they are (R18 `X[i] <- v`). -/
def overlay {α : Type} (new old : List α) : List α := new ++ old.drop new.length

/-- Derived values of the context (R23): `BC`. -/
def State.bc (s : State) : Nat := wordsOf s.ctx.blockSize

/-- Derived values of the context (R23): `ROUNDS`. -/
def State.rounds (s : State) : Nat := Machine.rounds s.ctx.keyLen s.ctx.blockSize

/-- All three state machines in their idle state, as between commands (R36). -/
def State.machinesIdle (s : State) : State :=
  { s with
    dp   := { s.dp with fsm := .idle }
    kx   := { s.kx with kfsm := .idle }
    orch := { s.orch with cfsm := .idle } }

/-- Taking an exception: `raise E` (R18, R236, R238). `STATUS <- code`, `DOUT_LEN <- 0`, every state machine
idle; the context and the binding stay, nothing is saved, and control returns to the host. There is no
return-from-exception operation (R239): the next command simply follows. -/
def State.raise (s : State) (e : Err) : State :=
  { s.machinesIdle with resp := { status := .err e, dout := [] } }

/-- `respond(v)`: the command ends with `(OK, v)` (R18, R37, R39). -/
def State.respond (s : State) (v : List Byte) : State :=
  { s.machinesIdle with resp := { status := .ok, dout := v } }

/-- Ending a command whose result may be an error (R10). -/
def State.conclude (s : State) (r : Except Err (List Byte)) : State :=
  match r with
  | .ok v    => s.respond v
  | .error e => s.raise e

/-- The datapath's working state left unspecified (R29, R31, R141, R155): `T`, `A` and the input block hold no
value, `RND`, the direction and the output block hold free values of epoch `e`. -/
def Datapath.released (e : Nat) : Datapath where
  t     := []
  a     := []
  rnd   := Config.freeCount e .rnd % 15
  fsm   := .idle
  dir   := Config.freeDir e
  blkIn := []
  out   := Config.freeString e .out

/-- The expander's working state left unspecified (R30, R123). -/
def Expander.released (e : Nat) : Expander where
  tk   := []
  widx := Config.freeCount e .widx % 121
  rcp  := Config.freeCount e .rcp % 30
  kfsm := .idle

/-- The orchestrator's working state left unspecified after a CBC command (R34, R35, R40, R214). -/
def Orchestrator.released (e : Nat) : Orchestrator where
  chain  := []
  blk    := Config.freeCount e .blk
  padbuf := Config.freeString e .padbuf
  result := Config.freeString e .result
  cfsm   := .idle

/-- `RND` where R31 and R166 leave it unspecified inside a command: a free value of slot `slot`, within 0..14 (R31;
log entry 17). -/
def State.freeRnd (s : State) (slot : Config.CountSlot) : Nat := Config.freeCount s.epoch slot % 15

/-! The four releases take their free values from the epoch they move to, so that no value equals, by definition, one
that the reset or an earlier release left (log entry 1). -/

/-- After `ENGINE_ENCRYPT` and `ENGINE_DECRYPT` (R141, R155). -/
def State.releaseDatapath (s : State) : State :=
  { s with dp := Datapath.released (s.epoch + 1), epoch := s.epoch + 1 }

/-- After `ENGINE_NEW` and `CBC_NEW`: "`T`, `A`, `TK`, `WIDX`, `RCP` are left unspecified" (R123). What they then hold
is a free value of the new epoch (R30; log entry 1). -/
def State.releaseExpander (s : State) : State :=
  { s with
    dp    := { s.dp with t := [], a := [] }
    kx    := Expander.released (s.epoch + 1)
    epoch := s.epoch + 1 }

/-- After `PAD` and `UNPAD`, which use `PADBUF` and nothing else (R197). -/
def State.releasePadding (s : State) : State :=
  { s with
    orch  := { s.orch with padbuf := Config.freeString (s.epoch + 1) .padbuf
                           result := Config.freeString (s.epoch + 1) .result, cfsm := .idle }
    epoch := s.epoch + 1 }

/-- After `CBC_ENCRYPT` and `CBC_DECRYPT`, which use the orchestrator and the datapath (R214). -/
def State.releaseCbc (s : State) : State :=
  { s with
    dp    := Datapath.released (s.epoch + 1)
    orch  := Orchestrator.released (s.epoch + 1)
    epoch := s.epoch + 1 }

/-- The writes of a successful construction, all at once (R123, R206): the context with its stores, and the
binding. -/
def State.commit (s : State) (ke kd : List (List Word)) (b : Binding) : State :=
  { s with
    ctx := { cfgValid := true, blockSize := s.cmd.bsIn, keyLen := s.cmd.keyBuf.length, ke := ke, kd := kd }
    binding := b }

/-- The binding a successful `ENGINE_NEW` leaves: unbound, `PAD_MODE` unchanged (R33, R46, R123). -/
def State.unbound (s : State) : Binding := { s.binding with padSize := 0 }

/-- The binding a successful `CBC_NEW` leaves: the discipline of `padsel` and the block size (R206). -/
def State.bound (s : State) (m : PadMode) : Binding := { padMode := m, padSize := s.cmd.bsIn }

/-- The host's next move is taken: `host` loses its head. -/
def State.moved (s : State) (rest : List HostMove) : State := { s with host := rest }

/-- A command is presented: its word and operands are latched and stay for its duration (R38, R272). -/
def State.accept (s : State) (c : Command) (rest : List HostMove) : State := { s with cmd := c, host := rest }

/-- Reset, at any time (R260, R261). The host's operands and further moves are the host's; free values are
fresh. -/
def State.resetNow (s : State) (rest : List HostMove) : State := State.resetAt (s.epoch + 1) s.cmd rest

/-- Whether a command is running: some state machine is not idle (R36, R175). -/
def State.busy (s : State) : Bool :=
  s.dp.fsm != .idle || s.kx.kfsm != .idle || s.orch.cfsm != .idle

end Sys2Proof.Machine
end

