-- ==== Sys2Proof/Machine/Flags.lean ====
section
/-! DEFINITION. The flag-like state (spec/10_state.md rule R42: `CFG_VALID`, the condition `PAD_SIZE != 0`,
`STATUS`) and the checks that decide `STATUS`, in the order of spec/60_exceptions.md rule R237. -/

namespace Sys2Proof.Machine

/-- The status codes (R74, R231). -/
def Status.code : Status → BitVec 2
  | .ok                    => 0
  | .err .invalidDataSize  => 1
  | .err .invalidBlockSize => 2
  | .err .invalidKeySize   => 3

/-- The encodings of the state registers (R180); "the numbers carry no meaning and nothing reads them". -/
def Fsm.code : Fsm → Nat
  | .idle  => 0
  | .load  => 1
  | .round => 2
  | .final => 3
  | .done  => 4

/-- The encodings of `KFSM` (R180). -/
def Kfsm.code : Kfsm → Nat
  | .idle   => 0
  | .check  => 1
  | .copy   => 2
  | .expand => 3
  | .invmix => 4
  | .done   => 5

/-- The encodings of `CFSM` (R180). -/
def Cfsm.code : Cfsm → Nat
  | .idle   => 0
  | .check  => 1
  | .pad    => 2
  | .xorIn  => 3
  | .crypt  => 4
  | .xorOut => 5
  | .next   => 6
  | .unpad  => 7
  | .done   => 8

/-- `UNCONFIGURED`: the error of a data command before a successful construction, or of a CBC or padding
command on an unbound orchestrator (R14, D9). -/
def unconfiguredError : Err := .invalidBlockSize

/-- `PKCS7_OVERRUN`: the error of a PKCS#7 decode whose count exceeds the length, or of empty input
(R14, R193, D13). -/
def pkcs7OverrunError : Err := .invalidDataSize

/-- "The orchestrator is bound" (R33). -/
def State.isBound (s : State) : Bool := s.binding.padSize != 0

/-- `ENGINE_NEW`, `CBC_NEW`: block size first, then key length (R116, R237; `CHECK_ORDER`, D8). -/
def constructError (bs klen : Nat) : Option Err :=
  if !validSize bs then some .invalidBlockSize
  else if !validSize klen then some .invalidKeySize
  else none

/-- `ENGINE_ENCRYPT`, `ENGINE_DECRYPT`: constructed, then `DIN_LEN = BLOCK_SIZE` (R136, R151, R237). -/
def blockError (s : State) : Option Err :=
  if !s.ctx.cfgValid then some unconfiguredError
  else if s.cmd.din.length ≠ s.ctx.blockSize then some .invalidBlockSize
  else none

/-- `CBC_ENCRYPT`: bound, then `IV_LEN = BLOCK_SIZE` (R207, R237). -/
def cbcEncryptError (s : State) : Option Err :=
  if !s.isBound then some unconfiguredError
  else if s.cmd.ivBuf.length ≠ s.ctx.blockSize then some .invalidBlockSize
  else none

/-- `CBC_DECRYPT`: bound, then the ciphertext length, then the IV length (R210, R237). -/
def cbcDecryptError (s : State) : Option Err :=
  if !s.isBound then some unconfiguredError
  else if s.cmd.din.length % s.ctx.blockSize ≠ 0 then some .invalidDataSize
  else if s.cmd.ivBuf.length ≠ s.ctx.blockSize then some .invalidBlockSize
  else none

/-- `PAD`: bound (R196, R237). -/
def padError (s : State) : Option Err :=
  if !s.isBound then some unconfiguredError else none

/-- `UNPAD`: bound, then the length a multiple of `PAD_SIZE` (R186, R196, R237). -/
def unpadError (s : State) : Option Err :=
  if !s.isBound then some unconfiguredError
  else if s.cmd.din.length % s.binding.padSize ≠ 0 then some .invalidDataSize
  else none

end Sys2Proof.Machine
end

