-- ==== Sys2Proof/Machine/KeySchedule.lean ====
section
/-! DEFINITION. The key-schedule expander and the constructors `ENGINE_NEW`, `CBC_NEW.Z`, `CBC_NEW.P`
(spec/42_key_schedule.md, spec/47_cbc.md rules R205, R206). The schedule is the word recurrence of R119;
the batch form of R125 is what the state machine steps through (Machine/Sequencer.lean). -/

namespace Sys2Proof.Machine

/-- Schedule word `i >= k_c` from the words before it (R119). -/
def nextWord (kc : Nat) (w : List Word) : Word :=
  let i := w.length
  let t := wordAt w (i - 1)
  let t' :=
    if i % kc = 0 then subWord (rotWord t) ^^^ ((rcon (i / kc - 1)).setWidth 32 <<< 24)
    else if kc = 8 ∧ i % kc = 4 then subWord t
    else t
  wordAt w (i - kc) ^^^ t'

/-- `n` more schedule words appended (R119). -/
def extendSchedule (kc : Nat) : Nat → List Word → List Word
  | 0,     w => w
  | n + 1, w => extendSchedule kc n (w ++ [nextWord kc w])

/-- The schedule `W[0..N-1]` of a key for a block size: the key words, then the recurrence (R118, R119). -/
def schedule (key : List Byte) (bs : Nat) : List Word :=
  extendSchedule (wordsOf key.length) (scheduleLength key.length bs - wordsOf key.length)
    (beWords key (wordsOf key.length))

/-- Rows of `b_c` words: schedule word `t` lands at row `t / b_c`, column `t mod b_c` (R122). -/
def cutRows (bc : Nat) : Nat → List Word → List (List Word)
  | 0,     _ => []
  | n + 1, w => w.take bc :: cutRows bc n (w.drop bc)

/-- `KE` (R122): rows `0 .. R`. -/
def encryptionStore (key : List Byte) (bs : Nat) : List (List Word) :=
  cutRows (wordsOf bs) (rounds key.length bs + 1) (schedule key bs)

/-- The inverse-mix pass over rows `1 .. R-1`, the first and the last row staying (R122). -/
def mixRows (r : Nat) (rows : List (List Word)) : List (List Word) :=
  rows.mapIdx fun i row => if i = 0 ∨ i = r then row else row.map invMixWord

/-- `KD` (R122): `KE` mirrored, rows `1 .. R-1` inverse-mixed. -/
def decryptionStore (key : List Byte) (bs : Nat) : List (List Word) :=
  mixRows (rounds key.length bs) (encryptionStore key bs).reverse

/-- Construction, shared by the three constructors: the checks of R116, then the stores of R122 and the
writes of R123 or R206, `b` being the binding to leave; the expander's working state is left unspecified. -/
def State.construct (s : State) (b : Binding) : State :=
  match constructError s.cmd.bsIn s.cmd.keyBuf.length with
  | some e => s.raise e
  | none   =>
    ((s.commit (encryptionStore s.cmd.keyBuf s.cmd.bsIn) (decryptionStore s.cmd.keyBuf s.cmd.bsIn)
      b).releaseExpander).respond []

/-- `ENGINE_NEW` (R115 to R124). -/
def execEngineNew (s : State) : Answer := .next (s.construct s.unbound)

/-- `CBC_NEW.Z` (R205, R206 with `padsel = 0`). -/
def execCbcNewZ (s : State) : Answer := .next (s.construct (s.bound .zero))

/-- `CBC_NEW.P` (R205, R206 with `padsel = 1`). -/
def execCbcNewP (s : State) : Answer := .next (s.construct (s.bound .pkcs7))

end Sys2Proof.Machine
end

