-- ==== Sys2Proof/Machine/Datapath.lean ====
section
/-! DEFINITION. The block datapath as functions of words (spec/43_encrypt.md rules R137 to R139,
spec/44_decrypt.md rules R152 to R154): the three steps of the round multiplexer (R171) and their
composition. `t` and `k` are the words of the cipher state and of a round-key row, by column. -/

namespace Sys2Proof.Machine

/-- Column `(i + s_k) mod b_c`, from which byte position `k` is fetched (R97, R138, R153). -/
def shiftedColumn (dir : Dir) (bc i k : Nat) : Nat := (i + shift bc dir k) % bc

/-- `INIT`: load and first key addition (R137, R152). -/
def loadWords (bc : Nat) (blk : Nat → Byte) (k : Nat → Word) : List Word :=
  (List.range bc).map fun i => be32 blk i ^^^ k i

/-- One term of the recombination: byte `k` of the word it is fetched from, through its table (R138, R153). -/
def lookup (dir : Dir) (bc : Nat) (t : Nat → Word) (i k : Nat) : Word :=
  roundTable dir k (byte (t (shiftedColumn dir bc i k)) k)

/-- `A[i]` of a middle round (R138, R153). -/
def midWord (dir : Dir) (bc : Nat) (t k : Nat → Word) (i : Nat) : Word :=
  lookup dir bc t i 0 ^^^ lookup dir bc t i 1 ^^^ lookup dir bc t i 2 ^^^ lookup dir bc t i 3 ^^^ k i

/-- `MID`: one middle round, every word from the old `T` (R138, R153, R274). -/
def midRound (dir : Dir) (bc : Nat) (t k : Nat → Word) : List Word :=
  (List.range bc).map (midWord dir bc t k)

/-- Output byte `4i + k` of the final round (R139, R154). -/
def finalByte (dir : Dir) (bc : Nat) (t kr : Nat → Word) (i k : Nat) : Byte :=
  subByte dir (byte (t (shiftedColumn dir bc i k)) k) ^^^ byte (kr i) k

/-- `FINAL`: the final round and the output block (R139, R154). -/
def finalRound (dir : Dir) (bc : Nat) (t k : Nat → Word) : List Byte :=
  (List.range bc).flatMap fun i => (List.range 4).map (finalByte dir bc t k i)

/-- The cipher state after the load and `n` middle rounds with key rows `1 .. n` (R137, R138). -/
def roundState (dir : Dir) (bc : Nat) (key : Nat → Nat → Word) (blk : Nat → Byte) : Nat → List Word
  | 0     => loadWords bc blk (key 0)
  | n + 1 => midRound dir bc (wordAt (roundState dir bc key blk n)) (key (n + 1))

/-- `EncryptBlock` and `DecryptBlock`: `R - 1` middle rounds and the final round with row `R`
(R137 to R139, R152 to R154). -/
def cipherBlock (dir : Dir) (bc r : Nat) (key : Nat → Nat → Word) (blk : Nat → Byte) : List Byte :=
  finalRound dir bc (wordAt (roundState dir bc key blk (r - 1))) (key r)

/-- One block under the context (R141, R155). -/
def State.cipher (s : State) (dir : Dir) (blk : List Byte) : List Byte :=
  cipherBlock dir s.bc s.rounds (s.roundKey dir) (byteAt blk)

end Sys2Proof.Machine
end

