-- ==== Sys2Proof/Machine/Block.lean ====
section
/-! DEFINITION. `ENGINE_ENCRYPT` and `ENGINE_DECRYPT` (spec/43_encrypt.md, spec/44_decrypt.md), and the
eighteen micro-operations of the round multiplexer, one step of the block state machine each
(spec/45_round_fsm.md rules R166 to R171). -/

namespace Sys2Proof.Machine

/-- A block command: the checks, then one block under the store of the direction (R135, R150). -/
def State.blockCommand (s : State) (dir : Dir) : State :=
  match blockError s with
  | some e => s.raise e
  | none   => s.releaseDatapath.respond (s.cipher dir s.cmd.din)

/-- `ENGINE_ENCRYPT` (R135 to R142). -/
def execEngineEncrypt (s : State) : Answer := .next (s.blockCommand .enc)

/-- `ENGINE_DECRYPT` (R150 to R156). -/
def execEngineDecrypt (s : State) : Answer := .next (s.blockCommand .dec)

/-- The `INIT` step: state `LOAD` of R166 and R167. `T` is loaded with key row 0, then `ROUND`, `RND <- 1`. -/
def State.uopInit (s : State) (dir : Dir) (bc : Nat) : State :=
  { s with dp := { s.dp with
      t   := overlay (loadWords bc s.blkInAt (s.roundKey dir 0)) s.dp.t
      rnd := 1
      fsm := .round } }

/-- The `MID` step: state `ROUND` of R166 and R167. `A` is computed from `T` with key row `RND`, then `T <- A`;
`ROUND` again while `RND < R-1`, else `FINAL`; `RND` counts up. -/
def State.uopMid (s : State) (dir : Dir) (bc : Nat) : State :=
  let a := midRound dir bc s.tAt (s.roundKey dir s.dp.rnd)
  { s with dp := { s.dp with
      a   := overlay a s.dp.a
      t   := overlay a s.dp.t
      rnd := if s.dp.rnd < s.rounds - 1 then s.dp.rnd + 1 else s.rounds
      fsm := if s.dp.rnd < s.rounds - 1 then .round else .final } }

/-- The `FINAL` step: state `FINAL` of R166 and R167. The output block with key row `R`, then `DONE`, `RND`
unchanged. -/
def State.uopFinal (s : State) (dir : Dir) (bc : Nat) : State :=
  { s with dp := { s.dp with
      out := finalRound dir bc s.tAt (s.roundKey dir s.rounds)
      fsm := .done } }

/-- `UOP.ENC.INIT.4` (R137). -/
def execUopEncInit4 (s : State) : Answer := .next (s.uopInit .enc 4)
/-- `UOP.ENC.INIT.6` (R137). -/
def execUopEncInit6 (s : State) : Answer := .next (s.uopInit .enc 6)
/-- `UOP.ENC.INIT.8` (R137). -/
def execUopEncInit8 (s : State) : Answer := .next (s.uopInit .enc 8)
/-- `UOP.ENC.MID.4` (R138). -/
def execUopEncMid4 (s : State) : Answer := .next (s.uopMid .enc 4)
/-- `UOP.ENC.MID.6` (R138). -/
def execUopEncMid6 (s : State) : Answer := .next (s.uopMid .enc 6)
/-- `UOP.ENC.MID.8` (R138). -/
def execUopEncMid8 (s : State) : Answer := .next (s.uopMid .enc 8)
/-- `UOP.ENC.FINAL.4` (R139). -/
def execUopEncFinal4 (s : State) : Answer := .next (s.uopFinal .enc 4)
/-- `UOP.ENC.FINAL.6` (R139). -/
def execUopEncFinal6 (s : State) : Answer := .next (s.uopFinal .enc 6)
/-- `UOP.ENC.FINAL.8` (R139). -/
def execUopEncFinal8 (s : State) : Answer := .next (s.uopFinal .enc 8)
/-- `UOP.DEC.INIT.4` (R152). -/
def execUopDecInit4 (s : State) : Answer := .next (s.uopInit .dec 4)
/-- `UOP.DEC.INIT.6` (R152). -/
def execUopDecInit6 (s : State) : Answer := .next (s.uopInit .dec 6)
/-- `UOP.DEC.INIT.8` (R152). -/
def execUopDecInit8 (s : State) : Answer := .next (s.uopInit .dec 8)
/-- `UOP.DEC.MID.4` (R153). -/
def execUopDecMid4 (s : State) : Answer := .next (s.uopMid .dec 4)
/-- `UOP.DEC.MID.6` (R153). -/
def execUopDecMid6 (s : State) : Answer := .next (s.uopMid .dec 6)
/-- `UOP.DEC.MID.8` (R153). -/
def execUopDecMid8 (s : State) : Answer := .next (s.uopMid .dec 8)
/-- `UOP.DEC.FINAL.4` (R154). -/
def execUopDecFinal4 (s : State) : Answer := .next (s.uopFinal .dec 4)
/-- `UOP.DEC.FINAL.6` (R154). -/
def execUopDecFinal6 (s : State) : Answer := .next (s.uopFinal .dec 6)
/-- `UOP.DEC.FINAL.8` (R154). -/
def execUopDecFinal8 (s : State) : Answer := .next (s.uopFinal .dec 8)

end Sys2Proof.Machine
end

