-- ==== Sys2Proof/Machine/Padding.lean ====
section
/-! DEFINITION. The padding and unpadding units and the commands `PAD` and `UNPAD` (spec/46_padding.md). -/

namespace Sys2Proof.Machine

/-- Bytes `ZeroEncode` appends: `bs - ((L + bs - 1) mod bs + 1)` (R187). -/
def zeroPadLength (len bs : Nat) : Nat := bs - ((len + bs - 1) % bs + 1)

/-- `ZeroEncode(x, bs)` (R187). -/
def zeroEncode (x : List Byte) (bs : Nat) : List Byte := x ++ rep 0 (zeroPadLength x.length bs)

/-- `ZERO_UNPAD_MAX_STRIP`: most bytes the zero decode removes (R14, D12). -/
def zeroUnpadMaxStrip (bs : Nat) : Nat := bs - 1

/-- The backward scan of R189 with `n` bytes left to look at and the bytes before `off` kept so far: a nonzero
byte before `off` ends it, keeping that byte. -/
def zeroScan (x : List Byte) : Nat → Nat → List Byte
  | 0,     off => x.take off
  | n + 1, off => if byteAt x (off - 1) ≠ 0 then x.take off else zeroScan x n (off - 1)

/-- `ZeroDecode(x, bs)`, for a length that is a multiple of `bs` (R189). -/
def zeroDecode (x : List Byte) (bs : Nat) : List Byte :=
  if x.length = 0 then [] else zeroScan x (zeroUnpadMaxStrip bs) x.length

/-- `n = bs - (L mod bs)`, the bytes `Pkcs7Encode` appends and the value of each (R191). -/
def pkcs7PadLength (len bs : Nat) : Nat := bs - len % bs

/-- `Pkcs7Encode(x, bs)` (R191). -/
def pkcs7Encode (x : List Byte) (bs : Nat) : List Byte :=
  x ++ rep (BitVec.ofNat 8 (pkcs7PadLength x.length bs)) (pkcs7PadLength x.length bs)

/-- `Pkcs7Decode(x, bs)`, for a length that is a multiple of `bs` (R192, R193): the last byte is the count, and
nothing else is checked. -/
def pkcs7Decode (x : List Byte) : Except Err (List Byte) :=
  if x.length = 0 then .error pkcs7OverrunError
  else
    let n := (byteAt x (x.length - 1)).toNat
    if x.length < n then .error pkcs7OverrunError else .ok (x.take (x.length - n))

/-- `encode` of the padding contract (R185, R209). -/
def padEncode (m : PadMode) (x : List Byte) (bs : Nat) : List Byte :=
  match m with
  | .zero  => zeroEncode x bs
  | .pkcs7 => pkcs7Encode x bs

/-- `decode` of the padding contract, once the length is known to be a multiple of `bs` (R186, R211). -/
def padDecode (m : PadMode) (x : List Byte) (bs : Nat) : Except Err (List Byte) :=
  match m with
  | .zero  => .ok (zeroDecode x bs)
  | .pkcs7 => pkcs7Decode x

/-- `PAD` (R185, R196 to R198). -/
def execPad (s : State) : Answer :=
  .next (match padError s with
    | some e => s.raise e
    | none   => s.releasePadding.respond (padEncode s.binding.padMode s.cmd.din s.binding.padSize))

/-- `UNPAD` (R186, R196 to R198). -/
def execUnpad (s : State) : Answer :=
  .next (match unpadError s with
    | some e => s.raise e
    | none   => s.releasePadding.conclude (padDecode s.binding.padMode s.cmd.din s.binding.padSize))

end Sys2Proof.Machine
end

