-- ==== Sys2Proof/Machine/Cbc.lean ====
section
/-! DEFINITION. The CBC orchestrator at command level: `CBC_ENCRYPT` and `CBC_DECRYPT`
(spec/47_cbc.md rules R207 to R215). `CBC_NEW` is in Machine/KeySchedule.lean. -/

namespace Sys2Proof.Machine

/-- The loop of R209 over `n` blocks of `bs` bytes, `e` being `EncryptBlock` and `chain` the chain value:
`c_i = E(p_i ^ chain)`, which is the next chain value. -/
def cbcEncryptBlocks (e : List Byte → List Byte) (bs : Nat) : Nat → List Byte → List Byte → List Byte
  | 0,     _,   _     => []
  | n + 1, msg, chain =>
    let c := e (xorBlock (msg.take bs) chain)
    c ++ cbcEncryptBlocks e bs n (msg.drop bs) c

/-- The loop of R211 over `n` blocks: `p_i = D(c_i) ^ chain`, and the next chain value is the ciphertext block
as the host supplied it (R212). -/
def cbcDecryptBlocks (d : List Byte → List Byte) (bs : Nat) : Nat → List Byte → List Byte → List Byte
  | 0,     _,   _     => []
  | n + 1, msg, chain =>
    let c := msg.take bs
    xorBlock (d c) chain ++ cbcDecryptBlocks d bs n (msg.drop bs) c

/-- The ciphertext of R209: the padded message through the loop, block by block (R218). -/
def State.cbcEncryption (s : State) : List Byte :=
  let bs := s.ctx.blockSize
  let padded := padEncode s.binding.padMode s.cmd.din bs
  cbcEncryptBlocks (s.cipher .enc) bs (padded.length / bs) padded (s.cmd.ivBuf.take bs)

/-- The recovered text of R211 before unpadding. -/
def State.cbcRecovered (s : State) : List Byte :=
  let bs := s.ctx.blockSize
  cbcDecryptBlocks (s.cipher .dec) bs (s.cmd.din.length / bs) s.cmd.din (s.cmd.ivBuf.take bs)

/-- `CBC_ENCRYPT` (R207, R209). -/
def execCbcEncrypt (s : State) : Answer :=
  .next (match cbcEncryptError s with
    | some e => s.raise e
    | none   => s.releaseCbc.respond s.cbcEncryption)

/-- `CBC_DECRYPT` (R210, R211): the unpadding may still fail after every block is decrypted (R215). -/
def execCbcDecrypt (s : State) : Answer :=
  .next (match cbcDecryptError s with
    | some e => s.raise e
    | none   => s.releaseCbc.conclude (padDecode s.binding.padMode s.cbcRecovered s.ctx.blockSize))

end Sys2Proof.Machine
end

