-- ==== Sys2Proof/Machine/Dispatch.lean ====
section
/-! DEFINITION. The meaning of each instruction, one arm a constructor. -/

namespace Sys2Proof.Machine

def exec (i : Instr) (s : State) : Host.Outcome State Fault Refusal :=
  match i with
  | .engineNew => Sys2Proof.Machine.execEngineNew s
  | .engineEncrypt => Sys2Proof.Machine.execEngineEncrypt s
  | .engineDecrypt => Sys2Proof.Machine.execEngineDecrypt s
  | .cbcNewZ => Sys2Proof.Machine.execCbcNewZ s
  | .cbcNewP => Sys2Proof.Machine.execCbcNewP s
  | .cbcEncrypt => Sys2Proof.Machine.execCbcEncrypt s
  | .cbcDecrypt => Sys2Proof.Machine.execCbcDecrypt s
  | .pad => Sys2Proof.Machine.execPad s
  | .unpad => Sys2Proof.Machine.execUnpad s
  | .uopEncInit4 => Sys2Proof.Machine.execUopEncInit4 s
  | .uopEncInit6 => Sys2Proof.Machine.execUopEncInit6 s
  | .uopEncInit8 => Sys2Proof.Machine.execUopEncInit8 s
  | .uopEncMid4 => Sys2Proof.Machine.execUopEncMid4 s
  | .uopEncMid6 => Sys2Proof.Machine.execUopEncMid6 s
  | .uopEncMid8 => Sys2Proof.Machine.execUopEncMid8 s
  | .uopEncFinal4 => Sys2Proof.Machine.execUopEncFinal4 s
  | .uopEncFinal6 => Sys2Proof.Machine.execUopEncFinal6 s
  | .uopEncFinal8 => Sys2Proof.Machine.execUopEncFinal8 s
  | .uopDecInit4 => Sys2Proof.Machine.execUopDecInit4 s
  | .uopDecInit6 => Sys2Proof.Machine.execUopDecInit6 s
  | .uopDecInit8 => Sys2Proof.Machine.execUopDecInit8 s
  | .uopDecMid4 => Sys2Proof.Machine.execUopDecMid4 s
  | .uopDecMid6 => Sys2Proof.Machine.execUopDecMid6 s
  | .uopDecMid8 => Sys2Proof.Machine.execUopDecMid8 s
  | .uopDecFinal4 => Sys2Proof.Machine.execUopDecFinal4 s
  | .uopDecFinal6 => Sys2Proof.Machine.execUopDecFinal6 s
  | .uopDecFinal8 => Sys2Proof.Machine.execUopDecFinal8 s

end Sys2Proof.Machine
end

