-- ==== Sys2Proof/Machine/Sequencer.lean ====
section
/-! DEFINITION. The three state machines (spec/45_round_fsm.md rules R166, R170, R173, R176; spec/47_cbc.md
rule R217), one step at a time, and how a step of the whole machine takes the host's next move. The state
machines refine the command-level meanings and never change what a command computes (R165). -/

namespace Sys2Proof.Machine

/-! ## The select signals -/

/-- `DIR` (R83, R170). -/
def dirBit : Dir → BitVec 1
  | .enc => 0
  | .dec => 1

/-- `RSEL`, a function of `FSM` alone (R83, R170); 3 where no step is being made. -/
def Fsm.rsel : Fsm → BitVec 2
  | .load  => 0
  | .round => 1
  | .final => 2
  | .idle  => 3
  | .done  => 3

/-- `SC`, a function of the context alone (R83, R170); 3 where the context has no block size. -/
def selectSc (bc : Nat) : BitVec 2 :=
  if bc = 4 then 0 else if bc = 6 then 1 else if bc = 8 then 2 else 3

/-- The micro-operation word the multiplexer produces in this state (R83, R170). -/
def State.uopWord (s : State) : BitVec 5 := dirBit s.dp.dir ++ s.dp.fsm.rsel ++ selectSc s.bc

/-! ## The block datapath (R166, R167) -/

/-- Starting a block operation on `blk` (R173). `RND` is unspecified on this transition (R166): a free value, the
model's form of it (log entry 17). -/
def State.startBlock (s : State) (dir : Dir) (blk : List Byte) : State :=
  { s with dp := { s.dp with fsm := .load, dir := dir, blkIn := blk, rnd := s.freeRnd (.rndLoad s.orch.blk) } }

/-- The command latched in `cmd`, if its word spells one (R84). -/
def State.command (s : State) : Option Instr :=
  match decodeCmd8 s.cmd.word with
  | .ok i    => some i
  | .error _ => none

/-- State `DONE`: the output block is handed to whoever started the operation (R167): to the orchestrator in
`C_CRYPT` (R217), to `DOUT` otherwise. `RND` is unspecified on this transition and holds no value until the next
block operation (R166, R31): a free value, the model's form of it (log entry 17). -/
def State.blockDone (s : State) : State :=
  if s.orch.cfsm = .crypt then
    { s with
      dp   := { s.dp with fsm := .idle, rnd := s.freeRnd (.rndIdle s.orch.blk) }
      orch := { s.orch with cfsm := if s.command = some .cbcEncrypt then .next else .xorOut } }
  else s.releaseDatapath.respond s.dp.out

/-- One step of `FSM` (R166): in `LOAD`, `ROUND` and `FINAL` the micro-operation the selects spell. -/
def State.stepBlock (s : State) : Answer :=
  if s.dp.fsm = .done then .next s.blockDone
  else
    match decodeUop5 s.uopWord with
    | .ok i    => exec i s
    | .error r => .refused (.reservedMicroOp r)

/-! ## The key-schedule expander (R125, R176) -/

/-- `TK[j]` for `j` in `1 .. k_c-1` where each reads the `TK[j-1]` just written (R125, R274): the running
exclusive-or of the words after `prev`. -/
def xorChain (prev : Word) : List Word → List Word
  | []      => []
  | w :: ws => (w ^^^ prev) :: xorChain (w ^^^ prev) ws

/-- One batch: `TK` updated in place with round constant `RCON[rcp]` (R125). -/
def nextBatch (kc rcp : Nat) (tk : List Word) : List Word :=
  let t  := wordAt tk (kc - 1)
  let t0 := wordAt tk 0 ^^^ subWord (rotWord t) ^^^ ((rcon rcp).setWidth 32 <<< 24)
  if kc ≠ 8 then t0 :: xorChain t0 (tk.drop 1)
  else
    let lo := t0 :: xorChain t0 ((tk.drop 1).take 3)
    let t4 := wordAt tk 4 ^^^ subWord (wordAt lo 3)
    lo ++ t4 :: xorChain t4 (tk.drop 5)

/-- `KE[r][WIDX mod b_c] <- w`: the elements of a row are written in column order (R125). -/
def storeWord (rows : List (List Word)) (r : Nat) (w : Word) : List (List Word) := rows.modify r (· ++ [w])

/-- One pass of the loop of `copy_out` (R125): `w` goes to both stores, mirrored, while `WIDX < N`. -/
def State.copyWord (s : State) (w : Word) : State :=
  let bc := wordsOf s.cmd.bsIn
  let r  := Machine.rounds s.cmd.keyBuf.length s.cmd.bsIn
  if s.kx.widx < scheduleLength s.cmd.keyBuf.length s.cmd.bsIn then
    { s with
      ctx := { s.ctx with ke := storeWord s.ctx.ke (s.kx.widx / bc) w
                          kd := storeWord s.ctx.kd (r - s.kx.widx / bc) w }
      kx  := { s.kx with widx := s.kx.widx + 1 } }
  else s

/-- `copy_out()` (R125): the words of `TK` in increasing `j`. -/
def State.copyOut (s : State) : State := s.kx.tk.foldl State.copyWord s

/-- State `K_COPY` before its `copy_out` (R176): the key words into `TK`, the counters to 0, the stores emptied
(R123: whatever an earlier context had is gone). -/
def State.loadKey (s : State) : State :=
  let r := Machine.rounds s.cmd.keyBuf.length s.cmd.bsIn
  { s with
    ctx := { s.ctx with ke := List.replicate (r + 1) [], kd := List.replicate (r + 1) [] }
    kx  := { tk := beWords s.cmd.keyBuf (wordsOf s.cmd.keyBuf.length), widx := 0, rcp := 0, kfsm := .expand } }

/-- State `K_COPY` (R176). -/
def State.copyKey (s : State) : State := s.loadKey.copyOut

/-- State `K_EXPAND` before its `copy_out` (R176): one batch, `RCP <- RCP + 1`. -/
def State.updateKey (s : State) : State :=
  let kc := wordsOf s.cmd.keyBuf.length
  { s with kx := { s.kx with
    tk  := nextBatch kc s.kx.rcp ((List.range kc).map s.tkAt)
    rcp := s.kx.rcp + 1 } }

/-- State `K_EXPAND` after its `copy_out` (R176): again while `WIDX < N`, else the inverse mix. -/
def State.afterBatch (s : State) : State :=
  { s with kx := { s.kx with
    kfsm := if s.kx.widx < scheduleLength s.cmd.keyBuf.length s.cmd.bsIn then .expand else .invmix } }

/-- State `K_EXPAND` (R176). -/
def State.expandBatch (s : State) : State := s.updateKey.copyOut.afterBatch

/-- State `K_INVMIX` (R176): the inverse-mix pass over rows `1 .. R-1` of `KD`. -/
def State.mixStore (s : State) : State :=
  { s with
    ctx := { s.ctx with kd := mixRows (Machine.rounds s.cmd.keyBuf.length s.cmd.bsIn) s.ctx.kd }
    kx  := { s.kx with kfsm := .done } }

/-- State `K_DONE` (R176): the writes of R123 or R206. -/
def State.commitKey (s : State) (b : Binding) : State :=
  ((s.commit s.ctx.ke s.ctx.kd b).releaseExpander).respond []

/-- One step of `KFSM` (R176). -/
def State.stepExpander (s : State) : Answer :=
  match s.kx.kfsm with
  | .idle   => .next s
  | .check  =>
    match constructError s.cmd.bsIn s.cmd.keyBuf.length with
    | some e => .next (s.raise e)
    | none   => .next { s with kx := { s.kx with kfsm := .copy } }
  | .copy   => .next s.copyKey
  | .expand => .next s.expandBatch
  | .invmix => .next s.mixStore
  | .done   =>
    match s.command with
    | some .engineNew => .next (s.commitKey s.unbound)
    | some .cbcNewZ   => .next (s.commitKey (s.bound .zero))
    | some .cbcNewP   => .next (s.commitKey (s.bound .pkcs7))
    | _               => .fault .noTransition

/-! ## The orchestrator (R217) -/

/-- `CFSM <- c` (R18). -/
def State.toCfsm (s : State) (c : Cfsm) : State := { s with orch := { s.orch with cfsm := c } }

/-- State `C_CHECK` on a pass of a CBC command: `CHAIN <- IVBUF[0..bs]`, `BLK <- 0`, `PADBUF <- empty` (R217),
and an empty result (R209). -/
def State.startCbc (s : State) (c : Cfsm) : State :=
  { s with orch := { chain := s.cmd.ivBuf.take s.ctx.blockSize, blk := 0, padbuf := [], result := [], cfsm := c } }

/-- State `C_CHECK` (R217). -/
def State.checkOrchestrator (s : State) (i : Instr) : Answer :=
  match i with
  | .cbcEncrypt =>
    match cbcEncryptError s with
    | some e => .next (s.raise e)
    | none   => .next (s.startCbc .pad)
  | .cbcDecrypt =>
    match cbcDecryptError s with
    | some e => .next (s.raise e)
    | none   => .next (s.startCbc (if s.cmd.din.length > 0 then .crypt else .unpad))
  | .pad =>
    match padError s with
    | some e => .next (s.raise e)
    | none   => .next (s.toCfsm .pad)
  | .unpad =>
    match unpadError s with
    | some e => .next (s.raise e)
    | none   => .next { s with orch := { s.orch with padbuf := s.cmd.din, cfsm := .unpad } }
  | _ => .fault .noTransition

/-- State `C_PAD` (R217): `PADBUF <- encode(DIN)`. -/
def State.padOrchestrator (s : State) (i : Instr) : Answer :=
  match i with
  | .cbcEncrypt =>
    let p := padEncode s.binding.padMode s.cmd.din s.ctx.blockSize
    .next { s with orch := { s.orch with padbuf := p, cfsm := if p.length > 0 then .xorIn else .done } }
  | .pad =>
    let p := padEncode s.binding.padMode s.cmd.din s.binding.padSize
    .next { s with orch := { s.orch with padbuf := p, result := p, cfsm := .done } }
  | _ => .fault .noTransition

/-- State `C_XOR_IN` (R217, encrypt only): the block of `PADBUF` at `BLK` combined with the chain value. The
wire `x` is the datapath's input block. -/
def State.xorInOrchestrator (s : State) (i : Instr) : Answer :=
  match i with
  | .cbcEncrypt =>
    let bs := s.ctx.blockSize
    if s.orch.blk + bs ≤ s.orch.padbuf.length then
      .next { s.toCfsm .crypt with dp := { s.dp with
        blkIn := xorBlock (slice s.orch.padbuf s.orch.blk (s.orch.blk + bs)) (s.chainBlock bs) } }
    else .fault .offsetBeyondBuffer
  | _ => .fault .noTransition

/-- State `C_CRYPT` (R217): start the block state machine; `CFSM` waits here for its `DONE`. -/
def State.cryptOrchestrator (s : State) (i : Instr) : Answer :=
  match i with
  | .cbcEncrypt => .next (s.startBlock .enc s.dp.blkIn)
  | .cbcDecrypt =>
    let bs := s.ctx.blockSize
    if s.orch.blk + bs ≤ s.cmd.din.length then
      .next (s.startBlock .dec (slice s.cmd.din s.orch.blk (s.orch.blk + bs)))
    else .fault .offsetBeyondBuffer
  | _ => .fault .noTransition

/-- State `C_XOR_OUT` (R217, decrypt only): `PADBUF <- PADBUF ++ XorBlock(out, CHAIN)`. -/
def State.xorOutOrchestrator (s : State) (i : Instr) : Answer :=
  match i with
  | .cbcDecrypt =>
    .next { s with orch := { s.orch with
      padbuf := s.orch.padbuf ++ xorBlock s.dp.out (s.chainBlock s.ctx.blockSize), cfsm := .next } }
  | _ => .fault .noTransition

/-- State `C_NEXT` (R217): the result and the chain value, `BLK <- BLK + bs`, and the loop's test (R218). -/
def State.nextOrchestrator (s : State) (i : Instr) : Answer :=
  let bs := s.ctx.blockSize
  match i with
  | .cbcEncrypt =>
    .next { s with orch := { s.orch with
      result := s.orch.result ++ s.dp.out, chain := s.dp.out, blk := s.orch.blk + bs,
      cfsm := if s.orch.blk + bs < s.orch.padbuf.length then .xorIn else .done } }
  | .cbcDecrypt =>
    if s.orch.blk + bs ≤ s.cmd.din.length then
      .next { s with orch := { s.orch with
        chain := slice s.cmd.din s.orch.blk (s.orch.blk + bs), blk := s.orch.blk + bs,
        cfsm := if s.orch.blk + bs < s.cmd.din.length then .crypt else .unpad } }
    else .fault .offsetBeyondBuffer
  | _ => .fault .noTransition

/-- State `C_UNPAD` (R217): `decode(PADBUF)`; an error ends the command here. -/
def State.unpadOrchestrator (s : State) (i : Instr) : Answer :=
  match i with
  | .cbcDecrypt =>
    match padDecode s.binding.padMode s.orch.padbuf s.ctx.blockSize with
    | .ok v    => .next { s with orch := { s.orch with result := v, cfsm := .done } }
    | .error e => .next (s.releaseCbc.raise e)
  | .unpad =>
    match padDecode s.binding.padMode s.orch.padbuf s.binding.padSize with
    | .ok v    => .next { s with orch := { s.orch with result := v, cfsm := .done } }
    | .error e => .next (s.releasePadding.raise e)
  | _ => .fault .noTransition

/-- State `C_DONE` (R217): `DOUT <- result`, `STATUS <- OK`, back to idle. -/
def State.doneOrchestrator (s : State) (i : Instr) : Answer :=
  match i with
  | .cbcEncrypt => .next (s.releaseCbc.respond s.orch.result)
  | .cbcDecrypt => .next (s.releaseCbc.respond s.orch.result)
  | .pad        => .next (s.releasePadding.respond s.orch.result)
  | .unpad      => .next (s.releasePadding.respond s.orch.result)
  | _           => .fault .noTransition

/-- One step of `CFSM` (R217). -/
def State.stepOrchestrator (s : State) : Answer :=
  match s.command with
  | none   => .fault .noTransition
  | some i =>
    match s.orch.cfsm with
    | .idle   => .next s
    | .check  => s.checkOrchestrator i
    | .pad    => s.padOrchestrator i
    | .xorIn  => s.xorInOrchestrator i
    | .crypt  => s.cryptOrchestrator i
    | .xorOut => s.xorOutOrchestrator i
    | .next   => s.nextOrchestrator i
    | .unpad  => s.unpadOrchestrator i
    | .done   => s.doneOrchestrator i

/-! ## A step of the whole machine -/

/-- One step of a running command: the block datapath while it is not idle (the orchestrator waits for it),
else the expander, else the orchestrator. -/
def State.microStep (s : State) : Answer :=
  if s.dp.fsm ≠ .idle then s.stepBlock
  else if s.kx.kfsm ≠ .idle then s.stepExpander
  else s.stepOrchestrator

/-- `n` steps of a running command, none where nothing runs any more. -/
def State.microRun : Nat → State → Answer
  | 0,     s => .next s
  | n + 1, s =>
    if s.busy then
      match s.microStep with
      | .next s'   => State.microRun n s'
      | .fault f   => .fault f
      | .refused r => .refused r
    else .next s

/-- Starting a command on the state machines (R173, R176, R217): the constructors in `K_CHECK`, the CBC and
padding commands in `C_CHECK`, the block commands in `LOAD` once their checks pass. -/
def State.begin (s : State) (i : Instr) : State :=
  match i with
  | .engineEncrypt =>
    match blockError s with
    | some e => s.raise e
    | none   => s.startBlock .enc s.cmd.din
  | .engineDecrypt =>
    match blockError s with
    | some e => s.raise e
    | none   => s.startBlock .dec s.cmd.din
  | .engineNew | .cbcNewZ | .cbcNewP => { s with kx := { s.kx with kfsm := .check } }
  | .cbcEncrypt | .cbcDecrypt | .pad | .unpad => s.toCfsm .check
  | _ => s

/-- What the machine does where the host makes no move: a running command goes on, an idle machine holds
its context (R256). -/
def State.noMove (s : State) : Answer := if s.busy then s.microStep else .next s

/-- The host presents command `c`: its word is decoded (R84), and either the command is executed whole (R8)
or its state machines are started (R165). A reserved word is refused (R78). -/
def State.present (s : State) (stepped : Bool) (c : Command) (rest : List HostMove) : Answer :=
  match decodeCmd8 c.word with
  | .error r => .refused (.reservedCommand r)
  | .ok i    => if stepped then .next ((s.accept c rest).begin i) else exec i (s.accept c rest)

/-- One step: the host's next move where it can be made. While a command runs the host has no move but to
wait or to reset (R175, R261, R271), so a command to present waits for its turn. -/
def State.advance (s : State) : Answer :=
  match s.host with
  | []                => s.noMove
  | .wait :: rest     => (s.moved rest).noMove
  | .reset :: rest    => .next (s.resetNow rest)
  | .issue c :: rest  => if s.busy then s.microStep else s.present false c rest
  | .start c :: rest  => if s.busy then s.microStep else s.present true c rest

/-! ## Placing an instruction where the next step runs it -/

/-- The host about to present the command word `w` with the operands last latched, the machine idle. -/
def State.withCommandWord (s : State) (w : BitVec 8) : State :=
  { s.machinesIdle with host := [.issue { s.cmd with word := w }] }

/-- The select signals spelling the micro-operation word `w`: `DIR`, the state of `FSM` that gives its `RSEL`,
the block size that gives its `SC` (R170). A word that is never produced (R83) cannot be placed: the state
stays as it is. -/
def State.withMicroOpWord (s : State) (w : BitVec 5) : State :=
  let f := splitUop5 w
  if f.wf then
    { s.machinesIdle with
      ctx  := { s.ctx with blockSize := if f.sc = 0 then 16 else if f.sc = 1 then 24 else 32 }
      dp   := { s.dp with
        dir := if f.dir = 0 then .enc else .dec
        fsm := if f.rsel = 0 then .load else if f.rsel = 1 then .round else .final }
      host := [] }
  else s

/-- The table's word placed as the machine's next instruction, in the format it is read in. -/
def State.withTableWord (s : State) (nbits w : Nat) : State :=
  match tableFormat nbits w with
  | some (.cmd8 v) => s.withCommandWord v
  | some (.uop5 v) => s.withMicroOpWord v
  | none           => s

end Sys2Proof.Machine
end

