-- ==== Sys2Proof/Machine/Step.lean ====
section
/-! DEFINITION. The step of the machine (spec/00_scope.md rule R10, with the host's moves held in the state),
and how the host of this model places one instruction. -/

namespace Sys2Proof.Machine

/-- One step (see `State.advance`). -/
def step (s : State) : Host.Outcome State Fault Refusal := s.advance

/-- `s` with the table's word `w` as the next instruction it runs (log entry 8). -/
def State.withFetchWord (s : State) (nbits w : Nat) : State := s.withTableWord nbits w

end Sys2Proof.Machine
end

