-- ==== Sys2Proof/Machine/Matrix.lean ====
section
/-! DEFINITION. The cipher as a state matrix (spec/43_encrypt.md rule R144, spec/44_decrypt.md rule R159), the
second form the spec gives of rules R137 to R139 and R152 to R154. The matrix of a block is the block's
bytes: entry `(row, col)` is byte `4*col + row` (R53). No instruction uses this file; statements compare
the datapath with it. -/

namespace Sys2Proof.Machine

/-- `st[row][col]`. -/
def entry (st : List Byte) (row col : Nat) : Byte := byteAt st (4 * col + row)

/-- The matrix of `b_c` columns with the given entries. -/
def matrix (bc : Nat) (f : Nat → Nat → Byte) : List Byte := (List.range (4 * bc)).map fun p => f (p % 4) (p / 4)

/-- `C = (0, s1, s2, s3)`: the encryption offsets by row (R144). -/
def rowShift (bc row : Nat) : Nat := shift bc .enc row

/-- `AddRoundKey` with the key row `k` (R144). -/
def addRoundKey (bc : Nat) (k : Nat → Word) (st : List Byte) : List Byte :=
  matrix bc fun row col => entry st row col ^^^ byte (k col) row

/-- `SubBytes` (R144). -/
def subBytes (bc : Nat) (st : List Byte) : List Byte := matrix bc fun row col => sbox (entry st row col)

/-- `ShiftRows`: row `k` rotated left by `s_k` columns (R144). -/
def shiftRows (bc : Nat) (st : List Byte) : List Byte :=
  matrix bc fun row col => entry st row ((col + rowShift bc row) % bc)

/-- Component `row` of a column. -/
def component (c : Byte × Byte × Byte × Byte) (row : Nat) : Byte :=
  match row with
  | 0 => c.1
  | 1 => c.2.1
  | 2 => c.2.2.1
  | _ => c.2.2.2

/-- `MixColumns`: each column replaced by its `MixColumn` (R144, R101). -/
def mixColumns (bc : Nat) (st : List Byte) : List Byte :=
  matrix bc fun row col => component (mixColumn (entry st 0 col) (entry st 1 col) (entry st 2 col) (entry st 3 col)) row

/-- `InvSubBytes` (R159). -/
def invSubBytes (bc : Nat) (st : List Byte) : List Byte := matrix bc fun row col => invSbox (entry st row col)

/-- `InvShiftRows`: `st[row][col] <- st[row][(col - C[row]) mod b_c]` (R159). -/
def invShiftRows (bc : Nat) (st : List Byte) : List Byte :=
  matrix bc fun row col => entry st row ((col + bc - rowShift bc row) % bc)

/-- `InvMixColumns` (R159, R101). -/
def invMixColumns (bc : Nat) (st : List Byte) : List Byte :=
  matrix bc fun row col =>
    component (invMixColumn (entry st 0 col) (entry st 1 col) (entry st 2 col) (entry st 3 col)) row

/-- The matrix after `AddRoundKey(0)` and `n` full rounds (R144). -/
def matrixRounds (bc : Nat) (key : Nat → Nat → Word) (blk : List Byte) : Nat → List Byte
  | 0     => addRoundKey bc (key 0) blk
  | n + 1 => addRoundKey bc (key (n + 1)) (mixColumns bc (shiftRows bc (subBytes bc (matrixRounds bc key blk n))))

/-- The textbook encryption of R144. -/
def matrixEncrypt (bc r : Nat) (key : Nat → Nat → Word) (blk : List Byte) : List Byte :=
  addRoundKey bc (key r) (shiftRows bc (subBytes bc (matrixRounds bc key blk (r - 1))))

/-- The matrix of the direct inverse cipher after `AddRoundKeyE(R)` and the rounds `R-1` down to `R-n` (R159). -/
def matrixInvRounds (bc r : Nat) (key : Nat → Nat → Word) (blk : List Byte) : Nat → List Byte
  | 0     => addRoundKey bc (key r) blk
  | n + 1 =>
    invMixColumns bc (addRoundKey bc (key (r - (n + 1)))
      (invSubBytes bc (invShiftRows bc (matrixInvRounds bc r key blk n))))

/-- The direct inverse cipher of R159, with the encryption round keys. -/
def matrixDecrypt (bc r : Nat) (key : Nat → Nat → Word) (blk : List Byte) : List Byte :=
  addRoundKey bc (key 0) (invSubBytes bc (invShiftRows bc (matrixInvRounds bc r key blk (r - 1))))

end Sys2Proof.Machine
end

