-- ==== Sys2Proof/Safety.lean ====
section
/-! DEFINITION. What the statements speak of: the invariant of the machine (spec/10_state.md rules R24, R26, R36,
R44, and what the state machines of R166, R176 and R217 keep), and the vocabulary of the rules in element
form. -/

namespace Sys2Proof.Machine

/-! ## Elements of the stores -/

/-- The value element `[r][j]` of a round-key store holds, if it holds one (R21, R24). -/
def elementAt (rows : List (List Word)) (r j : Nat) : Option Word := rows[r]?.bind fun row => row[j]?

/-- Every row `0 .. r` is there and holds exactly the columns `0 .. bc-1` (R24). -/
def storeShape (rows : List (List Word)) (r bc : Nat) : Prop :=
  rows.length = r + 1 ∧ ∀ row ∈ rows, row.length = bc

/-! ## The invariant -/

/-- R22, R44: the sizes are legal exactly when a construction has succeeded, and 0 before. -/
def Context.sizesOk (c : Context) : Prop :=
  (c.cfgValid = true → validSize c.blockSize = true ∧ validSize c.keyLen = true) ∧
  (c.cfgValid = false → c.blockSize = 0 ∧ c.keyLen = 0)

/-- R24 to R26: both stores hold rows `0 .. R` of `b_c` words, and `KD` is `KE` mirrored with its inner rows
inverse-mixed. -/
def Context.storesOk (c : Context) : Prop :=
  storeShape c.ke (rounds c.keyLen c.blockSize) (wordsOf c.blockSize) ∧
  c.kd = mixRows (rounds c.keyLen c.blockSize) c.ke.reverse

/-- R44: a bound orchestrator has a constructed engine of its own block size. -/
def State.bindingOk (s : State) : Prop :=
  s.binding.padSize ≠ 0 → s.ctx.cfgValid = true ∧ s.binding.padSize = s.ctx.blockSize

/-- Whether the expander is rebuilding the stores (R177). -/
def State.rebuilding (s : State) : Bool :=
  s.kx.kfsm == .expand || s.kx.kfsm == .invmix || s.kx.kfsm == .done

/-- R168: `RND` is the row in use, `1 .. R-1` in `ROUND` and `R` in `FINAL`. The output block is whole in
`DONE`. -/
def State.datapathOk (s : State) : Prop :=
  (s.dp.fsm ≠ .idle → s.ctx.cfgValid = true ∧ s.kx.kfsm = .idle ∧ (s.orch.cfsm = .idle ∨ s.orch.cfsm = .crypt)) ∧
  (s.dp.fsm = .round → 1 ≤ s.dp.rnd ∧ s.dp.rnd ≤ s.rounds - 1) ∧
  (s.dp.fsm = .final → s.dp.rnd = s.rounds) ∧
  (s.dp.fsm = .done → s.dp.out.length = s.ctx.blockSize)

/-- The command latched is one of the three constructors. -/
def State.constructing (s : State) : Prop :=
  s.command = some .engineNew ∨ s.command = some .cbcNewZ ∨ s.command = some .cbcNewP

/-- What the expander keeps in each of its states (R125, R176): the checks have passed after `K_CHECK`; while
batches are stored, `(RCP + 1) * k_c` words are in place, row by row, in both stores, mirrored; then the
stores are whole, and at last inverse-mixed. -/
def State.expanderOk (s : State) : Prop :=
  let bs := s.cmd.bsIn
  let klen := s.cmd.keyBuf.length
  let r := Machine.rounds klen bs
  (s.kx.kfsm ≠ .idle → s.orch.cfsm = .idle ∧ s.constructing) ∧
  (s.kx.kfsm ≠ .idle → s.kx.kfsm ≠ .check → validSize bs = true ∧ validSize klen = true) ∧
  (s.kx.kfsm = .expand →
    s.kx.widx = (s.kx.rcp + 1) * wordsOf klen ∧ s.kx.widx < scheduleLength klen bs ∧
    s.ctx.ke.length = r + 1 ∧
    (∀ i, i ≤ r → (s.ctx.ke.getD i []).length = min (wordsOf bs) (s.kx.widx - i * wordsOf bs)) ∧
    s.ctx.kd = s.ctx.ke.reverse) ∧
  (s.kx.kfsm = .invmix → storeShape s.ctx.ke r (wordsOf bs) ∧ s.ctx.kd = s.ctx.ke.reverse) ∧
  (s.kx.kfsm = .done → storeShape s.ctx.ke r (wordsOf bs) ∧ s.ctx.kd = mixRows r s.ctx.ke.reverse)

/-- Inside the block loop of an encryption: `BLK` at a whole block of `PADBUF` (R40, R218). -/
def State.encryptingOk (s : State) : Prop :=
  s.command = some .cbcEncrypt ∧ cbcEncryptError s = none ∧
  s.orch.padbuf.length % s.ctx.blockSize = 0 ∧ s.orch.blk % s.ctx.blockSize = 0 ∧ s.orch.blk < s.orch.padbuf.length

/-- Inside the block loop of a decryption: `BLK` at a whole block of `DIN` (R218). -/
def State.decryptingOk (s : State) : Prop :=
  s.command = some .cbcDecrypt ∧ cbcDecryptError s = none ∧
  s.orch.blk % s.ctx.blockSize = 0 ∧ s.orch.blk < s.cmd.din.length

/-- What the orchestrator keeps in each of its states (R217, R218). -/
def State.orchestratorOk (s : State) : Prop :=
  match s.orch.cfsm with
  | .idle   => True
  | .check  =>
    s.command = some .cbcEncrypt ∨ s.command = some .cbcDecrypt ∨ s.command = some .pad ∨ s.command = some .unpad
  | .pad    =>
    (s.command = some .cbcEncrypt ∧ cbcEncryptError s = none ∧ s.orch.blk = 0) ∨
    (s.command = some .pad ∧ padError s = none)
  | .xorIn  => s.encryptingOk
  | .crypt  => s.encryptingOk ∨ (s.decryptingOk ∧ s.orch.padbuf.length = s.orch.blk)
  | .xorOut =>
    s.decryptingOk ∧ s.orch.padbuf.length = s.orch.blk ∧ s.dp.out.length = s.ctx.blockSize
  | .next   =>
    (s.encryptingOk ∧ s.dp.out.length = s.ctx.blockSize) ∨
    (s.decryptingOk ∧ s.orch.padbuf.length = s.orch.blk + s.ctx.blockSize)
  | .unpad  =>
    (s.command = some .cbcDecrypt ∧ cbcDecryptError s = none ∧ s.orch.padbuf.length = s.cmd.din.length) ∨
    (s.command = some .unpad ∧ unpadError s = none ∧ s.orch.padbuf = s.cmd.din)
  | .done   =>
    (s.command = some .cbcEncrypt ∨ s.command = some .cbcDecrypt ∨ s.command = some .pad ∨ s.command = some .unpad) ∧
    s.isBound = true

/-- The invariant of the machine. It holds at reset and every step keeps it. -/
def State.Inv (s : State) : Prop :=
  s.ctx.sizesOk ∧ (s.ctx.cfgValid = true → s.rebuilding = false → s.ctx.storesOk) ∧ s.bindingOk ∧
  s.datapathOk ∧ s.expanderOk ∧ s.orchestratorOk

/-! ## The rules in element form -/

/-- `W` is the schedule of a key for a block size (R118, R119). -/
def isSchedule (key : List Byte) (bs : Nat) (w : List Word) : Prop :=
  let kc := wordsOf key.length
  w.length = scheduleLength key.length bs ∧
  (∀ i, i < kc → w.getD i 0 = be32 (byteAt key) i) ∧
  ∀ i, kc ≤ i → i < scheduleLength key.length bs →
    w.getD i 0 = w.getD (i - kc) 0 ^^^
      (if i % kc = 0 then subWord (rotWord (w.getD (i - 1) 0)) ^^^ ((rcon (i / kc - 1)).setWidth 32 <<< 24)
       else if kc = 8 ∧ i % kc = 4 then subWord (w.getD (i - 1) 0)
       else w.getD (i - 1) 0)

/-- `KE` and `KD` filled from a schedule (R122), every other element holding no value (R123). -/
def storesFrom (w : List Word) (r bc : Nat) (ke kd : List (List Word)) : Prop :=
  (∀ i j, i ≤ r → j < bc → elementAt ke i j = some (w.getD (i * bc + j) 0)) ∧
  (∀ i j, i ≤ r → j < bc → elementAt kd (r - i) j =
    some (if i = 0 ∨ i = r then w.getD (i * bc + j) 0 else invMixWord (w.getD (i * bc + j) 0))) ∧
  (∀ i j, ¬(i ≤ r ∧ j < bc) → elementAt ke i j = none ∧ elementAt kd i j = none)

/-- `T` at every round of a block operation, by the rule's own equations: loaded with key row 0, then one middle
round each (R137, R138 for `enc`; R152, R153 for `dec`). -/
def roundsFollow (dir : Dir) (bc r : Nat) (k : Nat → Nat → Word) (blk : List Byte) (t : Nat → Nat → Word) : Prop :=
  (∀ i, i < bc → t 0 i = be32 (byteAt blk) i ^^^ k 0 i) ∧
  ∀ n i, 1 ≤ n → n ≤ r - 1 → i < bc →
    t n i = roundTable dir 0 (byte (t (n - 1) i) 0)
      ^^^ roundTable dir 1 (byte (t (n - 1) ((i + shift bc dir 1) % bc)) 1)
      ^^^ roundTable dir 2 (byte (t (n - 1) ((i + shift bc dir 2) % bc)) 2)
      ^^^ roundTable dir 3 (byte (t (n - 1) ((i + shift bc dir 3) % bc)) 3)
      ^^^ k n i

/-- The output block of a final round over the words `t` with key row `k` (R139, R154). -/
def outputFollows (dir : Dir) (bc : Nat) (t k : Nat → Word) (out : List Byte) : Prop :=
  out.length = 4 * bc ∧
  ∀ i b, i < bc → b < 4 → out[4 * i + b]? =
    some (subByte dir (byte (t ((i + shift bc dir b) % bc)) b) ^^^ byte (k i) b)

/-- Block `n` of a message (R51). -/
def blockAt (msg : List Byte) (bs n : Nat) : List Byte := slice msg (n * bs) (n * bs + bs)

/-- The block before block `n` of a chained message, the IV before block 0 (R34). -/
def previousBlock (iv msg : List Byte) (bs n : Nat) : List Byte := if n = 0 then iv else blockAt msg bs (n - 1)

/-- Nothing but the response and the state machines' idling differs: what an error leaves (R236). -/
def State.failedWith (s t : State) (e : Err) : Prop :=
  t.ctx = s.ctx ∧ t.binding = s.binding ∧ t.resp = { status := .err e, dout := [] } ∧
  t.cmd = s.cmd ∧ t.host = s.host ∧ t.busy = false

/-- The context, the binding, the operands and the host's moves are unchanged: the frame of every data command
(R46, R65). -/
def State.sameSetup (s t : State) : Prop :=
  t.ctx = s.ctx ∧ t.binding = s.binding ∧ t.cmd = s.cmd ∧ t.host = s.host

/-- The six data commands (R60). -/
def dataCommands : List Instr := [.engineEncrypt, .engineDecrypt, .cbcEncrypt, .cbcDecrypt, .pad, .unpad]

/-- The micro-operations of one kind of step, with their direction and block words. -/
def initOps : List (Instr × Dir × Nat) :=
  [(.uopEncInit4, .enc, 4), (.uopEncInit6, .enc, 6), (.uopEncInit8, .enc, 8),
   (.uopDecInit4, .dec, 4), (.uopDecInit6, .dec, 6), (.uopDecInit8, .dec, 8)]

def midOps : List (Instr × Dir × Nat) :=
  [(.uopEncMid4, .enc, 4), (.uopEncMid6, .enc, 6), (.uopEncMid8, .enc, 8),
   (.uopDecMid4, .dec, 4), (.uopDecMid6, .dec, 6), (.uopDecMid8, .dec, 8)]

def finalOps : List (Instr × Dir × Nat) :=
  [(.uopEncFinal4, .enc, 4), (.uopEncFinal6, .enc, 6), (.uopEncFinal8, .enc, 8),
   (.uopDecFinal4, .dec, 4), (.uopDecFinal6, .dec, 6), (.uopDecFinal8, .dec, 8)]

end Sys2Proof.Machine
end

