-- ==== Sys2Proof/Certificates/Slice0/Obligations.lean ====
section
/-! DEFINITION. The statements for the provers. Each docstring names the rules of spec/ it formalises. -/

open Sys2Proof Sys2Proof.Machine

/-! ## Encoding -/

/-- R71, R83: decoding the word of an instruction gives the instruction back. -/
def Obligations.EncodeThenDecode : Prop :=
  ∀ i : Instr, i.wf = true → decode (encode i) = .ok i

/-- R84 with the map of R72: what each of the 256 words decodes to, and that exactly nine are commands. -/
def Obligations.CommandDecoderFollowsTheOpcodeMap : Prop :=
  (∀ w : BitVec 8,
    let zero := w.extractLsb' 5 3
    let padsel := w.extractLsb' 4 1
    let opc := w.extractLsb' 0 4
    (zero ≠ 0 → decodeCmd8 w = .error .zeroBits) ∧
    (zero = 0 → opc = 0x0 ∨ opc = 0x7 ∨ 0xA ≤ opc.toNat → decodeCmd8 w = .error .opc) ∧
    (zero = 0 → padsel = 1 → opc ∈ [0x1#4, 0x2#4, 0x3#4, 0x5#4, 0x6#4, 0x8#4, 0x9#4] →
      decodeCmd8 w = .error .padsel) ∧
    (zero = 0 → padsel = 0 →
      (opc = 0x1 → decodeCmd8 w = .ok .engineNew) ∧
      (opc = 0x2 → decodeCmd8 w = .ok .engineEncrypt) ∧
      (opc = 0x3 → decodeCmd8 w = .ok .engineDecrypt) ∧
      (opc = 0x4 → decodeCmd8 w = .ok .cbcNewZ) ∧
      (opc = 0x5 → decodeCmd8 w = .ok .cbcEncrypt) ∧
      (opc = 0x6 → decodeCmd8 w = .ok .cbcDecrypt) ∧
      (opc = 0x8 → decodeCmd8 w = .ok .pad) ∧
      (opc = 0x9 → decodeCmd8 w = .ok .unpad)) ∧
    (zero = 0 → padsel = 1 → opc = 0x4 → decodeCmd8 w = .ok .cbcNewP)) ∧
  ((List.range 256).filter fun n => (decodeCmd8 (BitVec.ofNat 8 n)).isOk).length = 9

/-- R83: the `UOP5` words, field by field, and that no command word the host can issue spells a
micro-operation. -/
def Obligations.MicroOpWordsAndTheHost : Prop :=
  (∀ p ∈ initOps ++ midOps ++ finalOps, ∃ w : BitVec 5,
    encode p.1 = .uop5 w ∧ decodeUop5 w = .ok p.1 ∧
    w.extractLsb' 4 1 = dirBit p.2.1 ∧ w.extractLsb' 0 2 = selectSc p.2.2) ∧
  (∀ p ∈ initOps, ∀ w, encode p.1 = .uop5 w → w.extractLsb' 2 2 = 0#2) ∧
  (∀ p ∈ midOps, ∀ w, encode p.1 = .uop5 w → w.extractLsb' 2 2 = 1#2) ∧
  (∀ p ∈ finalOps, ∀ w, encode p.1 = .uop5 w → w.extractLsb' 2 2 = 2#2) ∧
  (∀ w : BitVec 5, (∃ i, decodeUop5 w = .ok i) ↔ w.extractLsb' 2 2 ≠ 3#2 ∧ w.extractLsb' 0 2 ≠ 3#2) ∧
  ∀ (w : BitVec 8) (i : Instr), decodeCmd8 w = .ok i → i.isCommand = true

/-- R72, R83: a word of each family written out bit by bit decodes to the instruction it stands for. -/
def Obligations.WrittenWordsDecode : Prop :=
  decodeCmd8 0b00000001#8 = .ok .engineNew ∧ decodeCmd8 0b00000011#8 = .ok .engineDecrypt ∧
  decodeCmd8 0b00010100#8 = .ok .cbcNewP ∧ decodeCmd8 0b00000110#8 = .ok .cbcDecrypt ∧
  decodeCmd8 0b00001001#8 = .ok .unpad ∧ decodeUop5 0b00101#5 = .ok .uopEncMid6 ∧
  decodeUop5 0b11010#5 = .ok .uopDecFinal8

/-! ## The step -/

/-- R8, R38, R59, R84 (log entry 3): between commands the next command the host issues is latched, decoded and
run whole; one that the host starts on the state machines is latched, decoded and started. -/
def Obligations.StepRunsThePresentedCommand : Prop :=
  ∀ (s : State) (c : Command) (rest : List HostMove) (i : Instr),
    s.busy = false → decodeCmd8 c.word = .ok i →
    (s.host = .issue c :: rest → step s = exec i { s with cmd := c, host := rest }) ∧
    (s.host = .start c :: rest → step s = .next (State.begin { s with cmd := c, host := rest } i))

/-- R166, R170 (log entry 3): while the block datapath is in `LOAD`, `ROUND` or `FINAL`, a step in which the host
makes no move runs the micro-operation that the select signals spell. -/
def Obligations.StepRunsTheSelectedMicroOp : Prop :=
  ∀ (s : State) (i : Instr),
    s.dp.fsm = .load ∨ s.dp.fsm = .round ∨ s.dp.fsm = .final → decodeUop5 s.uopWord = .ok i →
    (s.host = [] → step s = exec i s) ∧
    (∀ rest, s.host = .wait :: rest → step s = exec i { s with host := rest }) ∧
    (∀ c rest, s.host = .issue c :: rest ∨ s.host = .start c :: rest → step s = exec i s)

/-- R78, R242: a reserved command word is refused by name; there is no next state, so no state changes. -/
def Obligations.ReservedWordIsRefused : Prop :=
  ∀ (s : State) (c : Command) (rest : List HostMove), s.busy = false →
    s.host = .issue c :: rest ∨ s.host = .start c :: rest →
    (c.word.extractLsb' 5 3 ≠ 0 ∨ c.word.extractLsb' 0 4 ∈ [0x0#4, 0x7#4, 0xA#4, 0xB#4, 0xC#4, 0xD#4, 0xE#4, 0xF#4] ∨
      (c.word.extractLsb' 4 1 = 1 ∧ c.word.extractLsb' 0 4 ≠ 0x4)) →
    ∃ why, step s = .refused (.reservedCommand why)

/-- R256 (log entry 3 for the host's moves): between commands, with no move of the host, the hardware is idle and
holds everything it has. -/
def Obligations.IdleMachineHoldsItsState : Prop :=
  ∀ s : State, s.busy = false →
    (s.host = [] → step s = .next s) ∧
    (∀ rest, s.host = .wait :: rest → step s = .next { s with host := rest })

/-- R260, R261, R45: a reset, at any time, running command or not, gives the reset state: no engine, no binding,
status `OK`, no data, machines idle, and every array element holding no value. The host's operands and its
further moves are the host's own (log entry 3). -/
def Obligations.ResetAbandonsAnything : Prop :=
  ∀ (s : State) (rest : List HostMove), s.host = .reset :: rest →
    ∃ t, step s = .next t ∧
      t.ctx.cfgValid = false ∧ t.ctx.blockSize = 0 ∧ t.ctx.keyLen = 0 ∧ t.binding.padSize = 0 ∧
      t.resp = { status := .ok, dout := [] } ∧ t.busy = false ∧
      (∀ r j, elementAt t.ctx.ke r j = none ∧ elementAt t.ctx.kd r j = none) ∧
      t.dp.t = [] ∧ t.dp.a = [] ∧ t.kx.tk = [] ∧ t.orch.chain = [] ∧ t.cmd = s.cmd ∧ t.host = rest

/-- R175, R271, R272, R38 (log entry 3 for the host's moves): while a command runs the host's next command is not
taken, and the operands latched do not change. -/
def Obligations.RunningCommandKeepsItsOperands : Prop :=
  ∀ s t : State, s.busy = true → step s = .next t →
    t.cmd = s.cmd ∧
    (∀ c rest, s.host = .issue c :: rest ∨ s.host = .start c :: rest → t.host = s.host) ∧
    (s.host = [] → t.host = []) ∧
    (∀ rest, s.host = .wait :: rest ∨ s.host = .reset :: rest → t.host = rest)

/-- R45, R261: reset is the only way back to `CFG_VALID = 0`. -/
def Obligations.OnlyResetUnconstructs : Prop :=
  ∀ s t : State, step s = .next t → s.ctx.cfgValid = true → t.ctx.cfgValid = false →
    ∃ rest, s.host = .reset :: rest

/-- R27, R177: the context changes in a step only by a reset, by a constructor, or while the expander is running
one. -/
def Obligations.OnlyConstructorsWriteTheContext : Prop :=
  ∀ s t : State, step s = .next t → t.ctx ≠ s.ctx →
    (∃ rest, s.host = .reset :: rest) ∨ s.kx.kfsm ≠ .idle ∨
    ∃ c rest, s.host = .issue c :: rest ∧ s.busy = false ∧
      (decodeCmd8 c.word = .ok .engineNew ∨ decodeCmd8 c.word = .ok .cbcNewZ ∨ decodeCmd8 c.word = .ok .cbcNewP) ∧
      t.resp.status = .ok

/-- R45, R260: the reset state. That the elements holding no value are the ones not listed is the model's form
(log entries 1 and 7). -/
def Obligations.ResetStateAsTheSpecGivesIt : Prop :=
  State.reset.ctx.cfgValid = false ∧ State.reset.ctx.blockSize = 0 ∧ State.reset.ctx.keyLen = 0 ∧
  State.reset.binding.padSize = 0 ∧ State.reset.resp.status = .ok ∧ State.reset.resp.dout = [] ∧
  State.reset.dp.fsm = .idle ∧ State.reset.kx.kfsm = .idle ∧ State.reset.orch.cfsm = .idle ∧
  (∀ r j, elementAt State.reset.ctx.ke r j = none ∧ elementAt State.reset.ctx.kd r j = none) ∧
  State.reset.dp.t = [] ∧ State.reset.dp.a = [] ∧ State.reset.kx.tk = [] ∧ State.reset.orch.chain = []

/-- R262: the first command after reset. Each data command gives `InvalidBlockSize`; the constructors work on
legal sizes. -/
def Obligations.FirstCommandsAfterReset : Prop :=
  ∀ (e : Nat) (c : Command) (rest : List HostMove),
    let s := State.resetAt e c rest
    (∀ i ∈ dataCommands, ∃ t, exec i s = .next t ∧ s.failedWith t .invalidBlockSize) ∧
    (validSize c.bsIn = true → validSize c.keyBuf.length = true →
      ∀ i ∈ [Instr.engineNew, .cbcNewZ, .cbcNewP], ∃ t, exec i s = .next t ∧
        t.resp = { status := .ok, dout := [] } ∧ t.ctx.cfgValid = true)

/-! ## Construction -/

/-- R116, R124, R232: block size first, then key length; an error leaves the earlier context and binding. -/
def Obligations.ConstructionChecksInOrder : Prop :=
  ∀ (s : State), ∀ i ∈ [Instr.engineNew, .cbcNewZ, .cbcNewP],
    (s.cmd.bsIn ≠ 16 → s.cmd.bsIn ≠ 24 → s.cmd.bsIn ≠ 32 →
      ∃ t, exec i s = .next t ∧ s.failedWith t .invalidBlockSize ∧ t.dp = { s.dp with fsm := .idle }) ∧
    (s.cmd.bsIn = 16 ∨ s.cmd.bsIn = 24 ∨ s.cmd.bsIn = 32 →
      s.cmd.keyBuf.length ≠ 16 → s.cmd.keyBuf.length ≠ 24 → s.cmd.keyBuf.length ≠ 32 →
      ∃ t, exec i s = .next t ∧ s.failedWith t .invalidKeySize ∧ t.dp = { s.dp with fsm := .idle })

/-- R117, R118, R120, R126: the round count of the nine pairs, `max(k_c, b_c) + 6`; `N` between 44 and 120; no step
of the expansion needs a round constant past `RCON[28]`. -/
def Obligations.RoundCountAndScheduleSizes : Prop :=
  rounds 16 16 = 10 ∧ rounds 16 24 = 12 ∧ rounds 16 32 = 14 ∧
  rounds 24 16 = 12 ∧ rounds 24 24 = 12 ∧ rounds 24 32 = 14 ∧
  rounds 32 16 = 14 ∧ rounds 32 24 = 14 ∧ rounds 32 32 = 14 ∧
  ∀ klen bs : Nat, validSize klen = true → validSize bs = true →
    rounds klen bs = max (klen / 4) (bs / 4) + 6 ∧
    44 ≤ scheduleLength klen bs ∧ scheduleLength klen bs ≤ 120 ∧
    ∀ i, i < scheduleLength klen bs → i / (klen / 4) - 1 ≤ 28

/-- R115, R118, R119, R122, R123: `ENGINE_NEW` on legal sizes ends with `(OK, empty)`, the context built from the
schedule of the key, the orchestrator unbound, `T`, `A` and `TK` holding no value, and nothing else written. -/
def Obligations.EngineNewBuildsTheContext : Prop :=
  ∀ s : State, validSize s.cmd.bsIn = true → validSize s.cmd.keyBuf.length = true →
    ∃ t w, exec .engineNew s = .next t ∧
      isSchedule s.cmd.keyBuf s.cmd.bsIn w ∧
      storesFrom w (rounds s.cmd.keyBuf.length s.cmd.bsIn) (s.cmd.bsIn / 4) t.ctx.ke t.ctx.kd ∧
      t.ctx.cfgValid = true ∧ t.ctx.blockSize = s.cmd.bsIn ∧ t.ctx.keyLen = s.cmd.keyBuf.length ∧
      t.binding = { padMode := s.binding.padMode, padSize := 0 } ∧
      t.resp = { status := .ok, dout := [] } ∧
      t.dp = { s.dp with t := [], a := [], fsm := .idle } ∧ t.kx.tk = [] ∧ t.kx.kfsm = .idle ∧
      t.orch = { s.orch with cfsm := .idle } ∧ t.cmd = s.cmd ∧ t.host = s.host

/-- R205, R206: `CBC_NEW` builds the same context and binds the orchestrator with its discipline and block size. -/
def Obligations.CbcNewBuildsAndBinds : Prop :=
  ∀ s : State, validSize s.cmd.bsIn = true → validSize s.cmd.keyBuf.length = true →
    ∀ p ∈ [(Instr.cbcNewZ, PadMode.zero), (Instr.cbcNewP, PadMode.pkcs7)],
    ∃ t w, exec p.1 s = .next t ∧
      isSchedule s.cmd.keyBuf s.cmd.bsIn w ∧
      storesFrom w (rounds s.cmd.keyBuf.length s.cmd.bsIn) (s.cmd.bsIn / 4) t.ctx.ke t.ctx.kd ∧
      t.ctx.cfgValid = true ∧ t.ctx.blockSize = s.cmd.bsIn ∧ t.ctx.keyLen = s.cmd.keyBuf.length ∧
      t.binding = { padMode := p.2, padSize := s.cmd.bsIn } ∧
      t.resp = { status := .ok, dout := [] } ∧
      t.dp = { s.dp with t := [], a := [], fsm := .idle } ∧ t.kx.tk = [] ∧ t.kx.kfsm = .idle ∧
      t.orch = { s.orch with cfsm := .idle } ∧ t.cmd = s.cmd ∧ t.host = s.host

/-- R128, R265: the context a construction builds is a function of the key and the block size alone, whichever
constructor and whatever state it starts from. -/
def Obligations.KeyScheduleIsDeterministic : Prop :=
  ∀ (s s' t t' : State), s.cmd.keyBuf = s'.cmd.keyBuf → s.cmd.bsIn = s'.cmd.bsIn →
    validSize s.cmd.bsIn = true → validSize s.cmd.keyBuf.length = true →
    ∀ i ∈ [Instr.engineNew, .cbcNewZ, .cbcNewP], ∀ j ∈ [Instr.engineNew, .cbcNewZ, .cbcNewP],
      exec i s = .next t → exec j s' = .next t' → t.ctx = t'.ctx

/-- R24, R26: between commands with an engine constructed, exactly the elements of rows `0 .. R` and columns
`0 .. b_c-1` hold values, the outer rows of `KD` mirror `KE`, and the inner ones are its inverse-mixed words. -/
def Obligations.DecryptionStoreMirrorsTheEncryptionStore : Prop :=
  ∀ s : State, s.Inv → s.ctx.cfgValid = true → s.rebuilding = false →
    (∀ r j, (elementAt s.ctx.ke r j).isSome = true ↔ r ≤ s.rounds ∧ j < s.bc) ∧
    (∀ r j, (elementAt s.ctx.kd r j).isSome = true ↔ r ≤ s.rounds ∧ j < s.bc) ∧
    ∀ j, j < s.bc →
      s.kdAt 0 j = s.keAt s.rounds j ∧ s.kdAt s.rounds j = s.keAt 0 j ∧
      ∀ r, 1 ≤ r → r ≤ s.rounds - 1 → s.kdAt r j = invMixWord (s.keAt (s.rounds - r) j)

/-! ## Blocks -/

/-- R136, R151, R142, R156: a block command with no engine constructed, or with data that is not one block, gives
`InvalidBlockSize` and starts nothing (R235: no work before a check). -/
def Obligations.BlockCommandsCheckFirst : Prop :=
  ∀ (s : State), ∀ i ∈ [Instr.engineEncrypt, .engineDecrypt],
    s.ctx.cfgValid = false ∨ s.cmd.din.length ≠ s.ctx.blockSize →
    ∃ t, exec i s = .next t ∧ s.failedWith t .invalidBlockSize ∧ t.dp = { s.dp with fsm := .idle } ∧
      t.orch = { s.orch with cfsm := .idle }

/-- R137 to R139, R141: `ENGINE_ENCRYPT` of one block ends with `OK` and the block that the rounds of the rule give,
under `KE`; the context, the binding, the operands, the expander and the orchestrator stay, and the datapath's
words hold no value. -/
def Obligations.EngineEncryptComputesTheRounds : Prop :=
  ∀ s : State, s.Inv → s.ctx.cfgValid = true → s.cmd.din.length = s.ctx.blockSize →
    ∃ t x, exec .engineEncrypt s = .next t ∧
      roundsFollow .enc s.bc s.rounds s.keAt s.cmd.din x ∧
      outputFollows .enc s.bc (x (s.rounds - 1)) (s.keAt s.rounds) t.resp.dout ∧
      t.resp.status = .ok ∧ t.resp.dout.length = s.ctx.blockSize ∧ s.sameSetup t ∧
      t.kx = { s.kx with kfsm := .idle } ∧ t.orch = { s.orch with cfsm := .idle } ∧
      t.dp.t = [] ∧ t.dp.a = [] ∧ t.dp.fsm = .idle

/-- R152 to R155: `ENGINE_DECRYPT`, the same under `KD`, `T5..T8`, `Si` and the decryption offsets. -/
def Obligations.EngineDecryptComputesTheRounds : Prop :=
  ∀ s : State, s.Inv → s.ctx.cfgValid = true → s.cmd.din.length = s.ctx.blockSize →
    ∃ t x, exec .engineDecrypt s = .next t ∧
      roundsFollow .dec s.bc s.rounds s.kdAt s.cmd.din x ∧
      outputFollows .dec s.bc (x (s.rounds - 1)) (s.kdAt s.rounds) t.resp.dout ∧
      t.resp.status = .ok ∧ t.resp.dout.length = s.ctx.blockSize ∧ s.sameSetup t ∧
      t.kx = { s.kx with kfsm := .idle } ∧ t.orch = { s.orch with cfsm := .idle } ∧
      t.dp.t = [] ∧ t.dp.a = [] ∧ t.dp.fsm = .idle

/-- R144: the table form of encryption computes the textbook state-matrix cipher. -/
def Obligations.EncryptionIsTheStateMatrixCipher : Prop :=
  ∀ bc ∈ [4, 6, 8], ∀ (r : Nat) (key : Nat → Nat → Word) (blk : List Byte), blk.length = 4 * bc →
    cipherBlock .enc bc r key (byteAt blk) = matrixEncrypt bc r key blk

/-- R159: with `KD` the mirrored, inverse-mixed `KE`, the table form of decryption computes the direct inverse
cipher under `KE`. -/
def Obligations.DecryptionIsTheDirectInverseCipher : Prop :=
  ∀ bc ∈ [4, 6, 8], ∀ (r : Nat) (ke kd : Nat → Nat → Word) (blk : List Byte), 1 ≤ r → blk.length = 4 * bc →
    (∀ j, j < bc → kd 0 j = ke r j ∧ kd r j = ke 0 j) →
    (∀ n j, 1 ≤ n → n ≤ r - 1 → j < bc → kd n j = invMixWord (ke (r - n) j)) →
    cipherBlock .dec bc r kd (byteAt blk) = matrixDecrypt bc r ke blk

/-- R158: for a fixed context and every block `p`, `ENGINE_DECRYPT(ENGINE_ENCRYPT(p)) = p` and
`ENGINE_ENCRYPT(ENGINE_DECRYPT(p)) = p`. -/
def Obligations.DecryptInvertsEncrypt : Prop :=
  ∀ (s : State) (p : List Byte), s.Inv → s.ctx.cfgValid = true → s.rebuilding = false →
    p.length = s.ctx.blockSize →
    (∃ t u, exec .engineEncrypt { s with cmd := { s.cmd with din := p } } = .next t ∧ t.resp.status = .ok ∧
      exec .engineDecrypt { t with cmd := { t.cmd with din := t.resp.dout } } = .next u ∧
      u.resp = { status := .ok, dout := p }) ∧
    (∃ t u, exec .engineDecrypt { s with cmd := { s.cmd with din := p } } = .next t ∧ t.resp.status = .ok ∧
      exec .engineEncrypt { t with cmd := { t.cmd with din := t.resp.dout } } = .next u ∧
      u.resp = { status := .ok, dout := p })

/-! ## Micro-operations -/

/-- R137, R152, R166, R167: the six `INIT` steps load `T` with the input block and key row 0, leave `RND = 1` and
`ROUND`, and write nothing else. -/
def Obligations.InitStepLoadsAndAddsRowZero : Prop :=
  ∀ (s : State), ∀ p ∈ initOps, ∃ t, exec p.1 s = .next t ∧
    (∀ i, i < p.2.2 → t.dp.t[i]? = some (be32 s.blkInAt i ^^^ s.roundKey p.2.1 0 i)) ∧
    (∀ i, p.2.2 ≤ i → t.dp.t[i]? = s.dp.t[i]?) ∧
    t.dp.rnd = 1 ∧ t.dp.fsm = .round ∧ t.dp.a = s.dp.a ∧ t.dp.dir = s.dp.dir ∧ t.dp.blkIn = s.dp.blkIn ∧
    t.dp.out = s.dp.out ∧ t = { s with dp := t.dp }

/-- R138, R153, R166 to R168: the six `MID` steps compute every word of `A` from the old `T` with key row `RND`, copy
`A` to `T`, and go on in `ROUND` with the next row, or to `FINAL` after row `R-1`. -/
def Obligations.MidStepRecombinesTheOldWords : Prop :=
  ∀ (s : State), ∀ p ∈ midOps, ∃ t, exec p.1 s = .next t ∧
    (∀ i, i < p.2.2 → t.dp.t[i]? = t.dp.a[i]? ∧ t.dp.a[i]? = some (
      roundTable p.2.1 0 (byte (s.tAt i) 0)
        ^^^ roundTable p.2.1 1 (byte (s.tAt ((i + shift p.2.2 p.2.1 1) % p.2.2)) 1)
        ^^^ roundTable p.2.1 2 (byte (s.tAt ((i + shift p.2.2 p.2.1 2) % p.2.2)) 2)
        ^^^ roundTable p.2.1 3 (byte (s.tAt ((i + shift p.2.2 p.2.1 3) % p.2.2)) 3)
        ^^^ s.roundKey p.2.1 s.dp.rnd i)) ∧
    (∀ i, p.2.2 ≤ i → t.dp.t[i]? = s.dp.t[i]? ∧ t.dp.a[i]? = s.dp.a[i]?) ∧
    (s.dp.rnd < s.rounds - 1 → t.dp.rnd = s.dp.rnd + 1 ∧ t.dp.fsm = .round) ∧
    (s.dp.rnd = s.rounds - 1 → t.dp.rnd = s.rounds ∧ t.dp.fsm = .final) ∧
    t.dp.dir = s.dp.dir ∧ t.dp.blkIn = s.dp.blkIn ∧ t.dp.out = s.dp.out ∧ t = { s with dp := t.dp }

/-- R139, R154, R166, R167: the six `FINAL` steps produce the output block from `T` and key row `R`, go to `DONE`, and
write nothing else. -/
def Obligations.FinalStepProducesTheBlock : Prop :=
  ∀ (s : State), ∀ p ∈ finalOps, ∃ t, exec p.1 s = .next t ∧
    outputFollows p.2.1 p.2.2 s.tAt (s.roundKey p.2.1 s.rounds) t.dp.out ∧
    t.dp.fsm = .done ∧ t.dp = { s.dp with out := t.dp.out, fsm := t.dp.fsm } ∧ t = { s with dp := t.dp }

/-- R165, R166, R169: on a block command whose checks pass, the block state machine takes exactly `R + 1` working
steps and its `DONE`, and gives exactly the state the command gives. -/
def Obligations.BlockMachineTakesItsRounds : Prop :=
  ∀ (s : State), s.Inv → s.busy = false → blockError s = none →
    ∀ i ∈ [Instr.engineEncrypt, .engineDecrypt],
      (s.begin i).microRun (s.rounds + 2) = exec i s ∧
      ∀ n, n ≤ s.rounds + 1 → ∃ u, (s.begin i).microRun n = .next u ∧ u.busy = true

/-! ## Padding -/

/-- R187, R188: the zero encoding adds the least number of zero bytes that reaches a multiple of the block size; none
to aligned input, the empty input included. -/
def Obligations.ZeroEncodeReachesTheNextMultiple : Prop :=
  ∀ (x : List Byte) (bs : Nat), 1 ≤ bs →
    zeroEncode x bs = x ++ List.replicate (bs - ((x.length + bs - 1) % bs + 1)) 0 ∧
    bs - ((x.length + bs - 1) % bs + 1) = (bs - x.length % bs) % bs ∧
    (zeroEncode x bs).length % bs = 0 ∧ (zeroEncode x bs).length < x.length + bs ∧
    (x.length % bs = 0 → zeroEncode x bs = x)

/-- R189: the zero decode keeps everything up to the last nonzero byte among the last `bs - 1`, or up to the first
byte of the last block when all of those are zero. -/
def Obligations.ZeroDecodeStopsInTheLastBlock : Prop :=
  ∀ (x : List Byte) (bs : Nat), 1 ≤ bs → x.length % bs = 0 →
    (x = [] → zeroDecode x bs = []) ∧
    (x ≠ [] → ∃ k, zeroDecode x bs = x.take k ∧ x.length - bs + 1 ≤ k ∧ k ≤ x.length ∧
      (∀ i, k ≤ i → i < x.length → x[i]? = some 0) ∧
      (k = x.length - bs + 1 ∨ ∃ b, x[k - 1]? = some b ∧ b ≠ 0))

/-- R191 to R193: the PKCS#7 encoding, and its lax decoding: the last byte is the count, a count beyond the length or
no data at all is `InvalidDataSize`, and nothing else is checked. -/
def Obligations.PkcsEncodingAndLaxDecoding : Prop :=
  (∀ (x : List Byte) (bs : Nat), validSize bs = true →
    pkcs7Encode x bs = x ++ List.replicate (bs - x.length % bs) (BitVec.ofNat 8 (bs - x.length % bs)) ∧
    (pkcs7Encode x bs).length = (x.length / bs + 1) * bs) ∧
  pkcs7Decode [] = .error .invalidDataSize ∧
  ∀ (x : List Byte) (n : Byte),
    (x.length + 1 < n.toNat → pkcs7Decode (x ++ [n]) = .error .invalidDataSize) ∧
    (n.toNat ≤ x.length + 1 → pkcs7Decode (x ++ [n]) = .ok ((x ++ [n]).take (x.length + 1 - n.toNat)))

/-- R195: the round trips. PKCS#7 gives every string back; zero padding gives `x` back exactly when `x` is empty, ends
in a nonzero byte, or has length 1 modulo the block size, and a proper prefix of it otherwise. -/
def Obligations.PaddingRoundTrips : Prop :=
  ∀ (x : List Byte) (bs : Nat), validSize bs = true →
    pkcs7Decode (pkcs7Encode x bs) = .ok x ∧
    (zeroDecode (zeroEncode x bs) bs = x ↔
      x = [] ∨ (∃ b, x.getLast? = some b ∧ b ≠ 0) ∨ x.length % bs = 1) ∧
    (zeroDecode (zeroEncode x bs) bs ≠ x →
      ∃ k, k < x.length ∧ zeroDecode (zeroEncode x bs) bs = x.take k)

/-- R185, R187, R191, R197: `PAD` on a bound orchestrator ends with `OK` and the encoding its discipline gives; it
writes the response and `PADBUF` and nothing else. -/
def Obligations.PadEncodesByItsDiscipline : Prop :=
  ∀ s : State, s.binding.padSize ≠ 0 → ∃ t, exec .pad s = .next t ∧
    t.resp.status = .ok ∧
    (s.binding.padMode = .zero → t.resp.dout = s.cmd.din ++
      List.replicate (s.binding.padSize - ((s.cmd.din.length + s.binding.padSize - 1) % s.binding.padSize + 1)) 0) ∧
    (s.binding.padMode = .pkcs7 → t.resp.dout = s.cmd.din ++
      List.replicate (s.binding.padSize - s.cmd.din.length % s.binding.padSize)
        (BitVec.ofNat 8 (s.binding.padSize - s.cmd.din.length % s.binding.padSize))) ∧
    s.sameSetup t ∧ t.dp = { s.dp with fsm := .idle } ∧ t.kx = { s.kx with kfsm := .idle } ∧
    t.orch.chain = s.orch.chain ∧ t.orch.blk = s.orch.blk ∧ t.orch.cfsm = .idle

/-- R186, R189, R192, R197: `UNPAD` on a bound orchestrator and a whole number of blocks ends with `OK` and the decoding,
under PKCS#7 where there is data and its count is within the length; it writes the response and `PADBUF` and
nothing else. -/
def Obligations.UnpadDecodesByItsDiscipline : Prop :=
  ∀ s : State, s.binding.padSize ≠ 0 → s.cmd.din.length % s.binding.padSize = 0 →
    (s.binding.padMode = .zero → ∃ t, exec .unpad s = .next t ∧
      t.resp = { status := .ok, dout := zeroDecode s.cmd.din s.binding.padSize } ∧ s.sameSetup t ∧
      t.dp = { s.dp with fsm := .idle } ∧ t.kx = { s.kx with kfsm := .idle } ∧
      t.orch.chain = s.orch.chain ∧ t.orch.blk = s.orch.blk) ∧
    (s.binding.padMode = .pkcs7 → ∀ n : Byte, s.cmd.din.getLast? = some n → n.toNat ≤ s.cmd.din.length →
      ∃ t, exec .unpad s = .next t ∧
      t.resp = { status := .ok, dout := s.cmd.din.take (s.cmd.din.length - n.toNat) } ∧ s.sameSetup t ∧
      t.dp = { s.dp with fsm := .idle } ∧ t.kx = { s.kx with kfsm := .idle } ∧
      t.orch.chain = s.orch.chain ∧ t.orch.blk = s.orch.blk)

/-- R186, R192, R193, R196, R198: the errors of the padding and CBC commands that come before or instead of a decoding:
an unbound orchestrator is `InvalidBlockSize` in all four; `UNPAD` of a ragged length, of nothing, or with a count
beyond the length under PKCS#7 is `InvalidDataSize`. -/
def Obligations.PaddingErrors : Prop :=
  ∀ s : State,
    (s.binding.padSize = 0 → ∀ i ∈ [Instr.pad, .unpad, .cbcEncrypt, .cbcDecrypt],
      ∃ t, exec i s = .next t ∧ s.failedWith t .invalidBlockSize) ∧
    (s.binding.padSize ≠ 0 → s.cmd.din.length % s.binding.padSize ≠ 0 →
      ∃ t, exec .unpad s = .next t ∧ s.failedWith t .invalidDataSize) ∧
    (s.binding.padSize ≠ 0 → s.cmd.din.length % s.binding.padSize = 0 → s.binding.padMode = .pkcs7 →
      (s.cmd.din = [] ∨ ∃ n : Byte, s.cmd.din.getLast? = some n ∧ s.cmd.din.length < n.toNat) →
      ∃ t, exec .unpad s = .next t ∧ s.failedWith t .invalidDataSize)

/-! ## CBC -/

/-- R207, R209, R214, R218: `CBC_ENCRYPT` on a bound orchestrator and an IV of one block ends with `OK` and the chained
encryption of the padded message, block by block: `c_i = E(p_i ^ c_(i-1))`, the IV before block 0. -/
def Obligations.CbcEncryptChainsTheBlocks : Prop :=
  ∀ s : State, s.Inv → s.binding.padSize ≠ 0 → s.cmd.ivBuf.length = s.ctx.blockSize →
    ∃ t, exec .cbcEncrypt s = .next t ∧ t.resp.status = .ok ∧
      t.resp.dout.length = (padEncode s.binding.padMode s.cmd.din s.ctx.blockSize).length ∧
      (∀ n, n < t.resp.dout.length / s.ctx.blockSize →
        blockAt t.resp.dout s.ctx.blockSize n = s.cipher .enc (xorBlock
          (blockAt (padEncode s.binding.padMode s.cmd.din s.ctx.blockSize) s.ctx.blockSize n)
          (previousBlock s.cmd.ivBuf t.resp.dout s.ctx.blockSize n))) ∧
      s.sameSetup t ∧ t.kx = { s.kx with kfsm := .idle } ∧ t.orch.chain = [] ∧ t.dp.t = [] ∧ t.dp.a = []

/-- R210 to R215: `CBC_DECRYPT` on a bound orchestrator, a whole number of blocks and an IV of one block recovers
`p_i = D(c_i) ^ c_(i-1)` block by block, the IV before block 0, and ends with what the unpadding of the
recovered text gives; under zero padding that is always `OK`. -/
def Obligations.CbcDecryptUnchainsTheBlocks : Prop :=
  ∀ s : State, s.Inv → s.binding.padSize ≠ 0 → s.cmd.din.length % s.ctx.blockSize = 0 →
    s.cmd.ivBuf.length = s.ctx.blockSize →
    ∃ t q, exec .cbcDecrypt s = .next t ∧ q.length = s.cmd.din.length ∧
      (∀ n, n < s.cmd.din.length / s.ctx.blockSize →
        blockAt q s.ctx.blockSize n = xorBlock (s.cipher .dec (blockAt s.cmd.din s.ctx.blockSize n))
          (previousBlock s.cmd.ivBuf s.cmd.din s.ctx.blockSize n)) ∧
      (∀ v, padDecode s.binding.padMode q s.ctx.blockSize = .ok v → t.resp = { status := .ok, dout := v }) ∧
      (∀ e, padDecode s.binding.padMode q s.ctx.blockSize = .error e →
        e = .invalidDataSize ∧ s.binding.padMode = .pkcs7 ∧ s.failedWith t e) ∧
      s.sameSetup t ∧ t.kx = { s.kx with kfsm := .idle } ∧ t.orch.chain = [] ∧ t.dp.t = [] ∧ t.dp.a = []

/-- R207, R210, R237: the checks of the CBC commands on a bound orchestrator, in their order: a ragged ciphertext is
`InvalidDataSize` whatever the IV; a wrong-length IV is `InvalidBlockSize`, before any block is looked at. -/
def Obligations.CbcChecksInOrder : Prop :=
  ∀ s : State, s.binding.padSize ≠ 0 →
    (s.cmd.ivBuf.length ≠ s.ctx.blockSize →
      ∃ t, exec .cbcEncrypt s = .next t ∧ s.failedWith t .invalidBlockSize ∧ t.orch = { s.orch with cfsm := .idle }) ∧
    (s.cmd.din.length % s.ctx.blockSize ≠ 0 →
      ∃ t, exec .cbcDecrypt s = .next t ∧ s.failedWith t .invalidDataSize ∧ t.orch = { s.orch with cfsm := .idle }) ∧
    (s.cmd.din.length % s.ctx.blockSize = 0 → s.cmd.ivBuf.length ≠ s.ctx.blockSize →
      ∃ t, exec .cbcDecrypt s = .next t ∧ s.failedWith t .invalidBlockSize ∧ t.orch = { s.orch with cfsm := .idle })

/-- R220: decrypting what was encrypted under the same IV gives the plaintext back: always under PKCS#7, and under zero
padding exactly under the condition of R195, a proper prefix of it otherwise. -/
def Obligations.CbcRoundTrip : Prop :=
  ∀ (s : State) (iv x : List Byte), s.Inv → s.rebuilding = false → s.binding.padSize ≠ 0 →
    iv.length = s.ctx.blockSize →
    ∃ t u, exec .cbcEncrypt { s with cmd := { s.cmd with ivBuf := iv, din := x } } = .next t ∧
      t.resp.status = .ok ∧
      exec .cbcDecrypt { t with cmd := { t.cmd with din := t.resp.dout } } = .next u ∧
      u.resp.status = .ok ∧
      (s.binding.padMode = .pkcs7 → u.resp.dout = x) ∧
      (s.binding.padMode = .zero →
        (u.resp.dout = x ↔ x = [] ∨ (∃ b, x.getLast? = some b ∧ b ≠ 0) ∨ x.length % s.ctx.blockSize = 1) ∧
        (u.resp.dout ≠ x → ∃ k, k < x.length ∧ u.resp.dout = x.take k))

/-- R219: block `n` of what a decryption recovers depends on ciphertext blocks `n-1` and `n` only (the IV and block 0 for
`n = 0`): two ciphertexts that agree there recover the same block `n`. -/
def Obligations.RecoveredBlockDependsOnTwoBlocks : Prop :=
  ∀ (s s' : State) (n : Nat), s.Inv → s.ctx.cfgValid = true → s.rebuilding = false →
    s'.ctx = s.ctx →
    s.cmd.ivBuf.length = s.ctx.blockSize → s'.cmd.ivBuf.length = s.ctx.blockSize →
    s.cmd.din.length % s.ctx.blockSize = 0 → s'.cmd.din.length % s.ctx.blockSize = 0 →
    n < s.cmd.din.length / s.ctx.blockSize → n < s'.cmd.din.length / s.ctx.blockSize →
    blockAt s.cmd.din s.ctx.blockSize n = blockAt s'.cmd.din s.ctx.blockSize n →
    previousBlock s.cmd.ivBuf s.cmd.din s.ctx.blockSize n = previousBlock s'.cmd.ivBuf s'.cmd.din s.ctx.blockSize n →
    blockAt s.cbcRecovered s.ctx.blockSize n = blockAt s'.cbcRecovered s.ctx.blockSize n

/-! ## The whole machine -/

/-- R165: for every command, running its state machines from idle until they are idle again produces exactly the state
the command-level rules give. -/
def Obligations.StateMachinesRefineTheCommands : Prop :=
  ∀ (s : State) (i : Instr), s.Inv → s.busy = false → s.command = some i →
    ∃ n, (s.begin i).microRun n = exec i s

/-- R44 and R45: the invariant holds at reset. -/
def Obligations.ResetSatisfiesTheInvariant : Prop :=
  ∀ (e : Nat) (c : Command) (host : List HostMove), (State.resetAt e c host).Inv

/-- R44, R24, R26, R168, R218: every step keeps the invariant, from every state that has it. -/
def Obligations.EveryStepKeepsTheInvariant : Prop :=
  ∀ s t : State, s.Inv → step s = .next t → t.Inv

/-- R241: no step from a state with the invariant faults, and the only refusal is that of a reserved command word the
host presents. -/
def Obligations.NoOtherFailurePath : Prop :=
  ∀ s : State, s.Inv →
    (∀ f, step s ≠ .fault f) ∧
    ∀ r, step s = .refused r → ∃ why c rest, r = .reservedCommand why ∧ s.busy = false ∧
      (s.host = .issue c :: rest ∨ s.host = .start c :: rest) ∧ decodeCmd8 c.word = .error why

/-- R236, R238: a command that ends with an error writes the status, empties the data, leaves every machine idle, and
changes nothing of the context, the binding or the operands. -/
def Obligations.FailedCommandLeavesTheSetup : Prop :=
  ∀ (i : Instr) (s t : State) (e : Err), i.isCommand = true → exec i s = .next t → t.resp.status = .err e →
    s.failedWith t e

/-- R27, R46, R65: no data command, whatever its outcome, writes the context, the binding, the operands or the
expander. -/
def Obligations.DataCommandsKeepTheSetup : Prop :=
  ∀ (s : State), ∀ i ∈ dataCommands, ∃ t, exec i s = .next t ∧ s.sameSetup t ∧ t.kx = { s.kx with kfsm := .idle } ∧
    t.busy = false

/-- R60, R43: the response of a data command depends only on the context, the binding and its own operands, so another
data command run before it with other operands does not change it. -/
def Obligations.DataCommandsCommute : Prop :=
  ∀ (s : State) (c c' : Command), s.Inv → s.busy = false →
    ∀ i ∈ dataCommands, ∀ j ∈ dataCommands, ∃ t u v,
      exec i { s with cmd := c } = .next t ∧
      exec j { s with cmd := c' } = .next u ∧ exec i { u with cmd := c } = .next v ∧
      v.resp = t.resp

/-- R232, R234: `InvalidKeySize` is raised by no command but the constructors, and `InvalidDataSize` by no command but
`CBC_DECRYPT` and `UNPAD`. -/
def Obligations.ErrorKindsByCommand : Prop :=
  ∀ (i : Instr) (s t : State), i.isCommand = true → exec i s = .next t →
    (t.resp.status = .err .invalidKeySize → i = .engineNew ∨ i = .cbcNewZ ∨ i = .cbcNewP) ∧
    (t.resp.status = .err .invalidDataSize → i = .cbcDecrypt ∨ i = .unpad)

/-- R74: the status codes. -/
def Obligations.StatusCodes : Prop :=
  Status.ok.code = 0#2 ∧ (Status.err .invalidDataSize).code = 1#2 ∧
  (Status.err .invalidBlockSize).code = 2#2 ∧ (Status.err .invalidKeySize).code = 3#2

/-! ## The tables -/

/-- R93: `ginv(a)` is the one byte whose product with `a` is 1, and 0 for 0. -/
def Obligations.FieldInverse : Prop :=
  ginv 0 = 0 ∧ ∀ a : Byte, a ≠ 0 → ∀ b : Byte, gmul a b = 1 ↔ b = ginv a

/-- R92: the laws of the multiplication. -/
def Obligations.FieldMultiplicationLaws : Prop :=
  (∀ a b : Byte, gmul a b = gmul b a) ∧
  (∀ a b c : Byte, gmul a (gmul b c) = gmul (gmul a b) c) ∧
  (∀ a b c : Byte, gmul a (b ^^^ c) = gmul a b ^^^ gmul a c) ∧
  (∀ a : Byte, gmul a 0 = 0 ∧ gmul a 1 = a ∧ gmul a 2 = xtime a ∧ gmul a 3 = xtime a ^^^ a) ∧
  gmul 0x57 0x83 = 0xC1 ∧ gmul 0x57 0x13 = 0xFE ∧ gmul 0x80 2 = 0x1B

/-- R94, R95: the listed S-box is the affine image of the inverse, has no fixed point, and the inverse S-box undoes it
both ways. -/
def Obligations.SboxesFollowTheirDefinition : Prop :=
  ∀ x : Byte, sbox x = sboxAffine (ginv x) ∧ sbox x ≠ x ∧ invSbox (sbox x) = x ∧ sbox (invSbox x) = x

/-- R96, R97: the round constants are the powers of `x`; the decryption offsets mirror the encryption offsets. -/
def Obligations.RoundConstantsAndOffsets : Prop :=
  rcon 0 = 0x01 ∧ (∀ i, i < 29 → rcon (i + 1) = xtime (rcon i)) ∧
  ∀ bc ∈ [4, 6, 8], ∀ k ∈ [1, 2, 3], shift bc .dec k = (bc - shift bc .enc k) % bc

/-- R98 to R100: each round table is the one before it rotated right by 8 bits, and the decryption tables are the
inverse-mix tables over the inverse S-box. -/
def Obligations.RoundTablesRotate : Prop :=
  ∀ x : Byte,
    tableT2 x = (tableT1 x).rotateRight 8 ∧ tableT3 x = (tableT1 x).rotateRight 16 ∧
    tableT4 x = (tableT1 x).rotateRight 24 ∧
    tableU2 x = (tableU1 x).rotateRight 8 ∧ tableU3 x = (tableU1 x).rotateRight 16 ∧
    tableU4 x = (tableU1 x).rotateRight 24 ∧
    tableT5 x = tableU1 (invSbox x) ∧ tableT6 x = tableU2 (invSbox x) ∧
    tableT7 x = tableU3 (invSbox x) ∧ tableT8 x = tableU4 (invSbox x)

/-- R101, R121: the two mixes are inverse to each other, and `InvMixWord` is `InvMixColumn` of the four bytes. -/
def Obligations.MixesAreInverse : Prop :=
  (∀ a0 a1 a2 a3 : Byte,
    (let m := mixColumn a0 a1 a2 a3; invMixColumn m.1 m.2.1 m.2.2.1 m.2.2.2) = (a0, a1, a2, a3) ∧
    (let m := invMixColumn a0 a1 a2 a3; mixColumn m.1 m.2.1 m.2.2.1 m.2.2.2) = (a0, a1, a2, a3)) ∧
  ∀ v : Word,
    let m := invMixColumn (byte v 0) (byte v 1) (byte v 2) (byte v 3)
    invMixWord v = word m.1 m.2.1 m.2.2.1 m.2.2.2
end

