-- ==== Sys2Proof/Laws/State.lean ====
section
/-! SUPPORT. What every update of the state does to each group of fields, so that no proof unfolds a record
update. One lemma a field an update, true by `rfl`. Written by a small script from the list of updates. -/

namespace Sys2Proof.Machine

/-! `machinesIdle` -/

@[simp] theorem State.machinesIdle_ctx (s : State) : s.machinesIdle.ctx = s.ctx := rfl
@[simp] theorem State.machinesIdle_binding (s : State) : s.machinesIdle.binding = s.binding := rfl
@[simp] theorem State.machinesIdle_resp (s : State) : s.machinesIdle.resp = s.resp := rfl
@[simp] theorem State.machinesIdle_dp (s : State) : s.machinesIdle.dp = { s.dp with fsm := .idle } := rfl
@[simp] theorem State.machinesIdle_kx (s : State) : s.machinesIdle.kx = { s.kx with kfsm := .idle } := rfl
@[simp] theorem State.machinesIdle_orch (s : State) : s.machinesIdle.orch = { s.orch with cfsm := .idle } := rfl
@[simp] theorem State.machinesIdle_cmd (s : State) : s.machinesIdle.cmd = s.cmd := rfl
@[simp] theorem State.machinesIdle_host (s : State) : s.machinesIdle.host = s.host := rfl
@[simp] theorem State.machinesIdle_epoch (s : State) : s.machinesIdle.epoch = s.epoch := rfl

/-! Taking an error -/

@[simp] theorem State.raise_ctx (s : State) (e : Err) : (s.raise e).ctx = s.ctx := rfl
@[simp] theorem State.raise_binding (s : State) (e : Err) : (s.raise e).binding = s.binding := rfl
@[simp] theorem State.raise_resp (s : State) (e : Err) : (s.raise e).resp = { status := .err e, dout := [] } := rfl
@[simp] theorem State.raise_dp (s : State) (e : Err) : (s.raise e).dp = { s.dp with fsm := .idle } := rfl
@[simp] theorem State.raise_kx (s : State) (e : Err) : (s.raise e).kx = { s.kx with kfsm := .idle } := rfl
@[simp] theorem State.raise_orch (s : State) (e : Err) : (s.raise e).orch = { s.orch with cfsm := .idle } := rfl
@[simp] theorem State.raise_cmd (s : State) (e : Err) : (s.raise e).cmd = s.cmd := rfl
@[simp] theorem State.raise_host (s : State) (e : Err) : (s.raise e).host = s.host := rfl
@[simp] theorem State.raise_epoch (s : State) (e : Err) : (s.raise e).epoch = s.epoch := rfl

/-! A successful response -/

@[simp] theorem State.respond_ctx (s : State) (v : List Byte) : (s.respond v).ctx = s.ctx := rfl
@[simp] theorem State.respond_binding (s : State) (v : List Byte) : (s.respond v).binding = s.binding := rfl
@[simp] theorem State.respond_resp (s : State) (v : List Byte) :
    (s.respond v).resp =
      { status := .ok, dout := v } := rfl
@[simp] theorem State.respond_dp (s : State) (v : List Byte) : (s.respond v).dp = { s.dp with fsm := .idle } := rfl
@[simp] theorem State.respond_kx (s : State) (v : List Byte) : (s.respond v).kx = { s.kx with kfsm := .idle } := rfl
@[simp] theorem State.respond_orch (s : State) (v : List Byte) :
    (s.respond v).orch =
      { s.orch with cfsm := .idle } := rfl
@[simp] theorem State.respond_cmd (s : State) (v : List Byte) : (s.respond v).cmd = s.cmd := rfl
@[simp] theorem State.respond_host (s : State) (v : List Byte) : (s.respond v).host = s.host := rfl
@[simp] theorem State.respond_epoch (s : State) (v : List Byte) : (s.respond v).epoch = s.epoch := rfl

/-! After a block command -/

@[simp] theorem State.releaseDatapath_ctx (s : State) : s.releaseDatapath.ctx = s.ctx := rfl
@[simp] theorem State.releaseDatapath_binding (s : State) : s.releaseDatapath.binding = s.binding := rfl
@[simp] theorem State.releaseDatapath_resp (s : State) : s.releaseDatapath.resp = s.resp := rfl
@[simp] theorem State.releaseDatapath_dp (s : State) : s.releaseDatapath.dp = Datapath.released (s.epoch + 1) := rfl
@[simp] theorem State.releaseDatapath_kx (s : State) : s.releaseDatapath.kx = s.kx := rfl
@[simp] theorem State.releaseDatapath_orch (s : State) : s.releaseDatapath.orch = s.orch := rfl
@[simp] theorem State.releaseDatapath_cmd (s : State) : s.releaseDatapath.cmd = s.cmd := rfl
@[simp] theorem State.releaseDatapath_host (s : State) : s.releaseDatapath.host = s.host := rfl
@[simp] theorem State.releaseDatapath_epoch (s : State) : s.releaseDatapath.epoch = s.epoch + 1 := rfl

/-! After a construction -/

@[simp] theorem State.releaseExpander_ctx (s : State) : s.releaseExpander.ctx = s.ctx := rfl
@[simp] theorem State.releaseExpander_binding (s : State) : s.releaseExpander.binding = s.binding := rfl
@[simp] theorem State.releaseExpander_resp (s : State) : s.releaseExpander.resp = s.resp := rfl
@[simp] theorem State.releaseExpander_dp (s : State) : s.releaseExpander.dp = { s.dp with t := [], a := [] } := rfl
@[simp] theorem State.releaseExpander_kx (s : State) : s.releaseExpander.kx = Expander.released (s.epoch + 1) := rfl
@[simp] theorem State.releaseExpander_orch (s : State) : s.releaseExpander.orch = s.orch := rfl
@[simp] theorem State.releaseExpander_cmd (s : State) : s.releaseExpander.cmd = s.cmd := rfl
@[simp] theorem State.releaseExpander_host (s : State) : s.releaseExpander.host = s.host := rfl
@[simp] theorem State.releaseExpander_epoch (s : State) : s.releaseExpander.epoch = s.epoch + 1 := rfl

/-! After `PAD` and `UNPAD` -/

@[simp] theorem State.releasePadding_ctx (s : State) : s.releasePadding.ctx = s.ctx := rfl
@[simp] theorem State.releasePadding_binding (s : State) : s.releasePadding.binding = s.binding := rfl
@[simp] theorem State.releasePadding_resp (s : State) : s.releasePadding.resp = s.resp := rfl
@[simp] theorem State.releasePadding_dp (s : State) : s.releasePadding.dp = s.dp := rfl
@[simp] theorem State.releasePadding_kx (s : State) : s.releasePadding.kx = s.kx := rfl
@[simp] theorem State.releasePadding_orch (s : State) :
    s.releasePadding.orch =
      { s.orch with padbuf := Config.freeString (s.epoch + 1) .padbuf, result := Config.freeString (s.epoch + 1) .result, cfsm := .idle } := rfl
@[simp] theorem State.releasePadding_cmd (s : State) : s.releasePadding.cmd = s.cmd := rfl
@[simp] theorem State.releasePadding_host (s : State) : s.releasePadding.host = s.host := rfl
@[simp] theorem State.releasePadding_epoch (s : State) : s.releasePadding.epoch = s.epoch + 1 := rfl

/-! After a CBC command -/

@[simp] theorem State.releaseCbc_ctx (s : State) : s.releaseCbc.ctx = s.ctx := rfl
@[simp] theorem State.releaseCbc_binding (s : State) : s.releaseCbc.binding = s.binding := rfl
@[simp] theorem State.releaseCbc_resp (s : State) : s.releaseCbc.resp = s.resp := rfl
@[simp] theorem State.releaseCbc_dp (s : State) : s.releaseCbc.dp = Datapath.released (s.epoch + 1) := rfl
@[simp] theorem State.releaseCbc_kx (s : State) : s.releaseCbc.kx = s.kx := rfl
@[simp] theorem State.releaseCbc_orch (s : State) : s.releaseCbc.orch = Orchestrator.released (s.epoch + 1) := rfl
@[simp] theorem State.releaseCbc_cmd (s : State) : s.releaseCbc.cmd = s.cmd := rfl
@[simp] theorem State.releaseCbc_host (s : State) : s.releaseCbc.host = s.host := rfl
@[simp] theorem State.releaseCbc_epoch (s : State) : s.releaseCbc.epoch = s.epoch + 1 := rfl

/-! The writes of a construction -/

@[simp] theorem State.commit_ctx (s : State) (ke kd : List (List Word)) (b : Binding) :
    (s.commit ke kd b).ctx =
      { cfgValid := true, blockSize := s.cmd.bsIn, keyLen := s.cmd.keyBuf.length, ke := ke, kd := kd } := rfl
@[simp] theorem State.commit_binding (s : State) (ke kd : List (List Word)) (b : Binding) :
    (s.commit ke kd b).binding =
      b := rfl
@[simp] theorem State.commit_resp (s : State) (ke kd : List (List Word)) (b : Binding) :
    (s.commit ke kd b).resp =
      s.resp := rfl
@[simp] theorem State.commit_dp (s : State) (ke kd : List (List Word)) (b : Binding) :
    (s.commit ke kd b).dp =
      s.dp := rfl
@[simp] theorem State.commit_kx (s : State) (ke kd : List (List Word)) (b : Binding) :
    (s.commit ke kd b).kx =
      s.kx := rfl
@[simp] theorem State.commit_orch (s : State) (ke kd : List (List Word)) (b : Binding) :
    (s.commit ke kd b).orch =
      s.orch := rfl
@[simp] theorem State.commit_cmd (s : State) (ke kd : List (List Word)) (b : Binding) :
    (s.commit ke kd b).cmd =
      s.cmd := rfl
@[simp] theorem State.commit_host (s : State) (ke kd : List (List Word)) (b : Binding) :
    (s.commit ke kd b).host =
      s.host := rfl
@[simp] theorem State.commit_epoch (s : State) (ke kd : List (List Word)) (b : Binding) :
    (s.commit ke kd b).epoch =
      s.epoch := rfl

/-! A host move taken -/

@[simp] theorem State.moved_ctx (s : State) (rest : List HostMove) : (s.moved rest).ctx = s.ctx := rfl
@[simp] theorem State.moved_binding (s : State) (rest : List HostMove) : (s.moved rest).binding = s.binding := rfl
@[simp] theorem State.moved_resp (s : State) (rest : List HostMove) : (s.moved rest).resp = s.resp := rfl
@[simp] theorem State.moved_dp (s : State) (rest : List HostMove) : (s.moved rest).dp = s.dp := rfl
@[simp] theorem State.moved_kx (s : State) (rest : List HostMove) : (s.moved rest).kx = s.kx := rfl
@[simp] theorem State.moved_orch (s : State) (rest : List HostMove) : (s.moved rest).orch = s.orch := rfl
@[simp] theorem State.moved_cmd (s : State) (rest : List HostMove) : (s.moved rest).cmd = s.cmd := rfl
@[simp] theorem State.moved_host (s : State) (rest : List HostMove) : (s.moved rest).host = rest := rfl
@[simp] theorem State.moved_epoch (s : State) (rest : List HostMove) : (s.moved rest).epoch = s.epoch := rfl

/-! A command latched -/

@[simp] theorem State.accept_ctx (s : State) (c : Command) (rest : List HostMove) :
    (s.accept c rest).ctx =
      s.ctx := rfl
@[simp] theorem State.accept_binding (s : State) (c : Command) (rest : List HostMove) :
    (s.accept c rest).binding =
      s.binding := rfl
@[simp] theorem State.accept_resp (s : State) (c : Command) (rest : List HostMove) :
    (s.accept c rest).resp =
      s.resp := rfl
@[simp] theorem State.accept_dp (s : State) (c : Command) (rest : List HostMove) : (s.accept c rest).dp = s.dp := rfl
@[simp] theorem State.accept_kx (s : State) (c : Command) (rest : List HostMove) : (s.accept c rest).kx = s.kx := rfl
@[simp] theorem State.accept_orch (s : State) (c : Command) (rest : List HostMove) :
    (s.accept c rest).orch =
      s.orch := rfl
@[simp] theorem State.accept_cmd (s : State) (c : Command) (rest : List HostMove) : (s.accept c rest).cmd = c := rfl
@[simp] theorem State.accept_host (s : State) (c : Command) (rest : List HostMove) :
    (s.accept c rest).host =
      rest := rfl
@[simp] theorem State.accept_epoch (s : State) (c : Command) (rest : List HostMove) :
    (s.accept c rest).epoch =
      s.epoch := rfl

/-! A block operation started -/

@[simp] theorem State.startBlock_ctx (s : State) (dir : Dir) (blk : List Byte) :
    (s.startBlock dir blk).ctx =
      s.ctx := rfl
@[simp] theorem State.startBlock_binding (s : State) (dir : Dir) (blk : List Byte) :
    (s.startBlock dir blk).binding =
      s.binding := rfl
@[simp] theorem State.startBlock_resp (s : State) (dir : Dir) (blk : List Byte) :
    (s.startBlock dir blk).resp =
      s.resp := rfl
@[simp] theorem State.startBlock_dp (s : State) (dir : Dir) (blk : List Byte) :
    (s.startBlock dir blk).dp =
      { s.dp with fsm := .load, dir := dir, blkIn := blk, rnd := s.freeRnd (.rndLoad s.orch.blk) } := rfl
@[simp] theorem State.startBlock_kx (s : State) (dir : Dir) (blk : List Byte) :
    (s.startBlock dir blk).kx =
      s.kx := rfl
@[simp] theorem State.startBlock_orch (s : State) (dir : Dir) (blk : List Byte) :
    (s.startBlock dir blk).orch =
      s.orch := rfl
@[simp] theorem State.startBlock_cmd (s : State) (dir : Dir) (blk : List Byte) :
    (s.startBlock dir blk).cmd =
      s.cmd := rfl
@[simp] theorem State.startBlock_host (s : State) (dir : Dir) (blk : List Byte) :
    (s.startBlock dir blk).host =
      s.host := rfl
@[simp] theorem State.startBlock_epoch (s : State) (dir : Dir) (blk : List Byte) :
    (s.startBlock dir blk).epoch =
      s.epoch := rfl

/-! `CFSM` written -/

@[simp] theorem State.toCfsm_ctx (s : State) (c : Cfsm) : (s.toCfsm c).ctx = s.ctx := rfl
@[simp] theorem State.toCfsm_binding (s : State) (c : Cfsm) : (s.toCfsm c).binding = s.binding := rfl
@[simp] theorem State.toCfsm_resp (s : State) (c : Cfsm) : (s.toCfsm c).resp = s.resp := rfl
@[simp] theorem State.toCfsm_dp (s : State) (c : Cfsm) : (s.toCfsm c).dp = s.dp := rfl
@[simp] theorem State.toCfsm_kx (s : State) (c : Cfsm) : (s.toCfsm c).kx = s.kx := rfl
@[simp] theorem State.toCfsm_orch (s : State) (c : Cfsm) : (s.toCfsm c).orch = { s.orch with cfsm := c } := rfl
@[simp] theorem State.toCfsm_cmd (s : State) (c : Cfsm) : (s.toCfsm c).cmd = s.cmd := rfl
@[simp] theorem State.toCfsm_host (s : State) (c : Cfsm) : (s.toCfsm c).host = s.host := rfl
@[simp] theorem State.toCfsm_epoch (s : State) (c : Cfsm) : (s.toCfsm c).epoch = s.epoch := rfl

/-! A CBC command past its checks -/

@[simp] theorem State.startCbc_ctx (s : State) (c : Cfsm) : (s.startCbc c).ctx = s.ctx := rfl
@[simp] theorem State.startCbc_binding (s : State) (c : Cfsm) : (s.startCbc c).binding = s.binding := rfl
@[simp] theorem State.startCbc_resp (s : State) (c : Cfsm) : (s.startCbc c).resp = s.resp := rfl
@[simp] theorem State.startCbc_dp (s : State) (c : Cfsm) : (s.startCbc c).dp = s.dp := rfl
@[simp] theorem State.startCbc_kx (s : State) (c : Cfsm) : (s.startCbc c).kx = s.kx := rfl
@[simp] theorem State.startCbc_orch (s : State) (c : Cfsm) :
    (s.startCbc c).orch =
      { chain := s.cmd.ivBuf.take s.ctx.blockSize, blk := 0, padbuf := [], result := [], cfsm := c } := rfl
@[simp] theorem State.startCbc_cmd (s : State) (c : Cfsm) : (s.startCbc c).cmd = s.cmd := rfl
@[simp] theorem State.startCbc_host (s : State) (c : Cfsm) : (s.startCbc c).host = s.host := rfl
@[simp] theorem State.startCbc_epoch (s : State) (c : Cfsm) : (s.startCbc c).epoch = s.epoch := rfl

/-! `K_COPY` before its `copy_out` -/

@[simp] theorem State.loadKey_ctx (s : State) :
    s.loadKey.ctx =
      { s.ctx with ke := List.replicate (Machine.rounds s.cmd.keyBuf.length s.cmd.bsIn + 1) [], kd := List.replicate (Machine.rounds s.cmd.keyBuf.length s.cmd.bsIn + 1) [] } := rfl
@[simp] theorem State.loadKey_binding (s : State) : s.loadKey.binding = s.binding := rfl
@[simp] theorem State.loadKey_resp (s : State) : s.loadKey.resp = s.resp := rfl
@[simp] theorem State.loadKey_dp (s : State) : s.loadKey.dp = s.dp := rfl
@[simp] theorem State.loadKey_kx (s : State) :
    s.loadKey.kx =
      { tk := beWords s.cmd.keyBuf (wordsOf s.cmd.keyBuf.length), widx := 0, rcp := 0, kfsm := .expand } := rfl
@[simp] theorem State.loadKey_orch (s : State) : s.loadKey.orch = s.orch := rfl
@[simp] theorem State.loadKey_cmd (s : State) : s.loadKey.cmd = s.cmd := rfl
@[simp] theorem State.loadKey_host (s : State) : s.loadKey.host = s.host := rfl
@[simp] theorem State.loadKey_epoch (s : State) : s.loadKey.epoch = s.epoch := rfl

/-! `K_EXPAND` before its `copy_out` -/

@[simp] theorem State.updateKey_ctx (s : State) : s.updateKey.ctx = s.ctx := rfl
@[simp] theorem State.updateKey_binding (s : State) : s.updateKey.binding = s.binding := rfl
@[simp] theorem State.updateKey_resp (s : State) : s.updateKey.resp = s.resp := rfl
@[simp] theorem State.updateKey_dp (s : State) : s.updateKey.dp = s.dp := rfl
@[simp] theorem State.updateKey_kx (s : State) :
    s.updateKey.kx =
      { s.kx with tk := nextBatch (wordsOf s.cmd.keyBuf.length) s.kx.rcp ((List.range (wordsOf s.cmd.keyBuf.length)).map s.tkAt), rcp := s.kx.rcp + 1 } := rfl
@[simp] theorem State.updateKey_orch (s : State) : s.updateKey.orch = s.orch := rfl
@[simp] theorem State.updateKey_cmd (s : State) : s.updateKey.cmd = s.cmd := rfl
@[simp] theorem State.updateKey_host (s : State) : s.updateKey.host = s.host := rfl
@[simp] theorem State.updateKey_epoch (s : State) : s.updateKey.epoch = s.epoch := rfl

/-! `K_EXPAND` after its `copy_out` -/

@[simp] theorem State.afterBatch_ctx (s : State) : s.afterBatch.ctx = s.ctx := rfl
@[simp] theorem State.afterBatch_binding (s : State) : s.afterBatch.binding = s.binding := rfl
@[simp] theorem State.afterBatch_resp (s : State) : s.afterBatch.resp = s.resp := rfl
@[simp] theorem State.afterBatch_dp (s : State) : s.afterBatch.dp = s.dp := rfl
@[simp] theorem State.afterBatch_kx (s : State) :
    s.afterBatch.kx =
      { s.kx with kfsm := if s.kx.widx < scheduleLength s.cmd.keyBuf.length s.cmd.bsIn then .expand else .invmix } := rfl
@[simp] theorem State.afterBatch_orch (s : State) : s.afterBatch.orch = s.orch := rfl
@[simp] theorem State.afterBatch_cmd (s : State) : s.afterBatch.cmd = s.cmd := rfl
@[simp] theorem State.afterBatch_host (s : State) : s.afterBatch.host = s.host := rfl
@[simp] theorem State.afterBatch_epoch (s : State) : s.afterBatch.epoch = s.epoch := rfl

/-! `K_INVMIX` -/

@[simp] theorem State.mixStore_ctx (s : State) :
    s.mixStore.ctx =
      { s.ctx with kd := mixRows (Machine.rounds s.cmd.keyBuf.length s.cmd.bsIn) s.ctx.kd } := rfl
@[simp] theorem State.mixStore_binding (s : State) : s.mixStore.binding = s.binding := rfl
@[simp] theorem State.mixStore_resp (s : State) : s.mixStore.resp = s.resp := rfl
@[simp] theorem State.mixStore_dp (s : State) : s.mixStore.dp = s.dp := rfl
@[simp] theorem State.mixStore_kx (s : State) : s.mixStore.kx = { s.kx with kfsm := .done } := rfl
@[simp] theorem State.mixStore_orch (s : State) : s.mixStore.orch = s.orch := rfl
@[simp] theorem State.mixStore_cmd (s : State) : s.mixStore.cmd = s.cmd := rfl
@[simp] theorem State.mixStore_host (s : State) : s.mixStore.host = s.host := rfl
@[simp] theorem State.mixStore_epoch (s : State) : s.mixStore.epoch = s.epoch := rfl

/-! `K_DONE` -/

@[simp] theorem State.commitKey_ctx (s : State) (b : Binding) :
    (s.commitKey b).ctx =
      { cfgValid := true, blockSize := s.cmd.bsIn, keyLen := s.cmd.keyBuf.length, ke := s.ctx.ke, kd := s.ctx.kd } := rfl
@[simp] theorem State.commitKey_binding (s : State) (b : Binding) : (s.commitKey b).binding = b := rfl
@[simp] theorem State.commitKey_resp (s : State) (b : Binding) :
    (s.commitKey b).resp =
      { status := .ok, dout := [] } := rfl
@[simp] theorem State.commitKey_dp (s : State) (b : Binding) :
    (s.commitKey b).dp =
      { s.dp with t := [], a := [], fsm := .idle } := rfl
@[simp] theorem State.commitKey_kx (s : State) (b : Binding) :
    (s.commitKey b).kx =
      { Expander.released (s.epoch + 1) with kfsm := .idle } := rfl
@[simp] theorem State.commitKey_orch (s : State) (b : Binding) :
    (s.commitKey b).orch =
      { s.orch with cfsm := .idle } := rfl
@[simp] theorem State.commitKey_cmd (s : State) (b : Binding) : (s.commitKey b).cmd = s.cmd := rfl
@[simp] theorem State.commitKey_host (s : State) (b : Binding) : (s.commitKey b).host = s.host := rfl
@[simp] theorem State.commitKey_epoch (s : State) (b : Binding) : (s.commitKey b).epoch = s.epoch + 1 := rfl

/-! The `INIT` step -/

@[simp] theorem State.uopInit_ctx (s : State) (dir : Dir) (bc : Nat) : (s.uopInit dir bc).ctx = s.ctx := rfl
@[simp] theorem State.uopInit_binding (s : State) (dir : Dir) (bc : Nat) :
    (s.uopInit dir bc).binding =
      s.binding := rfl
@[simp] theorem State.uopInit_resp (s : State) (dir : Dir) (bc : Nat) : (s.uopInit dir bc).resp = s.resp := rfl
@[simp] theorem State.uopInit_dp (s : State) (dir : Dir) (bc : Nat) :
    (s.uopInit dir bc).dp =
      { s.dp with t := overlay (loadWords bc s.blkInAt (s.roundKey dir 0)) s.dp.t, rnd := 1, fsm := .round } := rfl
@[simp] theorem State.uopInit_kx (s : State) (dir : Dir) (bc : Nat) : (s.uopInit dir bc).kx = s.kx := rfl
@[simp] theorem State.uopInit_orch (s : State) (dir : Dir) (bc : Nat) : (s.uopInit dir bc).orch = s.orch := rfl
@[simp] theorem State.uopInit_cmd (s : State) (dir : Dir) (bc : Nat) : (s.uopInit dir bc).cmd = s.cmd := rfl
@[simp] theorem State.uopInit_host (s : State) (dir : Dir) (bc : Nat) : (s.uopInit dir bc).host = s.host := rfl
@[simp] theorem State.uopInit_epoch (s : State) (dir : Dir) (bc : Nat) : (s.uopInit dir bc).epoch = s.epoch := rfl

/-! The `MID` step -/

@[simp] theorem State.uopMid_ctx (s : State) (dir : Dir) (bc : Nat) : (s.uopMid dir bc).ctx = s.ctx := rfl
@[simp] theorem State.uopMid_binding (s : State) (dir : Dir) (bc : Nat) : (s.uopMid dir bc).binding = s.binding := rfl
@[simp] theorem State.uopMid_resp (s : State) (dir : Dir) (bc : Nat) : (s.uopMid dir bc).resp = s.resp := rfl
@[simp] theorem State.uopMid_kx (s : State) (dir : Dir) (bc : Nat) : (s.uopMid dir bc).kx = s.kx := rfl
@[simp] theorem State.uopMid_orch (s : State) (dir : Dir) (bc : Nat) : (s.uopMid dir bc).orch = s.orch := rfl
@[simp] theorem State.uopMid_cmd (s : State) (dir : Dir) (bc : Nat) : (s.uopMid dir bc).cmd = s.cmd := rfl
@[simp] theorem State.uopMid_host (s : State) (dir : Dir) (bc : Nat) : (s.uopMid dir bc).host = s.host := rfl
@[simp] theorem State.uopMid_epoch (s : State) (dir : Dir) (bc : Nat) : (s.uopMid dir bc).epoch = s.epoch := rfl
@[simp] theorem State.uopMid_t (s : State) (dir : Dir) (bc : Nat) :
    (s.uopMid dir bc).dp.t = overlay (midRound dir bc s.tAt (s.roundKey dir s.dp.rnd)) s.dp.t := rfl
@[simp] theorem State.uopMid_a (s : State) (dir : Dir) (bc : Nat) :
    (s.uopMid dir bc).dp.a = overlay (midRound dir bc s.tAt (s.roundKey dir s.dp.rnd)) s.dp.a := rfl
@[simp] theorem State.uopMid_rnd (s : State) (dir : Dir) (bc : Nat) :
    (s.uopMid dir bc).dp.rnd = if s.dp.rnd < s.rounds - 1 then s.dp.rnd + 1 else s.rounds := rfl
@[simp] theorem State.uopMid_fsm (s : State) (dir : Dir) (bc : Nat) :
    (s.uopMid dir bc).dp.fsm = if s.dp.rnd < s.rounds - 1 then .round else .final := rfl
@[simp] theorem State.uopMid_dir (s : State) (dir : Dir) (bc : Nat) : (s.uopMid dir bc).dp.dir = s.dp.dir := rfl
@[simp] theorem State.uopMid_blkIn (s : State) (dir : Dir) (bc : Nat) :
    (s.uopMid dir bc).dp.blkIn = s.dp.blkIn := rfl
@[simp] theorem State.uopMid_out (s : State) (dir : Dir) (bc : Nat) : (s.uopMid dir bc).dp.out = s.dp.out := rfl

/-! The `FINAL` step -/

@[simp] theorem State.uopFinal_ctx (s : State) (dir : Dir) (bc : Nat) : (s.uopFinal dir bc).ctx = s.ctx := rfl
@[simp] theorem State.uopFinal_binding (s : State) (dir : Dir) (bc : Nat) :
    (s.uopFinal dir bc).binding =
      s.binding := rfl
@[simp] theorem State.uopFinal_resp (s : State) (dir : Dir) (bc : Nat) : (s.uopFinal dir bc).resp = s.resp := rfl
@[simp] theorem State.uopFinal_dp (s : State) (dir : Dir) (bc : Nat) :
    (s.uopFinal dir bc).dp =
      { s.dp with out := finalRound dir bc s.tAt (s.roundKey dir s.rounds), fsm := .done } := rfl
@[simp] theorem State.uopFinal_kx (s : State) (dir : Dir) (bc : Nat) : (s.uopFinal dir bc).kx = s.kx := rfl
@[simp] theorem State.uopFinal_orch (s : State) (dir : Dir) (bc : Nat) : (s.uopFinal dir bc).orch = s.orch := rfl
@[simp] theorem State.uopFinal_cmd (s : State) (dir : Dir) (bc : Nat) : (s.uopFinal dir bc).cmd = s.cmd := rfl
@[simp] theorem State.uopFinal_host (s : State) (dir : Dir) (bc : Nat) : (s.uopFinal dir bc).host = s.host := rfl
@[simp] theorem State.uopFinal_epoch (s : State) (dir : Dir) (bc : Nat) : (s.uopFinal dir bc).epoch = s.epoch := rfl

/-! Reset -/

@[simp] theorem State.resetNow_eq (s : State) (rest : List HostMove) :
    s.resetNow rest = State.resetAt (s.epoch + 1) s.cmd rest := rfl
@[simp] theorem State.resetAt_cfgValid (e : Nat) (c : Command) (h : List HostMove) :
    (State.resetAt e c h).ctx.cfgValid = false := rfl
@[simp] theorem State.resetAt_padSize (e : Nat) (c : Command) (h : List HostMove) :
    (State.resetAt e c h).binding.padSize = 0 := rfl
@[simp] theorem State.resetAt_cmd (e : Nat) (c : Command) (h : List HostMove) : (State.resetAt e c h).cmd = c := rfl
@[simp] theorem State.resetAt_host (e : Nat) (c : Command) (h : List HostMove) : (State.resetAt e c h).host = h := rfl

/-! Whether a command is running -/

@[simp] theorem State.machinesIdle_busy (s : State) : s.machinesIdle.busy = false := rfl
@[simp] theorem State.raise_busy (s : State) (e : Err) : (s.raise e).busy = false := rfl
@[simp] theorem State.respond_busy (s : State) (v : List Byte) : (s.respond v).busy = false := rfl
@[simp] theorem State.accept_busy (s : State) (c : Command) (rest : List HostMove) :
    (s.accept c rest).busy = s.busy := rfl
@[simp] theorem State.moved_busy (s : State) (rest : List HostMove) : (s.moved rest).busy = s.busy := rfl
@[simp] theorem State.resetAt_busy (e : Nat) (c : Command) (h : List HostMove) :
    (State.resetAt e c h).busy = false := rfl

end Sys2Proof.Machine
end

