-- ==== Sys2Proof/Laws/Ops.lean ====
section
/-! SUPPORT. What each check, each shared operation, each meaning and the step can do, said once: provers cite
these and do not unfold the definitions. -/

namespace Sys2Proof.Machine

/-! ## Sizes and checks -/

theorem validSize_iff (n : Nat) : validSize n = true ↔ n = 16 ∨ n = 24 ∨ n = 32 := by
  simp [validSize, or_assoc]

theorem validSize_pos {n : Nat} (h : validSize n = true) : 0 < n := by
  rcases (validSize_iff n).1 h with rfl | rfl | rfl <;> decide

theorem wordsOf_cases {n : Nat} (h : validSize n = true) : wordsOf n = 4 ∨ wordsOf n = 6 ∨ wordsOf n = 8 := by
  rcases (validSize_iff n).1 h with rfl | rfl | rfl <;> decide

theorem four_mul_wordsOf {n : Nat} (h : validSize n = true) : 4 * wordsOf n = n := by
  rcases (validSize_iff n).1 h with rfl | rfl | rfl <;> rfl

theorem rounds_cases (klen bs : Nat) : rounds klen bs = 10 ∨ rounds klen bs = 12 ∨ rounds klen bs = 14 := by
  unfold rounds; split <;> [exact .inl rfl; (split <;> simp)]

theorem isBound_iff (s : State) : s.isBound = true ↔ s.binding.padSize ≠ 0 := by simp [State.isBound]

theorem constructError_none {bs klen : Nat} :
    constructError bs klen = none ↔ validSize bs = true ∧ validSize klen = true := by
  unfold constructError
  cases validSize bs <;> cases validSize klen <;> simp

theorem constructError_block {bs klen : Nat} (h : validSize bs = false) :
    constructError bs klen = some .invalidBlockSize := by simp [constructError, h]

theorem constructError_key {bs klen : Nat} (hb : validSize bs = true) (hk : validSize klen = false) :
    constructError bs klen = some .invalidKeySize := by simp [constructError, hb, hk]

theorem blockError_none {s : State} :
    blockError s = none ↔ s.ctx.cfgValid = true ∧ s.cmd.din.length = s.ctx.blockSize := by
  unfold blockError
  cases s.ctx.cfgValid <;> simp

theorem blockError_some {s : State} {e : Err} (h : blockError s = some e) : e = .invalidBlockSize := by
  unfold blockError at h
  split at h
  · simpa [unconfiguredError] using h.symm
  · split at h <;> simp_all

theorem cbcEncryptError_none {s : State} :
    cbcEncryptError s = none ↔ s.binding.padSize ≠ 0 ∧ s.cmd.ivBuf.length = s.ctx.blockSize := by
  unfold cbcEncryptError
  by_cases h : s.binding.padSize = 0 <;> simp [State.isBound, h]

theorem cbcEncryptError_some {s : State} {e : Err} (h : cbcEncryptError s = some e) : e = .invalidBlockSize := by
  unfold cbcEncryptError at h
  split at h
  · simpa [unconfiguredError] using h.symm
  · split at h <;> simp_all

theorem cbcDecryptError_none {s : State} :
    cbcDecryptError s = none ↔ s.binding.padSize ≠ 0 ∧ s.cmd.din.length % s.ctx.blockSize = 0 ∧
      s.cmd.ivBuf.length = s.ctx.blockSize := by
  unfold cbcDecryptError
  by_cases h : s.binding.padSize = 0 <;> by_cases h' : s.cmd.din.length % s.ctx.blockSize = 0 <;>
    simp [State.isBound, h, h']

theorem cbcDecryptError_some {s : State} {e : Err} (h : cbcDecryptError s = some e) :
    e = .invalidBlockSize ∨ e = .invalidDataSize := by
  unfold cbcDecryptError at h
  split at h
  · simp [unconfiguredError] at h; exact .inl h.symm
  · split at h
    · simp at h; exact .inr h.symm
    · split at h <;> simp at h; exact .inl h.symm

theorem padError_none {s : State} : padError s = none ↔ s.binding.padSize ≠ 0 := by
  unfold padError
  by_cases h : s.binding.padSize = 0 <;> simp [State.isBound, h]

theorem padError_some {s : State} {e : Err} (h : padError s = some e) : e = .invalidBlockSize := by
  unfold padError at h
  split at h
  · simpa [unconfiguredError] using h.symm
  · simp at h

theorem unpadError_none {s : State} :
    unpadError s = none ↔ s.binding.padSize ≠ 0 ∧ s.cmd.din.length % s.binding.padSize = 0 := by
  unfold unpadError
  by_cases h : s.binding.padSize = 0 <;> simp [State.isBound, h]

theorem unpadError_some {s : State} {e : Err} (h : unpadError s = some e) :
    e = .invalidBlockSize ∨ e = .invalidDataSize := by
  unfold unpadError at h
  split at h
  · simp [unconfiguredError] at h; exact .inl h.symm
  · split at h <;> simp at h; exact .inr h.symm

theorem padDecode_error {m : PadMode} {x : List Byte} {bs : Nat} {e : Err} (h : padDecode m x bs = .error e) :
    m = .pkcs7 ∧ e = .invalidDataSize := by
  cases m with
  | zero => simp [padDecode] at h
  | pkcs7 =>
    simp only [padDecode, pkcs7Decode, pkcs7OverrunError] at h
    split at h
    · exact ⟨rfl, (Except.error.inj h).symm⟩
    · split at h
      · exact ⟨rfl, (Except.error.inj h).symm⟩
      · cases h

/-! ## What an error leaves -/

theorem raise_failedWith (s : State) (e : Err) : s.failedWith (s.raise e) e := ⟨rfl, rfl, rfl, rfl, rfl, rfl⟩

@[simp] theorem conclude_ok (s : State) (v : List Byte) : s.conclude (.ok v) = s.respond v := rfl
@[simp] theorem conclude_error (s : State) (e : Err) : s.conclude (.error e) = s.raise e := rfl

/-! ## The meanings, by case -/

theorem construct_ok {s : State} {b : Binding} (hb : validSize s.cmd.bsIn = true)
    (hk : validSize s.cmd.keyBuf.length = true) :
    s.construct b = ((s.commit (encryptionStore s.cmd.keyBuf s.cmd.bsIn)
      (decryptionStore s.cmd.keyBuf s.cmd.bsIn) b).releaseExpander).respond [] := by
  simp [State.construct, constructError_none.2 ⟨hb, hk⟩]

theorem construct_error {s : State} {b : Binding} {e : Err}
    (h : constructError s.cmd.bsIn s.cmd.keyBuf.length = some e) : s.construct b = s.raise e := by
  simp [State.construct, h]

theorem construct_cases (s : State) (b : Binding) :
    (∃ e, constructError s.cmd.bsIn s.cmd.keyBuf.length = some e ∧ s.construct b = s.raise e) ∨
    (validSize s.cmd.bsIn = true ∧ validSize s.cmd.keyBuf.length = true ∧
      s.construct b = ((s.commit (encryptionStore s.cmd.keyBuf s.cmd.bsIn)
        (decryptionStore s.cmd.keyBuf s.cmd.bsIn) b).releaseExpander).respond []) := by
  cases h : constructError s.cmd.bsIn s.cmd.keyBuf.length with
  | some e => exact .inl ⟨e, rfl, construct_error h⟩
  | none =>
    obtain ⟨hb, hk⟩ := constructError_none.1 h
    exact .inr ⟨hb, hk, construct_ok hb hk⟩

theorem blockCommand_ok {s : State} {dir : Dir} (h : blockError s = none) :
    s.blockCommand dir = s.releaseDatapath.respond (s.cipher dir s.cmd.din) := by simp [State.blockCommand, h]

theorem blockCommand_error {s : State} {dir : Dir} {e : Err} (h : blockError s = some e) :
    s.blockCommand dir = s.raise e := by simp [State.blockCommand, h]

theorem execPad_ok {s : State} (h : padError s = none) :
    execPad s = .next (s.releasePadding.respond (padEncode s.binding.padMode s.cmd.din s.binding.padSize)) := by
  simp [execPad, h]

theorem execPad_error {s : State} {e : Err} (h : padError s = some e) : execPad s = .next (s.raise e) := by
  simp [execPad, h]

theorem execUnpad_ok {s : State} (h : unpadError s = none) :
    execUnpad s = .next (s.releasePadding.conclude (padDecode s.binding.padMode s.cmd.din s.binding.padSize)) := by
  simp [execUnpad, h]

theorem execUnpad_error {s : State} {e : Err} (h : unpadError s = some e) : execUnpad s = .next (s.raise e) := by
  simp [execUnpad, h]

theorem execCbcEncrypt_ok {s : State} (h : cbcEncryptError s = none) :
    execCbcEncrypt s = .next (s.releaseCbc.respond s.cbcEncryption) := by simp [execCbcEncrypt, h]

theorem execCbcEncrypt_error {s : State} {e : Err} (h : cbcEncryptError s = some e) :
    execCbcEncrypt s = .next (s.raise e) := by simp [execCbcEncrypt, h]

theorem execCbcDecrypt_ok {s : State} (h : cbcDecryptError s = none) :
    execCbcDecrypt s = .next (s.releaseCbc.conclude (padDecode s.binding.padMode s.cbcRecovered s.ctx.blockSize)) := by
  simp [execCbcDecrypt, h]

theorem execCbcDecrypt_error {s : State} {e : Err} (h : cbcDecryptError s = some e) :
    execCbcDecrypt s = .next (s.raise e) := by simp [execCbcDecrypt, h]

/-- The micro-operations are the three shared steps at their direction and block words. -/
theorem exec_init {p : Instr × Dir × Nat} (h : p ∈ initOps) (s : State) :
    exec p.1 s = .next (s.uopInit p.2.1 p.2.2) := by
  simp only [initOps, List.mem_cons, List.not_mem_nil, or_false] at h
  rcases h with rfl | rfl | rfl | rfl | rfl | rfl <;> rfl

theorem exec_mid {p : Instr × Dir × Nat} (h : p ∈ midOps) (s : State) :
    exec p.1 s = .next (s.uopMid p.2.1 p.2.2) := by
  simp only [midOps, List.mem_cons, List.not_mem_nil, or_false] at h
  rcases h with rfl | rfl | rfl | rfl | rfl | rfl <;> rfl

theorem exec_final {p : Instr × Dir × Nat} (h : p ∈ finalOps) (s : State) :
    exec p.1 s = .next (s.uopFinal p.2.1 p.2.2) := by
  simp only [finalOps, List.mem_cons, List.not_mem_nil, or_false] at h
  rcases h with rfl | rfl | rfl | rfl | rfl | rfl <;> rfl

/-- No instruction stops: every meaning answers a next state, from every state. -/
theorem exec_next (i : Instr) (s : State) : ∃ t, exec i s = .next t := by cases i <;> exact ⟨_, rfl⟩

/-! ## The step, by the host's next move -/

theorem step_nil {s : State} (h : s.host = []) : step s = s.noMove := by simp [step, State.advance, h]

theorem step_wait {s : State} {rest : List HostMove} (h : s.host = .wait :: rest) :
    step s = (s.moved rest).noMove := by simp [step, State.advance, h]

theorem step_reset {s : State} {rest : List HostMove} (h : s.host = .reset :: rest) :
    step s = .next (State.resetAt (s.epoch + 1) s.cmd rest) := by simp [step, State.advance, h]

theorem step_issue {s : State} {c : Command} {rest : List HostMove} (h : s.host = .issue c :: rest) :
    step s = if s.busy then s.microStep else s.present false c rest := by simp [step, State.advance, h]

theorem step_start {s : State} {c : Command} {rest : List HostMove} (h : s.host = .start c :: rest) :
    step s = if s.busy then s.microStep else s.present true c rest := by simp [step, State.advance, h]

theorem noMove_idle {s : State} (h : s.busy = false) : s.noMove = .next s := by simp [State.noMove, h]

theorem noMove_busy {s : State} (h : s.busy = true) : s.noMove = s.microStep := by simp [State.noMove, h]

theorem present_ok {s : State} {c : Command} {rest : List HostMove} {i : Instr} (h : decodeCmd8 c.word = .ok i)
    (stepped : Bool) : s.present stepped c rest =
      if stepped then .next ((s.accept c rest).begin i) else exec i (s.accept c rest) := by
  simp [State.present, h]

theorem present_error {s : State} {c : Command} {rest : List HostMove} {r : Reserved}
    (h : decodeCmd8 c.word = .error r) (stepped : Bool) :
    s.present stepped c rest = .refused (.reservedCommand r) := by simp [State.present, h]

/-- Everything one step can do: reset; go on with a running command; do nothing; take up a command. -/
theorem step_cases (s : State) :
    (∃ rest, s.host = .reset :: rest ∧ step s = .next (State.resetAt (s.epoch + 1) s.cmd rest)) ∨
    (s.busy = true ∧ (step s = s.microStep ∨ ∃ rest, s.host = .wait :: rest ∧ step s = (s.moved rest).microStep)) ∨
    (s.busy = false ∧ (step s = .next s ∨ (∃ rest, s.host = .wait :: rest ∧ step s = .next (s.moved rest)) ∨
      (∃ c rest, s.host = .issue c :: rest ∧ step s = s.present false c rest) ∨
      ∃ c rest, s.host = .start c :: rest ∧ step s = s.present true c rest)) := by
  cases hh : s.host with
  | nil =>
    cases hb : s.busy with
    | true => exact .inr (.inl ⟨rfl, .inl (by rw [step_nil hh, noMove_busy hb])⟩)
    | false => exact .inr (.inr ⟨rfl, .inl (by rw [step_nil hh, noMove_idle hb])⟩)
  | cons m rest =>
    cases m with
    | reset => exact .inl ⟨rest, rfl, step_reset hh⟩
    | wait =>
      cases hb : s.busy with
      | true => exact .inr (.inl ⟨rfl, .inr ⟨rest, rfl, by rw [step_wait hh, noMove_busy (by simpa using hb)]⟩⟩)
      | false =>
        exact .inr (.inr ⟨rfl, .inr (.inl ⟨rest, rfl, by rw [step_wait hh, noMove_idle (by simpa using hb)]⟩)⟩)
    | issue c =>
      cases hb : s.busy with
      | true => exact .inr (.inl ⟨rfl, .inl (by simp [step_issue hh, hb])⟩)
      | false => exact .inr (.inr ⟨rfl, .inr (.inr (.inl ⟨c, rest, rfl, by simp [step_issue hh, hb]⟩))⟩)
    | start c =>
      cases hb : s.busy with
      | true => exact .inr (.inl ⟨rfl, .inl (by simp [step_start hh, hb])⟩)
      | false => exact .inr (.inr ⟨rfl, .inr (.inr (.inr ⟨c, rest, rfl, by simp [step_start hh, hb]⟩))⟩)

end Sys2Proof.Machine
end

