-- ==== Sys2Proof/Laws/Data.lean ====
section
/-! SUPPORT. Laws of the plain functions of bytes and words: taking a word apart and putting it together, and the
lengths and shapes of everything the units compute. -/

namespace Sys2Proof.Machine

/-! ## Bytes and words (R16) -/

theorem byte_word_0 (b0 b1 b2 b3 : Byte) : byte (word b0 b1 b2 b3) 0 = b0 := by
  ext i hi; simp [byte, word]; grind
theorem byte_word_1 (b0 b1 b2 b3 : Byte) : byte (word b0 b1 b2 b3) 1 = b1 := by
  ext i hi; simp [byte, word]; grind
theorem byte_word_2 (b0 b1 b2 b3 : Byte) : byte (word b0 b1 b2 b3) 2 = b2 := by
  ext i hi; simp [byte, word]; grind
theorem byte_word_3 (b0 b1 b2 b3 : Byte) : byte (word b0 b1 b2 b3) 3 = b3 := by
  ext i hi; simp [byte, word]; grind

/-- A word is the word of its four bytes (R16). -/
theorem word_bytes (v : Word) : word (byte v 0) (byte v 1) (byte v 2) (byte v 3) = v := by
  ext i hi; simp [byte, word]; grind

theorem byte_xor (v w : Word) (k : Nat) : byte (v ^^^ w) k = byte v k ^^^ byte w k := by
  ext i hi; simp [byte]

@[simp] theorem xorBlock_length (a b : List Byte) : (xorBlock a b).length = min a.length b.length := by
  simp [xorBlock]

theorem slice_length {s : List Byte} {i j : Nat} (h : j ≤ s.length) : (slice s i j).length = j - i := by
  simp [slice]; omega

/-- Combining with the same string twice gives the first back (R208). -/
theorem xorBlock_cancel {a b : List Byte} (h : a.length = b.length) : xorBlock (xorBlock a b) b = a := by
  apply List.ext_getElem
  · simp [h]
  · intro i h1 h2
    simp [xorBlock]

@[simp] theorem beWords_length (s : List Byte) (n : Nat) : (beWords s n).length = n := by simp [beWords]

theorem beWords_getD {s : List Byte} {n i : Nat} (d : Word) (h : i < n) :
    (beWords s n).getD i d = be32 (byteAt s) i := by simp [beWords, h]

/-! ## Writing the first elements of an array -/

theorem overlay_getElem_new {α : Type} {new old : List α} {i : Nat} (h : i < new.length) :
    (overlay new old)[i]? = new[i]? := by simp [overlay, List.getElem?_append, h]

theorem overlay_getElem_old {α : Type} {new old : List α} {i : Nat} (h : new.length ≤ i) :
    (overlay new old)[i]? = old[i]? := by
  simp [overlay, List.getElem?_append, Nat.not_lt.2 h, Nat.add_sub_cancel' h]

theorem overlay_getD_new {α : Type} {new old : List α} {i : Nat} (d : α) (h : i < new.length) :
    (overlay new old).getD i d = new.getD i d := by simp [List.getD, overlay_getElem_new h]

/-! ## The datapath -/

@[simp] theorem loadWords_length (bc : Nat) (blk : Nat → Byte) (k : Nat → Word) :
    (loadWords bc blk k).length = bc := by simp [loadWords]

@[simp] theorem midRound_length (dir : Dir) (bc : Nat) (t k : Nat → Word) :
    (midRound dir bc t k).length = bc := by simp [midRound]

@[simp] theorem finalRound_length (dir : Dir) (bc : Nat) (t k : Nat → Word) :
    (finalRound dir bc t k).length = 4 * bc := by
  simp [finalRound, List.length_flatMap, Nat.mul_comm]

@[simp] theorem roundState_length (dir : Dir) (bc : Nat) (key : Nat → Nat → Word) (blk : Nat → Byte) (n : Nat) :
    (roundState dir bc key blk n).length = bc := by cases n <;> simp [roundState]

@[simp] theorem cipherBlock_length (dir : Dir) (bc r : Nat) (key : Nat → Nat → Word) (blk : Nat → Byte) :
    (cipherBlock dir bc r key blk).length = 4 * bc := by simp [cipherBlock]

theorem loadWords_getElem {bc : Nat} {blk : Nat → Byte} {k : Nat → Word} {i : Nat} (h : i < bc) :
    (loadWords bc blk k)[i]? = some (be32 blk i ^^^ k i) := by simp [loadWords, h]

theorem midRound_getElem {dir : Dir} {bc : Nat} {t k : Nat → Word} {i : Nat} (h : i < bc) :
    (midRound dir bc t k)[i]? = some (midWord dir bc t k i) := by simp [midRound, h]

theorem range_four_map {α : Type} (f : Nat → α) : (List.range 4).map f = [f 0, f 1, f 2, f 3] := rfl

theorem flatMap_four_getElem {α : Type} (f : Nat → Nat → α) {n i b : Nat} (hi : i < n) (hb : b < 4) :
    ((List.range n).flatMap fun i => (List.range 4).map (f i))[4 * i + b]? = some (f i b) := by
  induction n with
  | zero => omega
  | succ n ih =>
    have hl : ((List.range n).flatMap fun i => (List.range 4).map (f i)).length = 4 * n := by
      simp [List.length_flatMap, Nat.mul_comm]
    rw [List.range_succ (n := n), List.flatMap_append, List.getElem?_append, hl]
    by_cases h : i < n
    · rw [if_pos (by omega), ih h]
    · obtain rfl : i = n := by omega
      rw [if_neg (by omega)]
      simp [hb]

/-- Byte `4i + b` of the output block (R139, R154). -/
theorem finalRound_getElem {dir : Dir} {bc : Nat} {t k : Nat → Word} {i b : Nat} (hi : i < bc) (hb : b < 4) :
    (finalRound dir bc t k)[4 * i + b]? = some (finalByte dir bc t k i b) :=
  flatMap_four_getElem (finalByte dir bc t k) hi hb

/-- The datapath reads no other columns than its own, so it depends on its inputs only there. -/
theorem shiftedColumn_lt {dir : Dir} {bc : Nat} (i k : Nat) (h : 0 < bc) : shiftedColumn dir bc i k < bc :=
  Nat.mod_lt _ h

theorem midRound_congr {dir : Dir} {bc : Nat} {t t' k k' : Nat → Word} (ht : ∀ i, i < bc → t i = t' i)
    (hk : ∀ i, i < bc → k i = k' i) : midRound dir bc t k = midRound dir bc t' k' := by
  apply List.map_congr_left
  intro i hi
  have hi : i < bc := List.mem_range.1 hi
  have hp : 0 < bc := by omega
  simp [midWord, lookup, ht _ (shiftedColumn_lt _ _ hp), hk i hi]

theorem finalRound_congr {dir : Dir} {bc : Nat} {t t' k k' : Nat → Word} (ht : ∀ i, i < bc → t i = t' i)
    (hk : ∀ i, i < bc → k i = k' i) : finalRound dir bc t k = finalRound dir bc t' k' := by
  apply List.flatMap_congr
  intro i hi
  have hi : i < bc := List.mem_range.1 hi
  have hp : 0 < bc := by omega
  simp [finalByte, ht _ (shiftedColumn_lt _ _ hp), hk i hi]

/-! ## Reads that do not depend on the default -/

theorem getD_any {α : Type} {l : List α} {i : Nat} (h : i < l.length) (d d' : α) : l.getD i d = l.getD i d' := by
  simp [List.getD_eq_getElem?_getD, List.getElem?_eq_getElem h]

theorem byteAt_of_lt {x : List Byte} {i : Nat} (h : i < x.length) : x[i]? = some (byteAt x i) := by
  simp [byteAt, List.getD_eq_getElem?_getD, List.getElem?_eq_getElem h]

/-! ## The rounds, word by word -/

theorem roundState_succ_word {dir : Dir} {bc : Nat} {key : Nat → Nat → Word} {blk : Nat → Byte} {n i : Nat} (h : i < bc) :
    wordAt (roundState dir bc key blk (n + 1)) i = midWord dir bc (wordAt (roundState dir bc key blk n)) (key (n + 1)) i := by
  rw [wordAt, List.getD_eq_getElem?_getD, roundState, midRound_getElem h, Option.getD_some]

theorem roundState_zero_word {dir : Dir} {bc : Nat} {key : Nat → Nat → Word} {blk : Nat → Byte} {i : Nat} (h : i < bc) :
    wordAt (roundState dir bc key blk 0) i = be32 blk i ^^^ key 0 i := by
  rw [wordAt, List.getD_eq_getElem?_getD, roundState, loadWords_getElem h, Option.getD_some]

/-- The rounds depend on the block's bytes and on the key rows used, and on nothing else. -/
theorem roundState_congr {dir : Dir} {bc : Nat} {k k' : Nat → Nat → Word} {f f' : Nat → Byte} (hf : ∀ i, i < 4 * bc → f i = f' i) (n : Nat) (hk : ∀ m j, m ≤ n → j < bc → k m j = k' m j) :
    roundState dir bc k f n = roundState dir bc k' f' n := by
  induction n with
  | zero =>
    rw [roundState, roundState, loadWords, loadWords]
    apply List.map_congr_left
    intro i hi
    have hi : i < bc := List.mem_range.1 hi
    rw [hk 0 i (by omega) hi, be32, be32, hf _ (by omega), hf _ (by omega), hf _ (by omega), hf _ (by omega)]
  | succ n ih =>
    rw [roundState, roundState, ih (fun m j hm hj => hk m j (by omega) hj)]
    exact midRound_congr (fun _ _ => rfl) (fun j hj => hk _ j (Nat.le_refl _) hj)

/-- One block depends on its bytes and on key rows `0 .. R`, and on nothing else. -/
theorem cipherBlock_congr {dir : Dir} {bc r : Nat} {k k' : Nat → Nat → Word} {f f' : Nat → Byte} (hf : ∀ i, i < 4 * bc → f i = f' i) (hk : ∀ m j, m ≤ r → j < bc → k m j = k' m j) :
    cipherBlock dir bc r k f = cipherBlock dir bc r k' f' := by
  rw [cipherBlock, cipherBlock, roundState_congr hf (r - 1) (fun m j hm hj => hk m j (by omega) hj)]
  exact finalRound_congr (fun _ _ => rfl) (fun j hj => hk r j (Nat.le_refl _) hj)

end Sys2Proof.Machine
end

