-- ==== Sys2Proof/Laws/Messages.lean ====
section
/-! SUPPORT. Padding and chaining: lengths, multiples of the block size, and the block loops one block at a time. -/

namespace Sys2Proof.Machine

/-- The zero encoding reaches a multiple of the block size (R187). -/
theorem zeroPadLength_mod (len : Nat) {bs : Nat} (h : 1 ≤ bs) : (len + zeroPadLength len bs) % bs = 0 := by
  unfold zeroPadLength
  have h1 := Nat.mod_lt (len + bs - 1) (by omega : 0 < bs)
  have h2 := Nat.div_add_mod (len + bs - 1) bs
  have : len + (bs - ((len + bs - 1) % bs + 1)) = bs * ((len + bs - 1) / bs) := by omega
  rw [this, Nat.mul_mod_right]

/-- The PKCS#7 encoding reaches a multiple of the block size (R191). -/
theorem pkcs7PadLength_mod (len : Nat) {bs : Nat} (h : 1 ≤ bs) : (len + pkcs7PadLength len bs) % bs = 0 := by
  unfold pkcs7PadLength
  have h1 := Nat.mod_lt len (by omega : 0 < bs)
  have h2 := Nat.div_add_mod len bs
  have : len + (bs - len % bs) = bs * (len / bs + 1) := by rw [Nat.mul_add]; omega
  rw [this, Nat.mul_mod_right]

@[simp] theorem rep_length (b : Byte) (n : Nat) : (rep b n).length = n := by simp [rep]

/-- What either discipline encodes is a whole number of blocks (R40). -/
theorem padEncode_mod (m : PadMode) (x : List Byte) {bs : Nat} (h : 1 ≤ bs) : (padEncode m x bs).length % bs = 0 := by
  cases m with
  | zero => simpa [padEncode, zeroEncode] using zeroPadLength_mod x.length h
  | pkcs7 => simpa [padEncode, pkcs7Encode] using pkcs7PadLength_mod x.length h

/-- A block of a whole number of blocks lies wholly inside (R51). -/
theorem block_inside {len blk bs : Nat} (h1 : len % bs = 0) (h2 : blk % bs = 0) (h3 : blk < len) :
    blk + bs ≤ len := by
  obtain ⟨a, rfl⟩ := Nat.dvd_of_mod_eq_zero h1
  obtain ⟨b, rfl⟩ := Nat.dvd_of_mod_eq_zero h2
  have hb : b < a := lt_of_mul_lt_mul_left h3 (Nat.zero_le _)
  calc bs * b + bs = bs * (b + 1) := by ring
    _ ≤ bs * a := Nat.mul_le_mul_left _ hb

/-- Block `n` of `a ++ rest`, `a` being one block, is block `n - 1` of the rest (R51). -/
theorem blockAt_succ {a rest : List Byte} {bs : Nat} (n : Nat) (h : a.length = bs) :
    blockAt (a ++ rest) bs (n + 1) = blockAt rest bs n := by
  have h1 : (n + 1) * bs = bs + n * bs := by ring
  have h2 : a.drop (bs + n * bs) = [] := by simp [h]
  simp [blockAt, slice, List.drop_append, h, h1, h2]

theorem blockAt_zero {a rest : List Byte} {bs : Nat} (h : a.length = bs) : blockAt (a ++ rest) bs 0 = a := by
  simp [blockAt, slice, ← h]

theorem blockAt_drop (msg : List Byte) (bs n : Nat) : blockAt (msg.drop bs) bs n = blockAt msg bs (n + 1) := by
  have : (n + 1) * bs = bs + n * bs := by ring
  simp [blockAt, slice, List.drop_drop, this]

theorem blockAt_length {msg : List Byte} {bs n : Nat} (h : n < msg.length / bs) : (blockAt msg bs n).length = bs := by
  have h1 : (n + 1) * bs ≤ msg.length :=
    Nat.le_trans (Nat.mul_le_mul_right _ h) (Nat.div_mul_le_self _ _)
  rw [blockAt, slice_length (by rw [Nat.succ_mul] at h1; exact h1)]
  omega

/-! ## The block loops (R209, R211) -/

theorem cbcEncryptBlocks_length {e : List Byte → List Byte} {bs : Nat} (he : ∀ b, (e b).length = bs) (n : Nat)
    (msg chain : List Byte) : (cbcEncryptBlocks e bs n msg chain).length = n * bs := by
  induction n generalizing msg chain with
  | zero => simp [cbcEncryptBlocks]
  | succ n ih => simp [cbcEncryptBlocks, he, ih]; ring

theorem cbcDecryptBlocks_length {d : List Byte → List Byte} {bs : Nat} (hd : ∀ b, (d b).length = bs) (n : Nat)
    (msg chain : List Byte) (hm : n * bs ≤ msg.length) (hc : chain.length = bs) :
    (cbcDecryptBlocks d bs n msg chain).length = n * bs := by
  induction n generalizing msg chain with
  | zero => simp [cbcDecryptBlocks]
  | succ n ih =>
    have : (n + 1) * bs = n * bs + bs := by ring
    rw [this] at hm
    simp only [cbcDecryptBlocks, List.length_append, xorBlock_length, hd, hc, Nat.min_self]
    rw [ih _ _ (by simp; omega) (by simp; omega)]
    ring

end Sys2Proof.Machine
end

