-- ==== Sys2Proof/Laws/PerInstr.lean ====
section
/-! SUPPORT. Families of statements about instructions as syntax, one lemma a constructor. -/

/-- R71, R83: the fields cut out of the encoder's word are the fields the opcode table gives the row, and they pass
every check. -/
def Sys2Proof.Laws.EncodedFields.Statement (i : Sys2Proof.Instr) : Prop :=
  i.wf = true ∧
  match Sys2Proof.encode i with
  | .cmd8 w => i.fields = .inl (Sys2Proof.splitCmd8 w)
  | .uop5 w => i.fields = .inr (Sys2Proof.splitUop5 w)

theorem Sys2Proof.Laws.EncodedFields.engineNew : Sys2Proof.Laws.EncodedFields.Statement .engineNew := ⟨rfl, rfl⟩
theorem Sys2Proof.Laws.EncodedFields.engineEncrypt : Sys2Proof.Laws.EncodedFields.Statement .engineEncrypt := ⟨rfl, rfl⟩
theorem Sys2Proof.Laws.EncodedFields.engineDecrypt : Sys2Proof.Laws.EncodedFields.Statement .engineDecrypt := ⟨rfl, rfl⟩
theorem Sys2Proof.Laws.EncodedFields.cbcNewZ : Sys2Proof.Laws.EncodedFields.Statement .cbcNewZ := ⟨rfl, rfl⟩
theorem Sys2Proof.Laws.EncodedFields.cbcNewP : Sys2Proof.Laws.EncodedFields.Statement .cbcNewP := ⟨rfl, rfl⟩
theorem Sys2Proof.Laws.EncodedFields.cbcEncrypt : Sys2Proof.Laws.EncodedFields.Statement .cbcEncrypt := ⟨rfl, rfl⟩
theorem Sys2Proof.Laws.EncodedFields.cbcDecrypt : Sys2Proof.Laws.EncodedFields.Statement .cbcDecrypt := ⟨rfl, rfl⟩
theorem Sys2Proof.Laws.EncodedFields.pad : Sys2Proof.Laws.EncodedFields.Statement .pad := ⟨rfl, rfl⟩
theorem Sys2Proof.Laws.EncodedFields.unpad : Sys2Proof.Laws.EncodedFields.Statement .unpad := ⟨rfl, rfl⟩
theorem Sys2Proof.Laws.EncodedFields.uopEncInit4 : Sys2Proof.Laws.EncodedFields.Statement .uopEncInit4 := ⟨rfl, rfl⟩
theorem Sys2Proof.Laws.EncodedFields.uopEncInit6 : Sys2Proof.Laws.EncodedFields.Statement .uopEncInit6 := ⟨rfl, rfl⟩
theorem Sys2Proof.Laws.EncodedFields.uopEncInit8 : Sys2Proof.Laws.EncodedFields.Statement .uopEncInit8 := ⟨rfl, rfl⟩
theorem Sys2Proof.Laws.EncodedFields.uopEncMid4 : Sys2Proof.Laws.EncodedFields.Statement .uopEncMid4 := ⟨rfl, rfl⟩
theorem Sys2Proof.Laws.EncodedFields.uopEncMid6 : Sys2Proof.Laws.EncodedFields.Statement .uopEncMid6 := ⟨rfl, rfl⟩
theorem Sys2Proof.Laws.EncodedFields.uopEncMid8 : Sys2Proof.Laws.EncodedFields.Statement .uopEncMid8 := ⟨rfl, rfl⟩
theorem Sys2Proof.Laws.EncodedFields.uopEncFinal4 : Sys2Proof.Laws.EncodedFields.Statement .uopEncFinal4 := ⟨rfl, rfl⟩
theorem Sys2Proof.Laws.EncodedFields.uopEncFinal6 : Sys2Proof.Laws.EncodedFields.Statement .uopEncFinal6 := ⟨rfl, rfl⟩
theorem Sys2Proof.Laws.EncodedFields.uopEncFinal8 : Sys2Proof.Laws.EncodedFields.Statement .uopEncFinal8 := ⟨rfl, rfl⟩
theorem Sys2Proof.Laws.EncodedFields.uopDecInit4 : Sys2Proof.Laws.EncodedFields.Statement .uopDecInit4 := ⟨rfl, rfl⟩
theorem Sys2Proof.Laws.EncodedFields.uopDecInit6 : Sys2Proof.Laws.EncodedFields.Statement .uopDecInit6 := ⟨rfl, rfl⟩
theorem Sys2Proof.Laws.EncodedFields.uopDecInit8 : Sys2Proof.Laws.EncodedFields.Statement .uopDecInit8 := ⟨rfl, rfl⟩
theorem Sys2Proof.Laws.EncodedFields.uopDecMid4 : Sys2Proof.Laws.EncodedFields.Statement .uopDecMid4 := ⟨rfl, rfl⟩
theorem Sys2Proof.Laws.EncodedFields.uopDecMid6 : Sys2Proof.Laws.EncodedFields.Statement .uopDecMid6 := ⟨rfl, rfl⟩
theorem Sys2Proof.Laws.EncodedFields.uopDecMid8 : Sys2Proof.Laws.EncodedFields.Statement .uopDecMid8 := ⟨rfl, rfl⟩
theorem Sys2Proof.Laws.EncodedFields.uopDecFinal4 : Sys2Proof.Laws.EncodedFields.Statement .uopDecFinal4 := ⟨rfl, rfl⟩
theorem Sys2Proof.Laws.EncodedFields.uopDecFinal6 : Sys2Proof.Laws.EncodedFields.Statement .uopDecFinal6 := ⟨rfl, rfl⟩
theorem Sys2Proof.Laws.EncodedFields.uopDecFinal8 : Sys2Proof.Laws.EncodedFields.Statement .uopDecFinal8 := ⟨rfl, rfl⟩
end

