-- ==== Sys2Proof/Laws/Stores.lean ====
section
/-! SUPPORT. The key schedule and the round-key stores: lengths, rows and elements, and that a construction leaves
stores of the shape R24 gives. -/

namespace Sys2Proof.Machine

/-! ## The schedule -/

@[simp] theorem extendSchedule_length (kc n : Nat) (w : List Word) :
    (extendSchedule kc n w).length = w.length + n := by
  induction n generalizing w with
  | zero => rfl
  | succ n ih => simp [extendSchedule, ih]; omega

/-- Words in place stay (R119). -/
theorem extendSchedule_prefix (kc n : Nat) (w : List Word) {i : Nat} (h : i < w.length) :
    (extendSchedule kc n w)[i]? = w[i]? := by
  induction n generalizing w with
  | zero => rfl
  | succ n ih =>
    rw [extendSchedule, ih _ (by simp; omega)]
    simp [List.getElem?_append, h]

/-- Appending `m + n` words is appending `m` and then `n`. -/
theorem extendSchedule_add (kc m n : Nat) (w : List Word) :
    extendSchedule kc (m + n) w = extendSchedule kc n (extendSchedule kc m w) := by
  induction m generalizing w with
  | zero => simp [extendSchedule]
  | succ m ih => rw [Nat.succ_add, extendSchedule, ih, extendSchedule]

/-- Word `i` past those in place is the recurrence over the words before it. -/
theorem extendSchedule_word (kc n : Nat) (w : List Word) {i : Nat} (h : w.length ≤ i) (hi : i < w.length + n) :
    (extendSchedule kc n w)[i]? = some (nextWord kc (extendSchedule kc (i - w.length) w)) := by
  obtain ⟨m, rfl⟩ : ∃ m, n = (i - w.length) + 1 + m := ⟨n - (i - w.length) - 1, by omega⟩
  rw [extendSchedule_add, extendSchedule_prefix _ _ _ (by simp; omega), extendSchedule_add]
  simp only [extendSchedule]
  rw [List.getElem?_append_right (by simp; omega)]
  simp [Nat.add_sub_cancel' h]

/-- The key fits the schedule: `k_c <= N` (R118). -/
theorem wordsOf_le_scheduleLength {klen bs : Nat} (hk : validSize klen = true) (hb : validSize bs = true) :
    wordsOf klen ≤ scheduleLength klen bs := by
  rcases (validSize_iff klen).1 hk with rfl | rfl | rfl <;> rcases (validSize_iff bs).1 hb with rfl | rfl | rfl <;> decide

theorem schedule_length {key : List Byte} {bs : Nat} (hk : validSize key.length = true) (hb : validSize bs = true) :
    (schedule key bs).length = scheduleLength key.length bs := by
  simp [schedule, Nat.add_sub_cancel' (wordsOf_le_scheduleLength hk hb)]

/-! ## Rows -/

@[simp] theorem cutRows_length (bc n : Nat) (w : List Word) : (cutRows bc n w).length = n := by
  induction n generalizing w with
  | zero => rfl
  | succ n ih => simp [cutRows, ih]

/-- Row `r` is the words `r * b_c` to `r * b_c + b_c - 1` (R122). -/
theorem cutRows_getElem {bc n r : Nat} (w : List Word) (h : r < n) :
    (cutRows bc n w)[r]? = some ((w.drop (r * bc)).take bc) := by
  induction n generalizing w r with
  | zero => omega
  | succ n ih =>
    cases r with
    | zero => simp [cutRows]
    | succ r =>
      simp only [cutRows, List.getElem?_cons_succ]
      rw [ih _ (by omega), List.drop_drop, Nat.succ_mul, Nat.add_comm]

theorem cutRows_shape {bc r : Nat} {w : List Word} (h : w.length = (r + 1) * bc) :
    storeShape (cutRows bc (r + 1) w) r bc := by
  refine ⟨by simp, fun row hrow => ?_⟩
  obtain ⟨i, hi, rfl⟩ := List.mem_iff_getElem.1 hrow
  have hi' : i < r + 1 := by simpa using hi
  have := cutRows_getElem (bc := bc) w hi'
  rw [List.getElem?_eq_getElem hi] at this
  rw [Option.some.inj this]
  have : i * bc + bc ≤ (r + 1) * bc := by rw [← Nat.succ_mul]; exact Nat.mul_le_mul_right _ hi'
  simp [h]; omega

@[simp] theorem mixRows_length (r : Nat) (rows : List (List Word)) : (mixRows r rows).length = rows.length := by
  simp [mixRows]

theorem mixRows_getElem (r : Nat) (rows : List (List Word)) (i : Nat) :
    (mixRows r rows)[i]? = rows[i]?.map fun row => if i = 0 ∨ i = r then row else row.map invMixWord := by
  simp [mixRows]

theorem mixRows_shape {r bc : Nat} {rows : List (List Word)} (h : storeShape rows r bc) :
    storeShape (mixRows r rows) r bc := by
  refine ⟨by simpa using h.1, fun row hrow => ?_⟩
  obtain ⟨i, hi, rfl⟩ := List.mem_iff_getElem.1 hrow
  have hi' : i < rows.length := by simpa using hi
  have hr := h.2 rows[i] (List.getElem_mem hi')
  simp only [mixRows, List.getElem_mapIdx]
  split <;> simp [hr]

theorem reverse_shape {r bc : Nat} {rows : List (List Word)} (h : storeShape rows r bc) :
    storeShape rows.reverse r bc := ⟨by simpa using h.1, fun row hr => h.2 row (by simpa using hr)⟩

/-- An element is there exactly inside the shape (R24). -/
theorem elementAt_isSome {rows : List (List Word)} {r bc : Nat} (h : storeShape rows r bc) (i j : Nat) :
    (elementAt rows i j).isSome = true ↔ i ≤ r ∧ j < bc := by
  unfold elementAt
  by_cases hi : i < rows.length
  · have hr := h.2 rows[i] (List.getElem_mem hi)
    have := h.1
    simp [List.getElem?_eq_getElem hi, hr]; omega
  · have := h.1
    simp [List.getElem?_eq_none (Nat.not_lt.1 hi)]; omega

/-- The stores a construction builds have the shape and the mirror of R24 to R26. -/
theorem encryptionStore_shape {key : List Byte} {bs : Nat} (hk : validSize key.length = true)
    (hb : validSize bs = true) : storeShape (encryptionStore key bs) (rounds key.length bs) (wordsOf bs) :=
  cutRows_shape (schedule_length hk hb)

theorem decryptionStore_eq (key : List Byte) (bs : Nat) :
    decryptionStore key bs = mixRows (rounds key.length bs) (encryptionStore key bs).reverse := rfl

theorem commit_storesOk {s : State} {b : Binding} (hb : validSize s.cmd.bsIn = true)
    (hk : validSize s.cmd.keyBuf.length = true) :
    (s.commit (encryptionStore s.cmd.keyBuf s.cmd.bsIn) (decryptionStore s.cmd.keyBuf s.cmd.bsIn) b).ctx.storesOk :=
  ⟨encryptionStore_shape hk hb, rfl⟩

/-- Storing a word lengthens one row by that word. -/
theorem storeWord_getD {rows : List (List Word)} {r : Nat} {w : Word} (h : r < rows.length) (i : Nat) :
    (storeWord rows r w).getD i [] = if i = r then rows.getD r [] ++ [w] else rows.getD i [] := by
  simp only [storeWord, List.getD_eq_getElem?_getD, List.getElem?_modify]
  by_cases hi : i = r
  · subst hi; simp [h]
  · have : r ≠ i := fun h => hi h.symm
    simp [hi, this]

@[simp] theorem storeWord_length (rows : List (List Word)) (r : Nat) (w : Word) :
    (storeWord rows r w).length = rows.length := by simp [storeWord]

/-- Mirrored stores stay mirrored when a word goes to both (R125). -/
theorem storeWord_reverse {rows : List (List Word)} {r i : Nat} (w : Word) (h : rows.length = r + 1) (hi : i ≤ r) :
    storeWord rows.reverse (r - i) w = (storeWord rows i w).reverse := by
  apply List.ext_getElem?
  intro n
  by_cases hn : n ≤ r
  · have hr : rows.length - 1 - n = r - n := by omega
    rw [storeWord, List.getElem?_modify, List.getElem?_reverse (by omega), List.getElem?_reverse (by simp; omega)]
    rw [storeWord_length, storeWord, List.getElem?_modify, hr]
    by_cases hc : r - i = n
    · obtain rfl : i = r - n := by omega
      simp [hc]
    · simp [hc, show i ≠ r - n by omega]
  · rw [List.getElem?_eq_none (by simp; omega), List.getElem?_eq_none (by simp; omega)]

@[simp] theorem xorChain_length (p : Word) (ws : List Word) : (xorChain p ws).length = ws.length := by
  induction ws generalizing p with
  | nil => rfl
  | cons w ws ih => simp [xorChain, ih]

/-- A batch is again `k_c` words (R125). -/
theorem nextBatch_length {kc rcp : Nat} {tk : List Word} (h : tk.length = kc) (hk : kc = 4 ∨ kc = 6 ∨ kc = 8) :
    (nextBatch kc rcp tk).length = kc := by
  unfold nextBatch
  rcases hk with rfl | rfl | rfl <;> simp [h]

/-! ## Elements -/

theorem elementAt_cutRows {bc r : Nat} {w : List Word} (hw : w.length = (r + 1) * bc) {i j : Nat} (hi : i ≤ r) (hj : j < bc) :
    elementAt (cutRows bc (r + 1) w) i j = some (w.getD (i * bc + j) 0) := by
  have hlt : i * bc + bc ≤ w.length := by
    rw [hw, ← Nat.succ_mul]; exact Nat.mul_le_mul_right _ (by omega)
  unfold elementAt
  rw [cutRows_getElem w (by omega)]
  simp only [Option.bind_some]
  rw [List.getElem?_take, if_pos hj, List.getElem?_drop, List.getElem?_eq_getElem (by omega), List.getD_eq_getElem?_getD, List.getElem?_eq_getElem (by omega)]
  rfl

theorem elementAt_reverse {rows : List (List Word)} {r : Nat} (h : rows.length = r + 1) {i : Nat} (hi : i ≤ r) (j : Nat) :
    elementAt rows.reverse (r - i) j = elementAt rows i j := by
  unfold elementAt
  rw [List.getElem?_reverse (by omega)]
  congr 2; omega

theorem elementAt_mixRows (r : Nat) (rows : List (List Word)) (i j : Nat) :
    elementAt (mixRows r rows) i j = (elementAt rows i j).map fun w => if i = 0 ∨ i = r then w else invMixWord w := by
  unfold elementAt
  rw [mixRows_getElem]
  cases rows[i]? with
  | none => rfl
  | some row =>
    simp only [Option.map_some, Option.bind_some]
    by_cases h : i = 0 ∨ i = r <;> simp [h]

/-- Reading an element that holds a value gives that value. -/
theorem keAt_of {s : State} {r j : Nat} {w : Word} (h : elementAt s.ctx.ke r j = some w) : s.keAt r j = w := by
  unfold elementAt at h
  unfold State.keAt
  cases hr : s.ctx.ke[r]? with
  | none => simp [hr] at h
  | some row =>
    rw [hr] at h; simp only [Option.bind_some] at h
    simp [List.getD_eq_getElem?_getD, hr, h]

theorem kdAt_of {s : State} {r j : Nat} {w : Word} (h : elementAt s.ctx.kd r j = some w) : s.kdAt r j = w := by
  unfold elementAt at h
  unfold State.kdAt
  cases hr : s.ctx.kd[r]? with
  | none => simp [hr] at h
  | some row =>
    rw [hr] at h; simp only [Option.bind_some] at h
    simp [List.getD_eq_getElem?_getD, hr, h]

/-- R26 for one element of stores that are whole. -/
theorem stores_mirror {s : State} (h : s.ctx.storesOk) {i j : Nat} (hi : i ≤ s.rounds) (hj : j < s.bc) :
    s.kdAt (s.rounds - i) j = if i = 0 ∨ i = s.rounds then s.keAt i j else invMixWord (s.keAt i j) := by
  obtain ⟨h1, h2⟩ := h
  have h3 := (elementAt_isSome h1 i j).2 ⟨hi, hj⟩
  obtain ⟨w, hw⟩ := Option.isSome_iff_exists.1 h3
  rw [keAt_of hw]
  apply kdAt_of
  rw [h2, elementAt_mixRows]
  have hl : s.ctx.ke.length = s.rounds + 1 := h1.1
  rw [elementAt_reverse hl hi, hw]
  simp only [Option.map_some]
  congr 1
  have : (s.rounds - i = 0 ∨ s.rounds - i = rounds s.ctx.keyLen s.ctx.blockSize) ↔ (i = 0 ∨ i = s.rounds) := by
    have : s.rounds = rounds s.ctx.keyLen s.ctx.blockSize := rfl
    omega
  simp only [this]

/-- With whole stores the round keys are a function of the context: no free value is read. -/
theorem roundKey_congr {s t : State} (hs : s.ctx.storesOk) (h : t.ctx = s.ctx) (dir : Dir) {m j : Nat} (hm : m ≤ s.rounds) (hj : j < s.bc) : t.roundKey dir m j = s.roundKey dir m j := by
  cases dir with
  | enc =>
    obtain ⟨w, hw⟩ := Option.isSome_iff_exists.1 ((elementAt_isSome hs.1 m j).2 ⟨hm, hj⟩)
    change t.keAt m j = s.keAt m j
    rw [keAt_of hw, keAt_of (by rw [h]; exact hw)]
  | dec =>
    obtain ⟨w, hw⟩ := Option.isSome_iff_exists.1 ((elementAt_isSome (mixRows_shape (reverse_shape hs.1)) m j).2 ⟨hm, hj⟩)
    change t.kdAt m j = s.kdAt m j
    rw [← hs.2] at hw
    rw [kdAt_of hw, kdAt_of (by rw [h]; exact hw)]

/-- With whole stores a block operation is a function of the context and the block. -/
theorem cipher_congr {s t : State} (hs : s.ctx.storesOk) (h : t.ctx = s.ctx) (dir : Dir) (b : List Byte) : t.cipher dir b = s.cipher dir b := by
  have h1 : t.bc = s.bc := by simp [State.bc, h]
  have h2 : t.rounds = s.rounds := by simp [State.rounds, h]
  rw [State.cipher, State.cipher, h1, h2]
  exact cipherBlock_congr (fun _ _ => rfl) (fun m j hm hj => roundKey_congr hs h dir hm hj)

theorem cipher_length {s : State} (hv : validSize s.ctx.blockSize = true) (dir : Dir) (b : List Byte) : (s.cipher dir b).length = s.ctx.blockSize := by
  simp [State.cipher, State.bc, four_mul_wordsOf hv]

end Sys2Proof.Machine
end

