-- ==== Sys2Proof/Laws/Sequencer.lean ====
section
/-! SUPPORT. The state machines, step by step: what each step of `FSM` is, what `copy_out` does, and what no step of a
running command can write. -/

namespace Sys2Proof.Machine

/-! ## Idle machines -/

/-- The part of the invariant that speaks of the context and the binding. -/
def State.settled (s : State) : Prop :=
  s.ctx.sizesOk ∧ (s.ctx.cfgValid = true → s.ctx.storesOk) ∧ s.bindingOk

theorem busy_false_iff (s : State) : s.busy = false ↔ s.dp.fsm = .idle ∧ s.kx.kfsm = .idle ∧ s.orch.cfsm = .idle := by
  simp [State.busy, and_assoc]

/-- Between commands the invariant is about the context and the binding alone. -/
theorem inv_idle {s : State} (h : s.busy = false) : s.Inv ↔ s.settled := by
  obtain ⟨h1, h2, h3⟩ := (busy_false_iff s).1 h
  simp [State.Inv, State.settled, State.datapathOk, State.expanderOk, State.orchestratorOk, State.rebuilding, h1, h2, h3]

theorem settled_congr {s t : State} (hc : t.ctx = s.ctx) (hb : t.binding = s.binding) : t.settled ↔ s.settled := by
  simp [State.settled, State.bindingOk, hc, hb]

theorem busy_of_fsm {s : State} (h : s.dp.fsm ≠ .idle) : s.busy = true := by simp [State.busy, h]

/-! ## Decoded words -/

theorem decode_isCommand (w : BitVec 8) (i : Instr) (h : decodeCmd8 w = .ok i) : i.isCommand = true := by
  have h1 : ∀ w : BitVec 8, (match decodeCmd8 w with | .ok i => i.isCommand | .error _ => true) = true := by
    decide +kernel
  have := h1 w
  rw [h] at this; exact this

theorem decodeUop5_mem {w : BitVec 5} {i : Instr} (h : decodeUop5 w = .ok i) :
    i ∈ (initOps ++ midOps ++ finalOps).map (·.1) := by
  have h1 : ∀ w : BitVec 5, (match decodeUop5 w with
      | .ok i => decide (i ∈ (initOps ++ midOps ++ finalOps).map (·.1)) | .error _ => true) = true := by
    decide +kernel
  have := h1 w
  rw [h] at this; simpa using this

/-! ## The block datapath -/

theorem stepBlock_load {s : State} (hb : validSize s.ctx.blockSize = true) (h : s.dp.fsm = .load) :
    s.stepBlock = .next (s.uopInit s.dp.dir s.bc) := by
  unfold State.stepBlock State.uopWord
  rw [h, State.bc]
  rcases wordsOf_cases hb with h1 | h1 | h1 <;> rw [h1] <;> cases s.dp.dir <;> rfl

theorem stepBlock_round {s : State} (hb : validSize s.ctx.blockSize = true) (h : s.dp.fsm = .round) :
    s.stepBlock = .next (s.uopMid s.dp.dir s.bc) := by
  unfold State.stepBlock State.uopWord
  rw [h, State.bc]
  rcases wordsOf_cases hb with h1 | h1 | h1 <;> rw [h1] <;> cases s.dp.dir <;> rfl

theorem stepBlock_final {s : State} (hb : validSize s.ctx.blockSize = true) (h : s.dp.fsm = .final) :
    s.stepBlock = .next (s.uopFinal s.dp.dir s.bc) := by
  unfold State.stepBlock State.uopWord
  rw [h, State.bc]
  rcases wordsOf_cases hb with h1 | h1 | h1 <;> rw [h1] <;> cases s.dp.dir <;> rfl

/-- `RND` stays within 0..14 where it is unspecified (R31). -/
theorem freeRnd_le (s : State) (slot : Config.CountSlot) : s.freeRnd slot ≤ 14 :=
  Nat.le_of_lt_succ (Nat.mod_lt _ (by decide))

/-- `DONE` of a block of a CBC message: the datapath idles, `RND` holds no value, the orchestrator goes on, and nothing
else changes (R166, R31, R217). -/
theorem blockDone_crypt {s : State} (h : s.orch.cfsm = .crypt) :
    s.blockDone = { s with
      dp := { s.dp with fsm := .idle, rnd := s.freeRnd (.rndIdle s.orch.blk) }
      orch := { s.orch with cfsm := if s.command = some .cbcEncrypt then .next else .xorOut } } := if_pos h

/-- `DONE` of a block command: the command ends with the output block (R166, R141, R155). -/
theorem blockDone_command {s : State} (h : s.orch.cfsm ≠ .crypt) :
    s.blockDone = s.releaseDatapath.respond s.dp.out := if_neg h

theorem stepBlock_done {s : State} (h : s.dp.fsm = .done) : s.stepBlock = .next s.blockDone := by
  simp [State.stepBlock, h]

theorem microStep_block {s : State} (h : s.dp.fsm ≠ .idle) : s.microStep = s.stepBlock := by simp [State.microStep, h]

/-- The words of `T` after a step that wrote the first of them. -/
theorem tAt_overlay {s : State} {new old : List Word} {d : Datapath} (hd : d.t = overlay new old) {j : Nat} (h : j < new.length) :
    State.tAt { s with dp := d } j = wordAt new j := by
  unfold State.tAt wordAt
  dsimp only
  rw [hd, overlay_getD_new _ h]
  exact getD_any h _ _

/-! ## The expander -/

/-- `w` words stored, row by row, in both stores, mirrored. -/
def State.stored (s : State) (w : Nat) : Prop :=
  let bc := wordsOf s.cmd.bsIn
  let r := Machine.rounds s.cmd.keyBuf.length s.cmd.bsIn
  s.kx.widx = w ∧ s.ctx.ke.length = r + 1 ∧
  (∀ i, i ≤ r → (s.ctx.ke.getD i []).length = min bc (w - i * bc)) ∧ s.ctx.kd = s.ctx.ke.reverse

/-- What `copy_out` leaves alone. -/
def State.sameButStores (s t : State) : Prop :=
  t = { s with ctx := { s.ctx with ke := t.ctx.ke, kd := t.ctx.kd }, kx := { s.kx with widx := t.kx.widx } }

theorem copyWord_same (s : State) (w : Word) : s.sameButStores (s.copyWord w) := by
  unfold State.copyWord State.sameButStores; dsimp only; split <;> rfl

theorem sameButStores_trans {s t u : State} (h : s.sameButStores t) (h' : t.sameButStores u) : s.sameButStores u := by
  unfold State.sameButStores at *
  rw [h] at h'; exact h'

/-- One pass of `copy_out` stores one more word, up to `N` (R125). -/
theorem copyWord_stored {s : State} {n : Nat} (w : Word) (hb : validSize s.cmd.bsIn = true) (h : s.stored n)
    (hn : n ≤ scheduleLength s.cmd.keyBuf.length s.cmd.bsIn) :
    (s.copyWord w).stored (min (n + 1) (scheduleLength s.cmd.keyBuf.length s.cmd.bsIn)) := by
  obtain ⟨h1, h2, h3, h4⟩ := h
  unfold State.copyWord
  dsimp only
  rw [h1]
  split
  · rename_i hlt
    have hbc : 0 < wordsOf s.cmd.bsIn := by rcases wordsOf_cases hb with h | h | h <;> omega
    generalize hbcd : wordsOf s.cmd.bsIn = bc at *
    have hN : scheduleLength s.cmd.keyBuf.length s.cmd.bsIn = (rounds s.cmd.keyBuf.length s.cmd.bsIn + 1) * bc := by
      rw [← hbcd]; rfl
    generalize scheduleLength s.cmd.keyBuf.length s.cmd.bsIn = N at *
    generalize hrd : rounds s.cmd.keyBuf.length s.cmd.bsIn = r at *
    have hq : n / bc < r + 1 := by rw [Nat.div_lt_iff_lt_mul hbc]; omega
    have hdm := Nat.div_add_mod n bc
    have hml := Nat.mod_lt n hbc
    rw [Nat.min_eq_left (by omega)]
    refine ⟨?_, ?_, ?_, ?_⟩
    · rfl
    · simp [h2, hrd]
    · intro i hi
      simp only [hrd, hbcd] at hi ⊢
      rw [storeWord_getD (by omega)]
      split
      · subst i
        rw [List.length_append, h3 _ (by omega)]
        simp
        have : n / bc * bc = bc * (n / bc) := Nat.mul_comm _ _
        omega
      · rw [h3 i hi]
        rcases Nat.lt_or_gt_of_ne ‹_› with hlt' | hgt
        · have : (i + 1) * bc ≤ n / bc * bc := Nat.mul_le_mul_right _ hlt'
          have h5 : n / bc * bc = bc * (n / bc) := Nat.mul_comm _ _
          rw [Nat.succ_mul] at this
          omega
        · have : (n / bc + 1) * bc ≤ i * bc := Nat.mul_le_mul_right _ hgt
          have h5 : n / bc * bc = bc * (n / bc) := Nat.mul_comm _ _
          rw [Nat.succ_mul] at this
          omega
    · simp only []
      rw [h4, storeWord_reverse _ (by simpa using h2) (by omega)]
  · have : n = scheduleLength s.cmd.keyBuf.length s.cmd.bsIn := by omega
    rw [Nat.min_eq_right (by omega), ← this]
    exact ⟨h1, h2, h3, h4⟩

/-- `copy_out` stores the words it is given, up to `N`, and touches nothing but the stores and `WIDX`. -/
theorem copyOut_fold (ws : List Word) : ∀ (s : State) (n : Nat), validSize s.cmd.bsIn = true → s.stored n →
    n ≤ scheduleLength s.cmd.keyBuf.length s.cmd.bsIn →
    (ws.foldl State.copyWord s).stored (min (n + ws.length) (scheduleLength s.cmd.keyBuf.length s.cmd.bsIn)) ∧
    s.sameButStores (ws.foldl State.copyWord s) := by
  induction ws with
  | nil => intro s n _ h hn; simp; rw [Nat.min_eq_left hn]; exact ⟨h, rfl⟩
  | cons w ws ih =>
    intro s n hb h hn
    have h1 := copyWord_stored w hb h hn
    have h2 := copyWord_same s w
    have hc : (s.copyWord w).cmd = s.cmd := by rw [h2]
    obtain ⟨h3, h4⟩ := ih (s.copyWord w) _ (by rw [hc]; exact hb) h1 (by rw [hc]; omega)
    refine ⟨?_, sameButStores_trans h2 h4⟩
    rw [hc] at h3
    rw [List.foldl_cons]
    convert h3 using 1
    simp; omega

theorem copyOut_same (s : State) : s.sameButStores s.copyOut := by
  have h : ∀ (ws : List Word) (s : State), s.sameButStores (ws.foldl State.copyWord s) := by
    intro ws
    induction ws with
    | nil => intro s; rfl
    | cons w ws ih => intro s; exact sameButStores_trans (copyWord_same s w) (ih _)
  exact h _ s

/-- What `copy_out` leaves alone, field by field. -/
theorem sameButStores_fields {s t : State} (h : s.sameButStores t) :
    t.ctx.cfgValid = s.ctx.cfgValid ∧ t.ctx.blockSize = s.ctx.blockSize ∧ t.ctx.keyLen = s.ctx.keyLen ∧
    t.binding = s.binding ∧ t.resp = s.resp ∧ t.dp = s.dp ∧ t.kx.tk = s.kx.tk ∧ t.kx.rcp = s.kx.rcp ∧
    t.kx.kfsm = s.kx.kfsm ∧ t.orch = s.orch ∧ t.cmd = s.cmd ∧ t.host = s.host ∧ t.epoch = s.epoch := by
  unfold State.sameButStores at h
  rw [h]; simp

/-- All `N` words stored is both stores whole (R24). -/
theorem shape_of_stored {s : State} (h : s.stored (scheduleLength s.cmd.keyBuf.length s.cmd.bsIn)) :
    storeShape s.ctx.ke (rounds s.cmd.keyBuf.length s.cmd.bsIn) (wordsOf s.cmd.bsIn) := by
  obtain ⟨h1, h2, h3, h4⟩ := h
  refine ⟨h2, fun row hrow => ?_⟩
  obtain ⟨i, hi, rfl⟩ := List.mem_iff_getElem.1 hrow
  have hi' : i ≤ rounds s.cmd.keyBuf.length s.cmd.bsIn := by omega
  have := h3 i hi'
  rw [List.getD_eq_getElem?_getD, List.getElem?_eq_getElem hi] at this
  simp only [Option.getD_some] at this
  rw [this]
  have : (i + 1) * wordsOf s.cmd.bsIn ≤ scheduleLength s.cmd.keyBuf.length s.cmd.bsIn :=
    Nat.mul_le_mul_right _ (by omega)
  rw [Nat.succ_mul] at this
  omega

theorem loadKey_stored (s : State) : s.loadKey.stored 0 := by
  refine ⟨rfl, by simp, fun i hi => ?_, by simp⟩
  simp [List.getD_eq_getElem?_getD, List.getElem?_replicate]
  split <;> rfl

theorem key_lt_schedule {klen bs : Nat} (hk : validSize klen = true) (hb : validSize bs = true) :
    wordsOf klen < scheduleLength klen bs := by
  rcases (validSize_iff klen).1 hk with rfl | rfl | rfl <;> rcases (validSize_iff bs).1 hb with rfl | rfl | rfl <;> decide

/-! ## What no step of a running command writes -/

/-- The operands and the host's moves stay; the context stays unless the expander runs, and a constructed engine
stays constructed. -/
structure KeptBy (s t : State) : Prop where
  cmd : t.cmd = s.cmd
  host : t.host = s.host
  ctx : s.kx.kfsm = .idle ∨ s.dp.fsm ≠ .idle → t.ctx = s.ctx
  cfg : s.ctx.cfgValid = true → t.ctx.cfgValid = true

theorem kept_of_ctx {s t : State} (h1 : t.cmd = s.cmd) (h2 : t.host = s.host) (h3 : t.ctx = s.ctx) : KeptBy s t :=
  ⟨h1, h2, fun _ => h3, fun h => by rw [h3]; exact h⟩

theorem exec_uop_kept {i : Instr} {w : BitVec 5} (h : decodeUop5 w = .ok i) {s t : State} (ht : exec i s = .next t) : KeptBy s t := by
  have h1 := decodeUop5_mem h
  simp only [List.mem_map, List.mem_append] at h1
  obtain ⟨p, hp, rfl⟩ := h1
  rcases hp with (hp | hp) | hp
  · rw [exec_init hp] at ht; obtain rfl := Host.Outcome.next.inj ht; exact kept_of_ctx rfl rfl rfl
  · rw [exec_mid hp] at ht; obtain rfl := Host.Outcome.next.inj ht; exact kept_of_ctx rfl rfl rfl
  · rw [exec_final hp] at ht; obtain rfl := Host.Outcome.next.inj ht; exact kept_of_ctx rfl rfl rfl

theorem stepBlock_kept {s t : State} (h : s.stepBlock = .next t) : KeptBy s t := by
  unfold State.stepBlock at h
  split at h
  · obtain rfl := Host.Outcome.next.inj h
    by_cases hc : s.orch.cfsm = .crypt
    · rw [blockDone_crypt hc]; exact kept_of_ctx rfl rfl rfl
    · rw [blockDone_command hc]; exact kept_of_ctx rfl rfl rfl
  · cases hd : decodeUop5 s.uopWord with
    | error r => rw [hd] at h; cases h
    | ok i => rw [hd] at h; exact exec_uop_kept hd h

theorem stepExpander_kept {s t : State} (hf : s.dp.fsm = .idle) (hk : s.kx.kfsm ≠ .idle) (h : s.stepExpander = .next t) : KeptBy s t := by
  have mk : t.cmd = s.cmd → t.host = s.host → (s.ctx.cfgValid = true → t.ctx.cfgValid = true) → KeptBy s t :=
    fun a b c => ⟨a, b, fun h => by rcases h with h | h <;> contradiction, c⟩
  unfold State.stepExpander at h
  split at h
  · contradiction
  · split at h <;> obtain rfl := Host.Outcome.next.inj h <;> exact kept_of_ctx rfl rfl rfl
  · obtain rfl := Host.Outcome.next.inj h
    obtain ⟨e1, e2, e3, e4, e5, e6, e7, e8, e9, e10, e11, e12, e13⟩ := sameButStores_fields (copyOut_same s.loadKey)
    exact mk e11 e12 (fun hh => by rw [← hh]; exact e1)
  · obtain rfl := Host.Outcome.next.inj h
    obtain ⟨e1, e2, e3, e4, e5, e6, e7, e8, e9, e10, e11, e12, e13⟩ := sameButStores_fields (copyOut_same s.updateKey)
    exact mk e11 e12 (fun hh => by rw [← hh]; exact e1)
  · obtain rfl := Host.Outcome.next.inj h; exact mk rfl rfl (fun h => h)
  · split at h <;> try cases h
    all_goals exact mk (by simp) (by simp) (fun _ => by rw [State.commitKey_ctx])

theorem stepOrchestrator_kept {s t : State} (h : s.stepOrchestrator = .next t) : KeptBy s t := by
  unfold State.stepOrchestrator at h
  split at h
  · cases h
  · rename_i i _
    split at h
    · obtain rfl := Host.Outcome.next.inj h; exact kept_of_ctx rfl rfl rfl
    all_goals
      cases i <;>
      simp only [State.checkOrchestrator, State.padOrchestrator, State.xorInOrchestrator, State.cryptOrchestrator, State.xorOutOrchestrator, State.nextOrchestrator, State.unpadOrchestrator, State.doneOrchestrator] at h <;>
      repeat' split at h
    all_goals first | (cases h; done) | (obtain rfl := Host.Outcome.next.inj h; exact kept_of_ctx rfl rfl rfl)

theorem microStep_kept {s t : State} (h : s.microStep = .next t) : KeptBy s t := by
  unfold State.microStep at h
  split at h
  · exact stepBlock_kept h
  · split at h
    · exact stepExpander_kept (by simpa using ‹¬ s.dp.fsm ≠ _›) ‹_› h
    · exact stepOrchestrator_kept h

/-- A step of a running command, taken. -/
theorem microRun_succ {s t : State} (hb : s.busy = true) (h : s.microStep = .next t) (n : Nat) : State.microRun (n + 1) s = State.microRun n t := by
  rw [State.microRun, if_pos hb, h]

end Sys2Proof.Machine
end

