-- ==== Sys2Proof/Tests/Slice0.lean ====
section
/-! SUPPORT. Tests of the model, and for each statement that has hypotheses a state and operands that meet them.
Expected values come from spec/95_test_vectors.md (the section is named at each test) and from the encodings of
spec/opcode_table.json; none is the model's own answer. -/

open Sys2Proof Sys2Proof.Machine

namespace Sys2Proof.Tests

-- One kernel evaluation at a time: many at once exhaust the threads of a small machine.
set_option Elab.async false

/-! ## WellFormed: one ill-formed term a check, refused by the check and by the decoder -/

theorem test_wf_zero_bits : (Cmd8.mk 1 0 0x1).zeroOk = false ∧ (Cmd8.mk 1 0 0x1).wf = false := by decide
theorem test_wf_opc : (Cmd8.mk 0 0 0x7).opcOk = false ∧ (Cmd8.mk 0 0 0x7).wf = false := by decide
theorem test_wf_padsel : (Cmd8.mk 0 1 0x5).padselOk = false ∧ (Cmd8.mk 0 1 0x5).wf = false := by decide
theorem test_wf_rsel : (Uop5.mk 0 3 0).rselOk = false ∧ (Uop5.mk 0 3 0).wf = false := by decide
theorem test_wf_sc : (Uop5.mk 1 0 3).scOk = false ∧ (Uop5.mk 1 0 3).wf = false := by decide

/-! ## Decoding: every row of spec/opcode_table.json, its "encoding" written out bit by bit -/

theorem test_decode_engineNew : decodeCmd8 0b00000001#8 = .ok .engineNew := by decide
theorem test_decode_engineEncrypt : decodeCmd8 0b00000010#8 = .ok .engineEncrypt := by decide
theorem test_decode_engineDecrypt : decodeCmd8 0b00000011#8 = .ok .engineDecrypt := by decide
theorem test_decode_cbcNewZ : decodeCmd8 0b00000100#8 = .ok .cbcNewZ := by decide
theorem test_decode_cbcNewP : decodeCmd8 0b00010100#8 = .ok .cbcNewP := by decide
theorem test_decode_cbcEncrypt : decodeCmd8 0b00000101#8 = .ok .cbcEncrypt := by decide
theorem test_decode_cbcDecrypt : decodeCmd8 0b00000110#8 = .ok .cbcDecrypt := by decide
theorem test_decode_pad : decodeCmd8 0b00001000#8 = .ok .pad := by decide
theorem test_decode_unpad : decodeCmd8 0b00001001#8 = .ok .unpad := by decide
theorem test_decode_uopEncInit4 : decodeUop5 0b00000#5 = .ok .uopEncInit4 := by decide
theorem test_decode_uopEncInit6 : decodeUop5 0b00001#5 = .ok .uopEncInit6 := by decide
theorem test_decode_uopEncInit8 : decodeUop5 0b00010#5 = .ok .uopEncInit8 := by decide
theorem test_decode_uopEncMid4 : decodeUop5 0b00100#5 = .ok .uopEncMid4 := by decide
theorem test_decode_uopEncMid6 : decodeUop5 0b00101#5 = .ok .uopEncMid6 := by decide
theorem test_decode_uopEncMid8 : decodeUop5 0b00110#5 = .ok .uopEncMid8 := by decide
theorem test_decode_uopEncFinal4 : decodeUop5 0b01000#5 = .ok .uopEncFinal4 := by decide
theorem test_decode_uopEncFinal6 : decodeUop5 0b01001#5 = .ok .uopEncFinal6 := by decide
theorem test_decode_uopEncFinal8 : decodeUop5 0b01010#5 = .ok .uopEncFinal8 := by decide
theorem test_decode_uopDecInit4 : decodeUop5 0b10000#5 = .ok .uopDecInit4 := by decide
theorem test_decode_uopDecInit6 : decodeUop5 0b10001#5 = .ok .uopDecInit6 := by decide
theorem test_decode_uopDecInit8 : decodeUop5 0b10010#5 = .ok .uopDecInit8 := by decide
theorem test_decode_uopDecMid4 : decodeUop5 0b10100#5 = .ok .uopDecMid4 := by decide
theorem test_decode_uopDecMid6 : decodeUop5 0b10101#5 = .ok .uopDecMid6 := by decide
theorem test_decode_uopDecMid8 : decodeUop5 0b10110#5 = .ok .uopDecMid8 := by decide
theorem test_decode_uopDecFinal4 : decodeUop5 0b11000#5 = .ok .uopDecFinal4 := by decide
theorem test_decode_uopDecFinal6 : decodeUop5 0b11001#5 = .ok .uopDecFinal6 := by decide
theorem test_decode_uopDecFinal8 : decodeUop5 0b11010#5 = .ok .uopDecFinal8 := by decide

/-! Reserved words (section 8). -/

theorem test_reserved_words :
    decodeCmd8 0x00 = .error .opc ∧ decodeCmd8 0x07 = .error .opc ∧ decodeCmd8 0x0a = .error .opc ∧
    decodeCmd8 0x0f = .error .opc ∧ decodeCmd8 0x10 = .error .opc ∧ decodeCmd8 0x1f = .error .opc ∧
    decodeCmd8 0x11 = .error .padsel ∧ decodeCmd8 0x19 = .error .padsel ∧
    decodeCmd8 0x21 = .error .zeroBits ∧ decodeCmd8 0xff = .error .zeroBits ∧
    decodeUop5 0x03 = .error .sc ∧ decodeUop5 0x0c = .error .rsel ∧ decodeUop5 0x1f = .error .rsel := by decide

/-- The empty byte string holds no command; the first byte is the command (R70). -/
theorem test_decode_bytes : decodeBytes [] = .error .noWord ∧ decodeBytes [0x06, 0xff] = .ok (.cbcDecrypt,
      [0xff]) := by
  decide

/-- Rows of the table, by their widths; of 8 bits, a word that is a command is the command (log entry 8). -/
theorem test_table_words :
    decodeTableWord 8 0x14 = some .cbcNewP ∧ decodeTableWord 5 0x14 = some .uopDecMid4 ∧
    decodeTableWord 8 0x1a = some .uopDecFinal8 ∧ decodeTableWord 8 0x17 = none := by decide

/-! ## States -/

/-- `pat(n)` of section 0 of the vectors. -/
def pat (n : Nat) : List Byte := (List.range n).map fun i => BitVec.ofNat 8 (0x11 * i)

/-- `key(n)` of section 0 of the vectors. -/
def key (n : Nat) : List Byte := (List.range n).map (BitVec.ofNat 8)

/-- The IV of section 6.2. -/
def iv : List Byte := [0x10, 0x11, 0x12, 0x13, 0x14, 0x15, 0x16, 0x17, 0x18, 0x19, 0x1a, 0x1b, 0x1c, 0x1d, 0x1e,
      0x1f]

/-- `KE` for `key(16)` and block size 16, as section 3.2 lists it. -/
def ke16 : List (List Word) :=
  [[0x00010203, 0x04050607, 0x08090a0b, 0x0c0d0e0f],
   [0xd6aa74fd, 0xd2af72fa, 0xdaa678f1, 0xd6ab76fe],
   [0xb692cf0b, 0x643dbdf1, 0xbe9bc500, 0x6830b3fe],
   [0xb6ff744e, 0xd2c2c9bf, 0x6c590cbf, 0x0469bf41],
   [0x47f7f7bc, 0x95353e03, 0xf96c32bc, 0xfd058dfd],
   [0x3caaa3e8, 0xa99f9deb, 0x50f3af57, 0xadf622aa],
   [0x5e390f7d, 0xf7a69296, 0xa7553dc1, 0x0aa31f6b],
   [0x14f9701a, 0xe35fe28c, 0x440adf4d, 0x4ea9c026],
   [0x47438735, 0xa41c65b9, 0xe016baf4, 0xaebf7ad2],
   [0x549932d1, 0xf0855768, 0x1093ed9c, 0xbe2c974e],
   [0x13111d7f, 0xe3944a17, 0xf307a78b, 0x4d2b30c5]]

/-- `KD` for `key(16)` and block size 16, as section 3.2 lists it. -/
def kd16 : List (List Word) :=
  [[0x13111d7f, 0xe3944a17, 0xf307a78b, 0x4d2b30c5],
   [0x13aa29be, 0x9c8faff6, 0xf770f580, 0x00f7bf03],
   [0x1362a463, 0x8f258648, 0x6bff5a76, 0xf7874a83],
   [0x8d82fc74, 0x9c47222b, 0xe4dadc3e, 0x9c7810f5],
   [0x72e3098d, 0x11c5de5f, 0x789dfe15, 0x78a2cccb],
   [0x2ec41027, 0x6326d7d2, 0x6958204a, 0x003f32de],
   [0xa8a2f504, 0x4de2c7f5, 0x0a7ef798, 0x69671294],
   [0xc7c6e391, 0xe54032f1, 0x479c306d, 0x6319e50c],
   [0xa0db0299, 0x2286d160, 0xa2dc029c, 0x2485d561],
   [0x8c56dff0, 0x825dd3f9, 0x805ad3fc, 0x8659d7fd],
   [0x00010203, 0x04050607, 0x08090a0b, 0x0c0d0e0f]]

/-- `E16` of section 7: after `ENGINE_NEW bs=16, key=key(16)`. -/
def e16 : State :=
  { State.reset with ctx := { cfgValid := true, blockSize := 16, keyLen := 16, ke := ke16, kd := kd16 } }

/-- `Z16` and `P16` of section 7: after `CBC_NEW.Z`, `CBC_NEW.P` with the same operands. -/
def z16 : State := { e16 with binding := { padMode := .zero, padSize := 16 } }
def p16 : State := { e16 with binding := { padMode := .pkcs7, padSize := 16 } }

/-- A state with other operands latched. -/
def latched (s : State) (c : Command) : State := { s with cmd := c }

/-- A command with only data, and one with data and an IV. -/
def data (din : List Byte) : Command := { word := 0, bsIn := 0, keyBuf := [], ivBuf := [], din := din }
def message (iv din : List Byte) : Command := { word := 0, bsIn := 0, keyBuf := [], ivBuf := iv, din := din }

/-- A constructor's operands. -/
def sizes (bs : Nat) (key : List Byte) : Command := { word := 1, bsIn := bs, keyBuf := key, ivBuf := [], din := [] }

/-- The state after a step that has one. -/
def stateOf (a : Answer) : Option State :=
  match a with
  | .next t    => some t
  | .fault _   => none
  | .refused _ => none

/-- One step of `s` with the host issuing the command word `w` with the operands of `c`. -/
def issued (s : State) (w : Byte) (c : Command) : Option State :=
  stateOf (step { s with host := [.issue { c with word := w }] })

/-- Its response: 0 to 3 the status code of R74, then the data. -/
def respOf (t : Option State) : Option (BitVec 2 × List Byte) := t.map fun t => (t.resp.status.code, t.resp.dout)

/-! ## Commands, one step each -/

/-- Section 3.2: both stores, whole; R123: unbound. -/
theorem test_engineNew : (issued .reset 0x01 (sizes 16 (key 16))).map (fun t => (t.ctx, t.binding.padSize)) =
    some (e16.ctx, 0) := by decide +kernel

/-- Section 7. -/
theorem test_engineNew_both_illegal :
    respOf (issued e16 0x01 (sizes 20 (key 15))) = some (2, []) ∧
    respOf (issued e16 0x01 (sizes 16 (key 33))) = some (3, []) := by decide +kernel

/-- Section 1.2: the source's key at block size 32, and R206. -/
theorem test_cbcNewZ : (issued .reset 0x04 (sizes 32 [0x6f, 0x73, 0x75, 0x21, 0x2d, 0x73, 0x63, 0x6f, 0x72, 0x65,
      0x62, 0x75, 0x72, 0x67, 0x72, 0x2d, 0x2d, 0x2d, 0x2d, 0x2d, 0x2d, 0x2d, 0x2d, 0x2d, 0x32, 0x30, 0x32, 0x31,
      0x30, 0x35, 0x32, 0x30])).map
    (fun t => (t.keAt 14 7, t.kdAt 1 0, t.binding)) =
    some (0xf96e4506, 0x59a8d238, { padMode := .zero, padSize := 32 }) := by decide +kernel

/-- Section 3.2: the last words of `key(32)` at block size 24, and R206. -/
theorem test_cbcNewP : (issued .reset 0x14 (sizes 24 (key 32))).map
    (fun t => (t.keAt 14 5, t.kdAt 13 0, t.binding)) =
    some (0xf86627aa, 0x12171015, { padMode := .pkcs7, padSize := 24 }) := by decide +kernel

/-- Section 2, and section 7 (a block of another size). -/
theorem test_engineEncrypt : respOf (issued e16 0x02 (data (pat 16))) =
    some (0, [0x69, 0xc4, 0xe0, 0xd8, 0x6a, 0x7b, 0x04, 0x30, 0xd8, 0xcd, 0xb7, 0x80, 0x70, 0xb4, 0xc5,
      0x5a]) := by decide +kernel
theorem test_engineEncrypt_size : respOf (issued e16 0x02 (data (pat 24))) = some (2, []) := by decide +kernel

/-- Section 2, and section 7 (no engine). -/
theorem test_engineDecrypt : respOf (issued e16 0x03 (data [0x69, 0xc4, 0xe0, 0xd8, 0x6a, 0x7b, 0x04, 0x30, 0xd8,
      0xcd, 0xb7, 0x80, 0x70, 0xb4, 0xc5, 0x5a])) =
    some (0, pat 16) := by decide +kernel
theorem test_engineDecrypt_fresh : respOf (issued .reset 0x03 (data (pat 16))) = some (2, []) := by decide +kernel

/-- Section 6.2: 19 bytes under zero padding, 16 zeros under PKCS#7. -/
theorem test_cbcEncrypt_zero : respOf (issued z16 0x05 (message iv (pat 16 ++ [0x61, 0x62, 0x63]))) =
    some (0, [0x1e, 0xca, 0x87, 0x0f, 0xfe, 0xa1, 0x14, 0xb7, 0xfd, 0x6c, 0xf3, 0x63, 0xc3, 0x0b, 0x96, 0xb1, 0xd3,
      0x68, 0x7e, 0x73, 0x9b, 0x66, 0xe5, 0xfa, 0xc6, 0xd2, 0xe9, 0xb9, 0x15, 0x97, 0x69,
      0x8c]) := by decide +kernel
theorem test_cbcEncrypt_pkcs7 : respOf (issued p16 0x05 (message iv (rep 0 16))) =
    some (0, [0x07, 0xfe, 0xef, 0x74, 0xe1, 0xd5, 0x03, 0x6e, 0x90, 0x0e, 0xee, 0x11, 0x8e, 0x94, 0x92, 0x93, 0x02,
      0x40, 0x74, 0x1d, 0xf9, 0x57, 0xa0, 0x16, 0xda, 0xe9, 0x25, 0xbc, 0x18, 0x37, 0x2e,
      0xdd]) := by decide +kernel

/-- Section 6.2: the ciphertext above under PKCS#7; section 7: a ragged length is reported before a wrong IV. -/
theorem test_cbcDecrypt : respOf (issued p16 0x06 (message iv [0x07, 0xfe, 0xef, 0x74, 0xe1, 0xd5, 0x03, 0x6e,
      0x90, 0x0e, 0xee, 0x11, 0x8e, 0x94, 0x92, 0x93, 0x02, 0x40, 0x74, 0x1d, 0xf9, 0x57, 0xa0, 0x16, 0xda, 0xe9,
      0x25, 0xbc, 0x18, 0x37, 0x2e, 0xdd])) = some (0, rep 0 16) := by decide +kernel
theorem test_cbcDecrypt_order : respOf (issued z16 0x06 (message (iv.take 15) (rep 0 17))) = some (1, []) := by
  decide +kernel

/-- Section 5.2. -/
theorem test_pad : respOf (issued z16 0x08 (data [1, 2, 3, 0, 0])) = some (0, [1, 2, 3] ++ rep 0 13) ∧
    respOf (issued p16 0x08 (data [0x61, 0x62, 0x63])) = some (0, [0x61, 0x62,
      0x63] ++ rep 0x0d 13) := by decide +kernel
theorem test_pad_unbound : respOf (issued e16 0x08 (data [0x61])) = some (2, []) := by decide +kernel

/-- Section 5.2. -/
theorem test_unpad_zero : respOf (issued z16 0x09 (data (rep 0 32))) = some (0, rep 0 17) ∧
    respOf (issued z16 0x09 (data (rep 0 17))) = some (1, []) := by decide +kernel
theorem test_unpad_pkcs7 : respOf (issued p16 0x09 (data (rep 0x11 32))) = some (0, rep 0x11 15) ∧
    respOf (issued p16 0x09 (data (rep 0x21 32))) = some (1, []) := by decide +kernel

/-! ## Micro-operations, one step each: the round traces of section 4.3 -/

/-- A state in the middle of a block operation: the key row `r` of the direction, the words of `T`, the counter. -/
def running (dir : Dir) (bs klen r : Nat) (row : List Word) (fsm : Fsm) (t : List Word) (rnd : Nat) (blk : List Byte) : State :=
  { State.reset with
    ctx := { cfgValid := true, blockSize := bs, keyLen := klen,
             ke := List.replicate r [] ++ (match dir with | .enc => [row] | .dec => []),
             kd := List.replicate r [] ++ (match dir with | .dec => [row] | .enc => []) }
    dp  := { State.reset.dp with t := t, rnd := rnd, fsm := fsm, dir := dir, blkIn := blk } }

theorem test_uopEncInit4 : (stateOf (step (running .enc 16 16 0 [0x00010203, 0x04050607, 0x08090a0b,
      0x0c0d0e0f] .load [] 0 (pat 16)))).map
    (fun s => (s.dp.t, s.dp.rnd, s.dp.fsm)) = some ([0x00102030, 0x40506070, 0x8090a0b0, 0xc0d0e0f0], 1,
      .round) := by decide +kernel
theorem test_uopEncMid4 : (stateOf (step (running .enc 16 16 1 [0xd6aa74fd, 0xd2af72fa, 0xdaa678f1,
      0xd6ab76fe] .round [0x00102030, 0x40506070, 0x8090a0b0, 0xc0d0e0f0] 1 []))).map
    (fun s => (s.dp.t, s.dp.a, s.dp.rnd, s.dp.fsm)) = some ([0x89d810e8, 0x855ace68, 0x2d1843d8, 0xcb128fe4],
      [0x89d810e8, 0x855ace68, 0x2d1843d8, 0xcb128fe4], 2, .round) := by decide +kernel
theorem test_uopEncFinal4 : (stateOf (step (running .enc 16 16 10 [0x13111d7f, 0xe3944a17, 0xf307a78b,
      0x4d2b30c5] .final [0xbd6e7c3d, 0xf2b5779e, 0x0b61216e, 0x8b10b689] 10 []))).map
    (fun s => (s.dp.out, s.dp.rnd, s.dp.fsm)) = some ([0x69, 0xc4, 0xe0, 0xd8, 0x6a, 0x7b, 0x04, 0x30, 0xd8, 0xcd,
      0xb7, 0x80, 0x70, 0xb4, 0xc5, 0x5a], 10, .done) := by decide +kernel
theorem test_uopDecInit4 : (stateOf (step (running .dec 16 16 0 [0x13111d7f, 0xe3944a17, 0xf307a78b,
      0x4d2b30c5] .load [] 0 [0x69, 0xc4, 0xe0, 0xd8, 0x6a, 0x7b, 0x04, 0x30, 0xd8, 0xcd, 0xb7, 0x80, 0x70, 0xb4,
      0xc5, 0x5a]))).map
    (fun s => (s.dp.t, s.dp.rnd, s.dp.fsm)) = some ([0x7ad5fda7, 0x89ef4e27, 0x2bca100b, 0x3d9ff59f], 1,
      .round) := by decide +kernel
theorem test_uopDecMid4 : (stateOf (step (running .dec 16 16 1 [0x13aa29be, 0x9c8faff6, 0xf770f580,
      0x00f7bf03] .round [0x7ad5fda7, 0x89ef4e27, 0x2bca100b, 0x3d9ff59f] 1 []))).map
    (fun s => (s.dp.t, s.dp.a, s.dp.rnd, s.dp.fsm)) = some ([0x54d990a1, 0x6ba09ab5, 0x96bbf40e, 0xa111702f],
      [0x54d990a1, 0x6ba09ab5, 0x96bbf40e, 0xa111702f], 2, .round) := by decide +kernel
theorem test_uopDecFinal4 : (stateOf (step (running .dec 16 16 10 [0x00010203, 0x04050607, 0x08090a0b,
      0x0c0d0e0f] .final [0x6353e08c, 0x0960e104, 0xcd70b751, 0xbacad0e7] 10 []))).map
    (fun s => (s.dp.out, s.dp.rnd, s.dp.fsm)) = some ([0x00, 0x11, 0x22, 0x33, 0x44, 0x55, 0x66, 0x77, 0x88, 0x99,
      0xaa, 0xbb, 0xcc, 0xdd, 0xee, 0xff], 10, .done) := by decide +kernel
theorem test_uopEncInit6 : (stateOf (step (running .enc 24 32 0 [0x00010203, 0x04050607, 0x08090a0b, 0x0c0d0e0f,
      0x10111213, 0x14151617] .load [] 0 (pat 24)))).map
    (fun s => (s.dp.t, s.dp.rnd, s.dp.fsm)) = some ([0x00102030, 0x40506070, 0x8090a0b0, 0xc0d0e0f0, 0x00302050,
      0x40706090], 1, .round) := by decide +kernel
theorem test_uopEncMid6 : (stateOf (step (running .enc 24 32 1 [0x18191a1b, 0x1c1d1e1f, 0xa573c29f, 0xa176c498,
      0xa97fce93, 0xa572c09c] .round [0x00102030, 0x40506070, 0x8090a0b0, 0xc0d0e0f0, 0x00302050,
      0x40706090] 1 []))).map
    (fun s => (s.dp.t, s.dp.a, s.dp.rnd, s.dp.fsm)) = some ([0x476b7e0e, 0x1cbf5b23, 0x63fcaad4, 0x16abcd91,
      0x7a2d7a72, 0xc5788a48], [0x476b7e0e, 0x1cbf5b23, 0x63fcaad4, 0x16abcd91, 0x7a2d7a72, 0xc5788a48], 2,
      .round) := by decide +kernel
theorem test_uopEncFinal6 : (stateOf (step (running .enc 24 32 14 [0x9fe79ee4, 0x1484224d, 0xaf8ca6d0, 0x4cadc845,
      0x04b9e6db, 0xf86627aa] .final [0x14769dd1, 0xf9251f7c, 0x433a5f9a, 0xac1c8549, 0xb24bd9dc,
      0xc9b9af73] 14 []))).map
    (fun s => (s.dp.out, s.dp.rnd, s.dp.fsm)) = some ([0x65, 0xd8, 0x51, 0xdf, 0x8d, 0x04, 0xb5, 0xcb, 0xb5, 0x10,
      0x93, 0x5f, 0xdd, 0x1e, 0xb1, 0x7b, 0x33, 0xef, 0xb8, 0xcb, 0x25, 0x5e, 0xe7, 0x12], 14,
      .done) := by decide +kernel
theorem test_uopDecInit6 : (stateOf (step (running .dec 24 32 0 [0x9fe79ee4, 0x1484224d, 0xaf8ca6d0, 0x4cadc845,
      0x04b9e6db, 0xf86627aa] .load [] 0 [0x65, 0xd8, 0x51, 0xdf, 0x8d, 0x04, 0xb5, 0xcb, 0xb5, 0x10, 0x93, 0x5f,
      0xdd, 0x1e, 0xb1, 0x7b, 0x33, 0xef, 0xb8, 0xcb, 0x25, 0x5e, 0xe7, 0x12]))).map
    (fun s => (s.dp.t, s.dp.rnd, s.dp.fsm)) = some ([0xfa3fcf3b, 0x99809786, 0x1a9c358f, 0x91b3793e, 0x37565e10,
      0xdd38c0b8], 1, .round) := by decide +kernel
theorem test_uopDecMid6 : (stateOf (step (running .dec 24 32 1 [0xb7e4c73e, 0x94b36b75, 0x4d7e8f6a, 0x290a2999,
      0x1196a4da, 0x2c5a290e] .round [0xfa3fcf3b, 0x99809786, 0x1a9c358f, 0x91b3793e, 0x37565e10,
      0xdd38c0b8] 1 []))).map
    (fun s => (s.dp.t, s.dp.a, s.dp.rnd, s.dp.fsm)) = some ([0x30b09591, 0x4bad3757, 0xa7131ac4, 0xebc13aff,
      0xa0d59ded, 0x3d711dac], [0x30b09591, 0x4bad3757, 0xa7131ac4, 0xebc13aff, 0xa0d59ded, 0x3d711dac], 2,
      .round) := by decide +kernel
theorem test_uopDecFinal6 : (stateOf (step (running .dec 24 32 14 [0x00010203, 0x04050607, 0x08090a0b, 0x0c0d0e0f,
      0x10111213, 0x14151617] .final [0x6353e08c, 0x0960e153, 0xcd70b760, 0xba04d004, 0x6351b751,
      0x09cad0e7] 14 []))).map
    (fun s => (s.dp.out, s.dp.rnd, s.dp.fsm)) = some ([0x00, 0x11, 0x22, 0x33, 0x44, 0x55, 0x66, 0x77, 0x88, 0x99,
      0xaa, 0xbb, 0xcc, 0xdd, 0xee, 0xff, 0x10, 0x21, 0x32, 0x43, 0x54, 0x65, 0x76, 0x87], 14,
      .done) := by decide +kernel
theorem test_uopEncInit8 : (stateOf (step (running .enc 32 24 0 [0x00010203, 0x04050607, 0x08090a0b, 0x0c0d0e0f,
      0x10111213, 0x14151617, 0x5846f2f9, 0x5c43f4fe] .load [] 0 (pat 32)))).map
    (fun s => (s.dp.t, s.dp.rnd, s.dp.fsm)) = some ([0x00102030, 0x40506070, 0x8090a0b0, 0xc0d0e0f0, 0x00302050,
      0x40706090, 0xc0ef4832, 0x80ae0af1], 1, .round) := by decide +kernel
theorem test_uopEncMid8 : (stateOf (step (running .enc 32 24 1 [0x544afef5, 0x5847f0fa, 0x4856e2e9, 0x5c43f4fe,
      0x40f949b3, 0x1cbabd4d, 0x48f043b8, 0x10b7b342] .round [0x00102030, 0x40506070, 0x8090a0b0, 0xc0d0e0f0,
      0x00302050, 0x40706090, 0xc0ef4832, 0x80ae0af1] 1 []))).map
    (fun s => (s.dp.t, s.dp.a, s.dp.rnd, s.dp.fsm)) = some ([0xd5e4e244, 0x3d2c4cf6, 0xaa338143, 0xcca61624,
      0x1695b928, 0x9285ed9c, 0x2715948c, 0xb842e027], [0xd5e4e244, 0x3d2c4cf6, 0xaa338143, 0xcca61624, 0x1695b928,
      0x9285ed9c, 0x2715948c, 0xb842e027], 2, .round) := by decide +kernel
theorem test_uopEncFinal8 : (stateOf (step (running .enc 32 24 14 [0x64a3ec30, 0x7c91618b, 0xdfe397d1, 0x3ff9a154,
      0x70f99309, 0x1781da40, 0x73223670, 0x0fb357fb] .final [0x5eb55669, 0xade81872, 0xdc91efd5, 0xab867322,
      0x49a1ed29, 0x20405c51, 0x23fe0331, 0xf867e028] 14 []))).map
    (fun s => (s.dp.out, s.dp.rnd, s.dp.fsm)) = some ([0x3c, 0x38, 0x63, 0x95, 0xe9, 0x10, 0x34, 0x5a, 0x59, 0xa7,
      0xdd, 0x16, 0x5d, 0xcb, 0xda, 0x60, 0x4b, 0xf0, 0x72, 0xf0, 0xa0, 0x3a, 0x6b, 0x00, 0x55, 0xa7, 0x9b, 0x73,
      0x4e, 0x66, 0x88, 0x68], 14, .done) := by decide +kernel
theorem test_uopDecInit8 : (stateOf (step (running .dec 32 24 0 [0x64a3ec30, 0x7c91618b, 0xdfe397d1, 0x3ff9a154,
      0x70f99309, 0x1781da40, 0x73223670, 0x0fb357fb] .load [] 0 [0x3c, 0x38, 0x63, 0x95, 0xe9, 0x10, 0x34, 0x5a,
      0x59, 0xa7, 0xdd, 0x16, 0x5d, 0xcb, 0xda, 0x60, 0x4b, 0xf0, 0x72, 0xf0, 0xa0, 0x3a, 0x6b, 0x00, 0x55, 0xa7,
      0x9b, 0x73, 0x4e, 0x66, 0x88, 0x68]))).map
    (fun s => (s.dp.t, s.dp.rnd, s.dp.fsm)) = some ([0x589b8fa5, 0x958155d1, 0x86444ac7, 0x62327b34, 0x3b09e1f9,
      0xb7bbb140, 0x2685ad03, 0x41d5df93], 1, .round) := by decide +kernel
theorem test_uopDecMid8 : (stateOf (step (running .dec 32 24 1 [0x480f311f, 0x03092e1b, 0x22bd8c17, 0xd2b97f08,
      0x89feaa87, 0x4d3f0932, 0x0530382d, 0x06391636] .round [0x589b8fa5, 0x958155d1, 0x86444ac7, 0x62327b34,
      0x3b09e1f9, 0xb7bbb140, 0x2685ad03, 0x41d5df93] 1 []))).map
    (fun s => (s.dp.t, s.dp.a, s.dp.rnd, s.dp.fsm)) = some ([0xd514176b, 0x8a084cde, 0x4a393939, 0xdfd95234,
      0xfa86252f, 0x6e2b8ced, 0xd1e809ff, 0x62b5c45b], [0xd514176b, 0x8a084cde, 0x4a393939, 0xdfd95234, 0xfa86252f,
      0x6e2b8ced, 0xd1e809ff, 0x62b5c45b], 2, .round) := by decide +kernel
theorem test_uopDecFinal8 : (stateOf (step (running .dec 32 24 14 [0x00010203, 0x04050607, 0x08090a0b, 0x0c0d0e0f,
      0x10111213, 0x14151617, 0x5846f2f9, 0x5c43f4fe] .final [0x6353e153, 0x0960b760, 0xcd70d023, 0xba0452a1,
      0x63516704, 0x09dfb751, 0xbae4d0e7, 0xcdcae08c] 14 []))).map
    (fun s => (s.dp.out, s.dp.rnd, s.dp.fsm)) = some ([0x00, 0x11, 0x22, 0x33, 0x44, 0x55, 0x66, 0x77, 0x88, 0x99,
      0xaa, 0xbb, 0xcc, 0xdd, 0xee, 0xff, 0x10, 0x21, 0x32, 0x43, 0x54, 0x65, 0x76, 0x87, 0x98, 0xa9, 0xba, 0xcb,
      0xdc, 0xed, 0xfe, 0x0f], 14, .done) := by decide +kernel

/-- The last middle round goes to `FINAL` with `RND = R` (R166; section 4.6). -/
theorem test_mid_to_final : (stateOf (step (running .enc 16 16 9 [0, 0, 0, 0] .round [0, 0, 0, 0] 9 []))).map
    (fun s => (s.dp.rnd, s.dp.fsm)) = some (10, .final) := by decide +kernel

/-! ## Tables: the entries section 9 names -/

theorem test_field : xtime 0x80 = 0x1b ∧ gmul 0x57 0x83 = 0xc1 ∧ ginv 0x53 = 0xca ∧ ginv 0 = 0 ∧ sbox 0x53 = 0xed ∧
    invSbox 0x63 = 0x00 ∧ rcon 28 = 0xc5 ∧ rcon 29 = 0x91 := by decide +kernel

theorem test_round_tables : tableT1 0x00 = 0xc66363a5 ∧ tableT2 0x53 = 0x2cc1eded ∧ tableT5 0x00 = 0x51f4a750 ∧
    tableT7 0xed = 0xaa5b5ffd ∧ tableU1 0x01 = 0x0e090d0b ∧ mixColumn 0xdb 0x13 0x53 0x45 = (0x8e, 0x4d, 0xa1, 0xbc) ∧
    invMixWord 0x8e4da1bc = 0xdb135345 := by decide +kernel

/-- R103, for all fourteen tables. -/
theorem test_checksums : tableChecksums.all hasChecksums = true := by decide +kernel

/-- R103: the plain sum of the entries of a word table is 0xFFFFFF80, and their plain exclusive-or is 0. -/
theorem test_plain_sums : (tableChecksums.take 12).all (fun e =>
    ((List.range 256).foldl (fun h x => h + e.1 (BitVec.ofNat 8 x)) 0 == 0xffffff80) &&
    ((List.range 256).foldl (fun h x => h ^^^ e.1 (BitVec.ofNat 8 x)) 0 == 0)) = true := by decide +kernel

/-- Between two blocks of a stepped CBC command, and in `LOAD`, `RND` is a free value (R31, R166). -/
theorem test_rnd_between_blocks :
    (State.blockDone { State.reset with orch := { State.reset.orch with cfsm := .crypt, blk := 16 } }).dp.rnd =
      Config.freeCount 0 (.rndIdle 16) % 15 ∧
    (State.startBlock { State.reset with orch := { State.reset.orch with blk := 32 } } .enc []).dp.rnd =
      Config.freeCount 0 (.rndLoad 32) % 15 := ⟨rfl, rfl⟩

/-- A construction right after reset leaves free values of a new epoch, not those of the reset (R30, R123). -/
theorem test_release_is_fresh : (State.releaseExpander State.reset).kx.widx = Config.freeCount 1 .widx % 121 ∧
    State.reset.kx.widx = Config.freeCount 0 .widx % 121 := ⟨rfl, rfl⟩

/-- R180. -/
theorem test_state_codes : Fsm.done.code = 4 ∧ Kfsm.invmix.code = 4 ∧ Cfsm.xorOut.code = 5 ∧ Cfsm.done.code = 8 := by decide

/-! ## Witnesses: for each statement with hypotheses, a concrete state and operands that meet all of them -/

theorem ctx_sizesOk : e16.ctx.sizesOk := ⟨fun _ => ⟨rfl, rfl⟩, fun h => by cases h⟩

theorem ctx_storesOk : e16.ctx.storesOk := ⟨⟨rfl, by decide⟩, by decide +kernel⟩

/-- Every idle state over the context of section 3.2, unbound or bound to it, has the invariant. -/
theorem inv_of_ctx {s : State} (hc : s.ctx = e16.ctx) (hb : s.busy = false)
    (hp : s.binding.padSize = 0 ∨ s.binding.padSize = 16) : s.Inv := by
  refine (inv_idle hb).2 ⟨hc ▸ ctx_sizesOk, fun _ => hc ▸ ctx_storesOk, fun h => ?_⟩
  rw [hc]; exact ⟨rfl, hp.resolve_left h⟩

theorem e16_inv (c : Command) : (latched e16 c).Inv := inv_of_ctx rfl rfl (.inl rfl)
theorem z16_inv (c : Command) : (latched z16 c).Inv := inv_of_ctx rfl rfl (.inr rfl)
theorem p16_inv (c : Command) : (latched p16 c).Inv := inv_of_ctx rfl rfl (.inr rfl)

/-- `E16` with the block datapath in state `f`. -/
def inBlock (f : Fsm) (rnd : Nat) : State := { e16 with dp := { e16.dp with fsm := f, rnd := rnd, dir := .enc } }

/-- `E16` rebuilding its stores for another `ENGINE_NEW`. -/
def rekeying : State := { latched e16 (sizes 16 (key 16)) with kx := { e16.kx with kfsm := .copy } }

def issueOf (c : Command) (w : Byte) : HostMove := .issue { c with word := w }
def startOf (c : Command) (w : Byte) : HostMove := .start { c with word := w }

theorem witness_EncodeThenDecode : Instr.uopDecFinal8.wf = true ∧ Instr.cbcNewP.wf = true := by decide

/-- One word for each clause, at its edges. -/
theorem witness_CommandDecoderFollowsTheOpcodeMap :
    (0x21#8).extractLsb' 5 3 ≠ 0#3 ∧
    ((0x00#8).extractLsb' 5 3 = 0#3 ∧ (0x00#8).extractLsb' 0 4 = 0x0#4) ∧
    ((0x17#8).extractLsb' 5 3 = 0#3 ∧ (0x17#8).extractLsb' 0 4 = 0x7#4) ∧
    ((0x0a#8).extractLsb' 5 3 = 0#3 ∧ 0xA ≤ ((0x0a#8).extractLsb' 0 4).toNat) ∧
    ((0x19#8).extractLsb' 5 3 = 0#3 ∧ (0x19#8).extractLsb' 4 1 = 1#1 ∧
      (0x19#8).extractLsb' 0 4 ∈ [0x1#4, 0x2#4, 0x3#4, 0x5#4, 0x6#4, 0x8#4, 0x9#4]) ∧
    ((0x04#8).extractLsb' 5 3 = 0#3 ∧ (0x04#8).extractLsb' 4 1 = 0#1 ∧ (0x04#8).extractLsb' 0 4 = 0x4#4) ∧
    ((0x14#8).extractLsb' 5 3 = 0#3 ∧ (0x14#8).extractLsb' 4 1 = 1#1 ∧ (0x14#8).extractLsb' 0 4 = 0x4#4) := by decide

theorem witness_MicroOpWordsAndTheHost :
    (Instr.uopEncInit4, Dir.enc, 4) ∈ initOps ∧ encode .uopEncInit4 = .uop5 0x00 ∧
    (Instr.uopEncMid6, Dir.enc, 6) ∈ midOps ∧ encode .uopEncMid6 = .uop5 0x05 ∧
    (Instr.uopDecFinal8, Dir.dec, 8) ∈ finalOps ∧ encode .uopDecFinal8 = .uop5 0x1a ∧
    decodeCmd8 0x09 = .ok .unpad := by decide

theorem witness_StepRunsThePresentedCommand :
    e16.busy = false ∧ decodeCmd8 0x02 = .ok .engineEncrypt ∧
    ({ e16 with host := [issueOf (data (pat 16)) 0x02, .wait] } : State).host =
      .issue { data (pat 16) with word := 0x02 } :: [.wait] ∧
    ({ e16 with host := [startOf (data (pat 16)) 0x02] } : State).host =
      .start { data (pat 16) with word := 0x02 } :: [] := by decide +kernel

theorem witness_StepRunsTheSelectedMicroOp :
    ((inBlock .load 0).dp.fsm = .load ∧ decodeUop5 (inBlock .load 0).uopWord = .ok .uopEncInit4) ∧
    ((inBlock .round 3).dp.fsm = .round ∧ decodeUop5 (inBlock .round 3).uopWord = .ok .uopEncMid4) ∧
    ((inBlock .final 10).dp.fsm = .final ∧ decodeUop5 (inBlock .final 10).uopWord = .ok .uopEncFinal4) ∧
    (inBlock .load 0).host = [] ∧ ({ inBlock .load 0 with host := [.wait] } : State).host = .wait :: [] ∧
    ({ inBlock .load 0 with host := [issueOf (data []) 0x08] } : State).host = .issue { data [] with word := 0x08 } :: [] := by
  decide +kernel

/-- A word for each of the three reasons. -/
theorem witness_ReservedWordIsRefused :
    e16.busy = false ∧ (0xff#8).extractLsb' 5 3 ≠ 0#3 ∧
    (0x0f#8).extractLsb' 0 4 ∈ [0x0#4, 0x7#4, 0xA#4, 0xB#4, 0xC#4, 0xD#4, 0xE#4, 0xF#4] ∧
    ((0x12#8).extractLsb' 4 1 = 1#1 ∧ (0x12#8).extractLsb' 0 4 ≠ 0x4#4) ∧
    ({ e16 with host := [issueOf (data []) 0xff] } : State).host = .issue { data [] with word := 0xff } :: [] := by decide +kernel

theorem witness_IdleMachineHoldsItsState :
    e16.busy = false ∧ e16.host = [] ∧ ({ e16 with host := [.wait] } : State).host = .wait :: [] := by decide +kernel

theorem witness_ResetAbandonsAnything :
    ({ inBlock .round 3 with host := [.reset] } : State).host = .reset :: [] := rfl

theorem witness_RunningCommandKeepsItsOperands :
    (inBlock .round 3).busy = true ∧ (∃ t, step (inBlock .round 3) = .next t) ∧
    (∃ t, step { inBlock .round 3 with host := [.wait] } = .next t) ∧
    (∃ t, step { inBlock .round 3 with host := [.reset] } = .next t) ∧
    ∃ t, step { inBlock .round 3 with host := [issueOf (data []) 0x08] } = .next t :=
  ⟨rfl, ⟨_, rfl⟩, ⟨_, rfl⟩, ⟨_, rfl⟩, ⟨_, rfl⟩⟩

theorem witness_OnlyResetUnconstructs :
    e16.ctx.cfgValid = true ∧ ∃ t, step { e16 with host := [.reset] } = .next t ∧ t.ctx.cfgValid = false :=
  ⟨rfl, _, rfl, rfl⟩

theorem changed_ctx {s t : State} (h : t.ctx.cfgValid ≠ s.ctx.cfgValid) : t.ctx ≠ s.ctx := fun e => h (by rw [e])

/-- A context that changes by a reset, inside the expander, and by a command taken whole. -/
theorem witness_OnlyConstructorsWriteTheContext :
    (∃ t, step { e16 with host := [.reset] } = .next t ∧ t.ctx ≠ e16.ctx) ∧
    (∃ t, step rekeying = .next t ∧ t.ctx ≠ rekeying.ctx) ∧
    ∃ t, step { State.reset with host := [issueOf (sizes 16 (key 16)) 0x01] } = .next t ∧ t.ctx ≠ State.reset.ctx := by
  refine ⟨⟨_, rfl, changed_ctx (by decide)⟩, ⟨rekeying.copyKey, rfl, ?_⟩, ⟨_, rfl, changed_ctx (by decide +kernel)⟩⟩
  intro h
  have h2 : rekeying.copyKey.ctx.ke.length ≠ 11 ∨ (rekeying.copyKey.ctx.ke.getD 1 []).length ≠ 4 := by decide +kernel
  rw [h] at h2
  revert h2; decide

theorem witness_FirstCommandsAfterReset :
    validSize (sizes 32 (key 24)).bsIn = true ∧ validSize (sizes 32 (key 24)).keyBuf.length = true := by decide

theorem witness_ConstructionChecksInOrder :
    ((latched e16 (sizes 20 (key 15))).cmd.bsIn ≠ 16 ∧ (latched e16 (sizes 20 (key 15))).cmd.bsIn ≠ 24 ∧
      (latched e16 (sizes 20 (key 15))).cmd.bsIn ≠ 32) ∧
    ((latched e16 (sizes 32 (key 33))).cmd.bsIn = 32 ∧ (latched e16 (sizes 32 (key 33))).cmd.keyBuf.length ≠ 16 ∧
      (latched e16 (sizes 32 (key 33))).cmd.keyBuf.length ≠ 24 ∧
      (latched e16 (sizes 32 (key 33))).cmd.keyBuf.length ≠ 32) := by decide

theorem witness_RoundCountAndScheduleSizes :
    validSize 16 = true ∧ validSize 32 = true ∧ 0 < scheduleLength 16 32 ∧ 119 < scheduleLength 16 32 := by decide

theorem witness_EngineNewBuildsTheContext :
    validSize (latched e16 (sizes 32 (key 24))).cmd.bsIn = true ∧
    validSize (latched e16 (sizes 32 (key 24))).cmd.keyBuf.length = true := by decide

theorem witness_CbcNewBuildsAndBinds :
    validSize (latched p16 (sizes 24 (key 16))).cmd.bsIn = true ∧
    validSize (latched p16 (sizes 24 (key 16))).cmd.keyBuf.length = true := by decide

theorem witness_KeyScheduleIsDeterministic :
    (latched e16 (sizes 16 (key 16))).cmd.keyBuf = (latched .reset (sizes 16 (key 16))).cmd.keyBuf ∧
    validSize (latched e16 (sizes 16 (key 16))).cmd.bsIn = true ∧
    validSize (latched e16 (sizes 16 (key 16))).cmd.keyBuf.length = true ∧
    (∃ t, exec .engineNew (latched e16 (sizes 16 (key 16))) = .next t) ∧
    ∃ t, exec .cbcNewP (latched .reset (sizes 16 (key 16))) = .next t :=
  ⟨rfl, rfl, rfl, ⟨_, rfl⟩, ⟨_, rfl⟩⟩

theorem witness_DecryptionStoreMirrorsTheEncryptionStore :
    e16.Inv ∧ e16.ctx.cfgValid = true ∧ e16.rebuilding = false ∧ 3 < e16.bc ∧ 9 ≤ e16.rounds - 1 :=
  ⟨e16_inv .empty, by decide⟩

theorem witness_BlockCommandsCheckFirst :
    (latched .reset (data (pat 16))).ctx.cfgValid = false ∧
    (latched e16 (data (pat 17))).cmd.din.length ≠ (latched e16 (data (pat 17))).ctx.blockSize := by decide

theorem witness_EngineEncryptComputesTheRounds :
    (latched e16 (data (pat 16))).Inv ∧ (latched e16 (data (pat 16))).ctx.cfgValid = true ∧
    (latched e16 (data (pat 16))).cmd.din.length = (latched e16 (data (pat 16))).ctx.blockSize :=
  ⟨e16_inv _, by decide⟩

theorem witness_EngineDecryptComputesTheRounds :
    (latched z16 (data (pat 16))).Inv ∧ (latched z16 (data (pat 16))).ctx.cfgValid = true ∧
    (latched z16 (data (pat 16))).cmd.din.length = (latched z16 (data (pat 16))).ctx.blockSize :=
  ⟨z16_inv _, by decide⟩

theorem witness_EncryptionIsTheStateMatrixCipher : (8 : Nat) ∈ [4, 6, 8] ∧ (pat 32).length = 4 * 8 := by decide

theorem witness_DecryptionIsTheDirectInverseCipher :
    (4 : Nat) ∈ [4, 6, 8] ∧ (pat 16).length = 4 * 4 ∧
    (∀ j, j < 4 → e16.kdAt 0 j = e16.keAt 10 j ∧ e16.kdAt 10 j = e16.keAt 0 j) ∧
    ∀ n j, 1 ≤ n → n ≤ 10 - 1 → j < 4 → e16.kdAt n j = invMixWord (e16.keAt (10 - n) j) := by
  have h2 : ∀ n, n < 10 → ∀ j, j < 4 → 1 ≤ n → e16.kdAt n j = invMixWord (e16.keAt (10 - n) j) := by decide +kernel
  exact ⟨by decide, by decide, by decide +kernel, fun n j h1 h3 hj => h2 n (by omega) j hj h1⟩

theorem witness_DecryptInvertsEncrypt :
    p16.Inv ∧ p16.ctx.cfgValid = true ∧ p16.rebuilding = false ∧ (pat 16).length = p16.ctx.blockSize :=
  ⟨p16_inv .empty, by decide⟩

/-- The two ways on, at the edge: `RND = R - 2` and `RND = R - 1`. -/
theorem witness_MidStepRecombinesTheOldWords :
    (Instr.uopEncMid4, Dir.enc, 4) ∈ midOps ∧ (inBlock .round 8).dp.rnd < (inBlock .round 8).rounds - 1 ∧
    (inBlock .round 9).dp.rnd = (inBlock .round 9).rounds - 1 := by decide

theorem witness_BlockMachineTakesItsRounds :
    (latched e16 (data (pat 16))).Inv ∧ (latched e16 (data (pat 16))).busy = false ∧
    blockError (latched e16 (data (pat 16))) = none := ⟨e16_inv _, by decide⟩

theorem witness_ZeroEncodeReachesTheNextMultiple : 1 ≤ 16 ∧ (pat 32).length % 16 = 0 := by decide

theorem witness_ZeroDecodeStopsInTheLastBlock : 1 ≤ 16 ∧ (rep 0 32).length % 16 = 0 ∧ rep 0 32 ≠ [] := by decide

/-- The edge between the two clauses on the count: 17 bytes before it take 18, and 19 is too many. -/
theorem witness_PkcsEncodingAndLaxDecoding :
    validSize 24 = true ∧ (pat 17).length + 1 < (0x13 : Byte).toNat ∧ (0x12 : Byte).toNat ≤ (pat 17).length + 1 := by decide

theorem witness_PaddingRoundTrips :
    validSize 16 = true ∧ zeroDecode (zeroEncode [1, 2, 0, 0] 16) 16 ≠ [1, 2, 0, 0] := by decide +kernel

theorem witness_PadEncodesByItsDiscipline :
    z16.binding.padSize ≠ 0 ∧ z16.binding.padMode = .zero ∧ p16.binding.padSize ≠ 0 ∧ p16.binding.padMode = .pkcs7 := by
  decide

theorem witness_UnpadDecodesByItsDiscipline :
    z16.binding.padSize ≠ 0 ∧ (latched z16 (data (rep 0 32))).cmd.din.length % z16.binding.padSize = 0 ∧
    z16.binding.padMode = .zero ∧ p16.binding.padMode = .pkcs7 ∧
    (latched p16 (data (rep 0x10 16))).cmd.din.getLast? = some 0x10 ∧
    (0x10 : Byte).toNat ≤ (latched p16 (data (rep 0x10 16))).cmd.din.length := by decide

/-- Each clause: unbound; ragged; empty, and a count one past the length. -/
theorem witness_PaddingErrors :
    e16.binding.padSize = 0 ∧ z16.binding.padSize ≠ 0 ∧
    (latched z16 (data (rep 0 17))).cmd.din.length % z16.binding.padSize ≠ 0 ∧
    (latched p16 (data [])).cmd.din = [] ∧ (latched p16 (data [])).cmd.din.length % p16.binding.padSize = 0 ∧
    p16.binding.padMode = .pkcs7 ∧ (latched p16 (data (rep 0x11 16))).cmd.din.getLast? = some 0x11 ∧
    (latched p16 (data (rep 0x11 16))).cmd.din.length < (0x11 : Byte).toNat := by decide

theorem witness_CbcEncryptChainsTheBlocks :
    (latched z16 (message iv (pat 19))).Inv ∧ z16.binding.padSize ≠ 0 ∧
    (latched z16 (message iv (pat 19))).cmd.ivBuf.length = z16.ctx.blockSize := ⟨z16_inv _, by decide⟩

theorem witness_CbcDecryptUnchainsTheBlocks :
    (latched p16 (message iv (pat 32))).Inv ∧ p16.binding.padSize ≠ 0 ∧
    (latched p16 (message iv (pat 32))).cmd.din.length % p16.ctx.blockSize = 0 ∧
    (latched p16 (message iv (pat 32))).cmd.ivBuf.length = p16.ctx.blockSize := ⟨p16_inv _, by decide⟩

/-- Both outcomes of the unpadding that ends a decryption occur. -/
theorem witness_CbcDecryptUnchainsTheBlocks_outcomes :
    padDecode .pkcs7 (rep 0x10 32) 16 = .ok (rep 0x10 16) ∧ padDecode .pkcs7 (rep 0x11 16) 16 = .error .invalidDataSize := by
  decide

theorem witness_CbcChecksInOrder :
    z16.binding.padSize ≠ 0 ∧ (latched z16 (message [] (rep 0 17))).cmd.ivBuf.length ≠ z16.ctx.blockSize ∧
    (latched z16 (message [] (rep 0 17))).cmd.din.length % z16.ctx.blockSize ≠ 0 ∧
    (latched z16 (message [] (rep 0 16))).cmd.din.length % z16.ctx.blockSize = 0 := by decide

theorem witness_CbcRoundTrip :
    z16.Inv ∧ p16.Inv ∧ z16.rebuilding = false ∧ p16.rebuilding = false ∧ z16.binding.padSize ≠ 0 ∧
    p16.binding.padSize ≠ 0 ∧ iv.length = z16.ctx.blockSize ∧ z16.binding.padMode = .zero ∧ p16.binding.padMode = .pkcs7 :=
  ⟨z16_inv .empty, p16_inv .empty, by decide⟩

/-- Two ciphertexts of two blocks that agree in block 1 and in block 0, and differ in the IV; and with `n = 0`. -/
theorem witness_RecoveredBlockDependsOnTwoBlocks :
    let s := latched z16 (message iv (pat 32))
    let s' := latched p16 (message (pat 16) (pat 32 ++ pat 16))
    s.Inv ∧ s.ctx.cfgValid = true ∧ s.rebuilding = false ∧ s'.ctx = s.ctx ∧
    s.cmd.ivBuf.length = s.ctx.blockSize ∧ s'.cmd.ivBuf.length = s.ctx.blockSize ∧
    s.cmd.din.length % s.ctx.blockSize = 0 ∧ s'.cmd.din.length % s.ctx.blockSize = 0 ∧
    1 < s.cmd.din.length / s.ctx.blockSize ∧ 1 < s'.cmd.din.length / s.ctx.blockSize ∧
    blockAt s.cmd.din s.ctx.blockSize 1 = blockAt s'.cmd.din s.ctx.blockSize 1 ∧
    previousBlock s.cmd.ivBuf s.cmd.din s.ctx.blockSize 1 = previousBlock s'.cmd.ivBuf s'.cmd.din s.ctx.blockSize 1 := by
  refine ⟨z16_inv _, ?_⟩; decide

theorem witness_StateMachinesRefineTheCommands :
    let s := latched z16 { message iv (pat 19) with word := 0x05 }
    s.Inv ∧ s.busy = false ∧ s.command = some .cbcEncrypt := ⟨z16_inv _, by decide⟩

/-- A state in the middle of a block operation has the invariant, and a step goes on from it. -/
theorem inBlock_inv : (inBlock .round 3).Inv := by
  refine ⟨ctx_sizesOk, fun _ _ => ctx_storesOk, fun h => absurd rfl h,
    ⟨fun _ => ⟨rfl, rfl, .inl rfl⟩, fun _ => by decide, ?_, ?_⟩, ⟨fun h => absurd rfl h, fun h => absurd rfl h, ?_, ?_, ?_⟩,
    trivial⟩ <;> (intro h; cases h)

theorem witness_EveryStepKeepsTheInvariant : (inBlock .round 3).Inv ∧ ∃ t, step (inBlock .round 3) = .next t :=
  ⟨inBlock_inv, _, rfl⟩

theorem witness_NoOtherFailurePath :
    ({ e16 with host := [issueOf (data []) 0x07] } : State).Inv ∧
    ∃ r, step { e16 with host := [issueOf (data []) 0x07] } = .refused r := ⟨inv_of_ctx rfl rfl (.inl rfl), _, rfl⟩

theorem witness_FailedCommandLeavesTheSetup :
    Instr.unpad.isCommand = true ∧ ∃ t, exec .unpad (latched z16 (data (rep 0 17))) = .next t ∧
      t.resp.status = .err .invalidDataSize := ⟨rfl, _, rfl, rfl⟩

theorem witness_DataCommandsKeepTheSetup : Instr.cbcDecrypt ∈ dataCommands ∧ Instr.unpad ∈ dataCommands := by decide

theorem witness_DataCommandsCommute : z16.Inv ∧ z16.busy = false ∧ Instr.pad ∈ dataCommands :=
  ⟨z16_inv .empty, by decide⟩

theorem witness_ErrorKindsByCommand :
    (∃ t, exec .cbcNewP (latched e16 (sizes 24 (key 17))) = .next t ∧ t.resp.status = .err .invalidKeySize) ∧
    ∃ t, exec .cbcDecrypt (latched z16 (message iv (rep 0 17))) = .next t ∧ t.resp.status = .err .invalidDataSize :=
  ⟨⟨_, rfl, rfl⟩, ⟨_, rfl, rfl⟩⟩

theorem witness_FieldInverse : (0x53 : Byte) ≠ 0 ∧ gmul 0x53 0xca = 1 := by decide +kernel

theorem witness_RoundConstantsAndOffsets : 28 < 29 ∧ (6 : Nat) ∈ [4, 6, 8] ∧ (3 : Nat) ∈ [1, 2, 3] := by decide

end Sys2Proof.Tests
end

section
/-! PROOFS. The step between commands: a presented command that decodes is run whole, or started on the state
machines. -/

namespace Sys2Proof.Machine

/-- R8, R84: an idle machine runs the command that the host issues, with its operands latched. -/
theorem step_issue_of_idle {s : State} {c : Command} {rest : List HostMove} {i : Instr} (hidle : s.busy = false)
    (hdec : decodeCmd8 c.word = .ok i) (hhost : s.host = .issue c :: rest) :
    step s = exec i (s.accept c rest) := by
  simp [step_issue hhost, hidle, present_ok hdec]

/-- R165: an idle machine starts the state machines of the command that the host starts, with its operands
latched. -/
theorem step_start_of_idle {s : State} {c : Command} {rest : List HostMove} {i : Instr} (hidle : s.busy = false)
    (hdec : decodeCmd8 c.word = .ok i) (hhost : s.host = .start c :: rest) :
    step s = .next ((s.accept c rest).begin i) := by
  simp [step_start hhost, hidle, present_ok hdec]

/-- Settles O5: one lemma for each of the two ways in which the host presents a command; `State.accept` is the
latching that the statement writes out. -/
theorem stepRunsThePresentedCommand : Obligations.StepRunsThePresentedCommand :=
  fun _ _ _ _ hidle hdec => ⟨step_issue_of_idle hidle hdec, step_start_of_idle hidle hdec⟩

end Sys2Proof.Machine
end

section
/-! PROOFS. The commands executed whole: what each may write, and that each leaves the context and the binding as the
invariant wants them. -/

namespace Sys2Proof.Machine

/-- The nine command words spell the six data commands and the three constructors (R11, R60). -/
theorem command_cases {i : Instr} (h : i.isCommand = true) :
    i ∈ dataCommands ∨ (i = .engineNew ∨ i = .cbcNewZ ∨ i = .cbcNewP) := by
  revert h; cases i <;> decide

/-- A state from which a data command started, when it has ended: the setup is as before, the expander and the other
machines idle. -/
def State.endedFrom (s t : State) : Prop :=
  s.sameSetup t ∧ t.kx = { s.kx with kfsm := .idle } ∧ t.busy = false

theorem raise_endedFrom (s : State) (e : Err) : s.endedFrom (s.raise e) := ⟨⟨rfl, rfl, rfl, rfl⟩, rfl, rfl⟩

theorem respond_endedFrom {s u : State} (hu : s.sameSetup u) (hk : u.kx = s.kx) (v : List Byte) :
    s.endedFrom (u.respond v) := ⟨hu, by rw [State.respond_kx, hk], rfl⟩

theorem conclude_endedFrom {s u : State} (hu : s.sameSetup u) (hk : u.kx = s.kx) (r : Except Err (List Byte)) :
    s.endedFrom (u.conclude r) := by
  cases r with
  | ok v => exact respond_endedFrom hu hk v
  | error e => exact ⟨hu, by rw [conclude_error, State.raise_kx, hk], rfl⟩

/-- A command that raises the error its checks find, and otherwise ends. -/
theorem ended_of_check {s u : State} {a : Answer} {check : Option Err}
    (herr : ∀ e, check = some e → a = .next (s.raise e)) (hok : check = none → a = .next u) (hu : s.endedFrom u) :
    ∃ t, a = .next t ∧ s.endedFrom t := by
  cases check with
  | some e => exact ⟨_, herr e rfl, raise_endedFrom s e⟩
  | none => exact ⟨u, hok rfl, hu⟩

theorem blockCommand_endedFrom (s : State) (dir : Dir) : s.endedFrom (s.blockCommand dir) := by
  cases h : blockError s with
  | some e => rw [blockCommand_error h]; exact raise_endedFrom s e
  | none => rw [blockCommand_ok h]; exact respond_endedFrom ⟨rfl, rfl, rfl, rfl⟩ rfl _

/-- R27, R46, R65: every data command ends, with or without an error, and leaves the setup. -/
theorem exec_data_endedFrom {i : Instr} (hi : i ∈ dataCommands) (s : State) :
    ∃ t, exec i s = .next t ∧ s.endedFrom t := by
  simp only [dataCommands, List.mem_cons, List.not_mem_nil, or_false] at hi
  rcases hi with rfl | rfl | rfl | rfl | rfl | rfl
  · exact ⟨_, rfl, blockCommand_endedFrom s .enc⟩
  · exact ⟨_, rfl, blockCommand_endedFrom s .dec⟩
  · exact ended_of_check (fun _ => execCbcEncrypt_error) execCbcEncrypt_ok
      (respond_endedFrom ⟨rfl, rfl, rfl, rfl⟩ rfl _)
  · exact ended_of_check (fun _ => execCbcDecrypt_error) execCbcDecrypt_ok
      (conclude_endedFrom ⟨rfl, rfl, rfl, rfl⟩ rfl _)
  · exact ended_of_check (fun _ => execPad_error) execPad_ok
      (respond_endedFrom ⟨rfl, rfl, rfl, rfl⟩ rfl _)
  · exact ended_of_check (fun _ => execUnpad_error) execUnpad_ok
      (conclude_endedFrom ⟨rfl, rfl, rfl, rfl⟩ rfl _)

/-- Settles O48: `State.endedFrom` is what the statement says of the next state. -/
theorem dataCommandsKeepTheSetup : Obligations.DataCommandsKeepTheSetup :=
  fun s _ hi => exec_data_endedFrom hi s

/-- The three constructors are one construction; they differ in the binding they leave: unbound, or bound to the block
size of the new engine (R123, R206). -/
theorem exec_constructor {i : Instr} (hi : i = .engineNew ∨ i = .cbcNewZ ∨ i = .cbcNewP) (s : State) :
    ∃ b : Binding, (b.padSize = 0 ∨ b.padSize = s.cmd.bsIn) ∧ exec i s = .next (s.construct b) := by
  rcases hi with rfl | rfl | rfl
  · exact ⟨s.unbound, .inl rfl, rfl⟩
  · exact ⟨s.bound .zero, .inr rfl, rfl⟩
  · exact ⟨s.bound .pkcs7, .inr rfl, rfl⟩

/-- What a command executed whole does to the context: nothing, unless it is a constructor that succeeds (R27). -/
theorem exec_command_ctx {i : Instr} {s t : State} (hi : i.isCommand = true) (h : exec i s = .next t) :
    t.ctx = s.ctx ∨
    (i = .engineNew ∨ i = .cbcNewZ ∨ i = .cbcNewP) ∧ t.ctx.cfgValid = true ∧ t.resp.status = .ok := by
  rcases command_cases hi with hd | hc
  · obtain ⟨u, hu, ⟨hctx, -⟩, -⟩ := exec_data_endedFrom hd s
    obtain rfl := Host.Outcome.next.inj (h.symm.trans hu)
    exact .inl hctx
  · obtain ⟨b, -, hb⟩ := exec_constructor hc s
    obtain rfl := Host.Outcome.next.inj (h.symm.trans hb)
    rcases construct_cases s b with ⟨e, -, he⟩ | ⟨-, -, he⟩
    · rw [he]; exact .inl rfl
    · rw [he]; exact .inr ⟨hc, rfl, rfl⟩

/-! ## The invariant where nothing runs -/

/-- Outside a rebuild the context and the binding are settled. -/
theorem State.Inv.settled {s : State} (h : s.Inv) (hr : s.rebuilding = false) : s.settled := by
  obtain ⟨hsizes, hstores, hbind, -⟩ := h
  exact ⟨hsizes, fun hv => hstores hv hr, hbind⟩

/-- An idle state over a settled context and binding has the invariant. -/
theorem inv_of_idle {s t : State} (hs : s.settled) (hc : t.ctx = s.ctx) (hb : t.binding = s.binding)
    (hidle : t.busy = false) : t.Inv :=
  (inv_idle hidle).2 ((settled_congr hc hb).2 hs)

/-- R44, R45: no engine and no binding is a settled state. -/
theorem resetAt_inv (e : Nat) (c : Command) (host : List HostMove) : (State.resetAt e c host).Inv :=
  (inv_idle rfl).2 ⟨⟨nofun, fun _ => ⟨rfl, rfl⟩⟩, nofun, fun h => absurd rfl h⟩

/-- Settles O44. -/
theorem resetSatisfiesTheInvariant : Obligations.ResetSatisfiesTheInvariant := resetAt_inv

/-- The writes of a construction of legal sizes settle the context, whichever of the two levels computed the stores
(R24 to R26, R44). -/
theorem commit_inv {s : State} {ke kd : List (List Word)} {b : Binding} (hb : validSize s.cmd.bsIn = true)
    (hk : validSize s.cmd.keyBuf.length = true)
    (hke : storeShape ke (rounds s.cmd.keyBuf.length s.cmd.bsIn) (wordsOf s.cmd.bsIn))
    (hkd : kd = mixRows (rounds s.cmd.keyBuf.length s.cmd.bsIn) ke.reverse)
    (hp : b.padSize = 0 ∨ b.padSize = s.cmd.bsIn) : ((s.commit ke kd b).releaseExpander.respond []).Inv := by
  refine (inv_idle rfl).2 ⟨⟨fun _ => ⟨hb, hk⟩, nofun⟩, fun _ => ⟨hke, hkd⟩, fun h => ⟨rfl, hp.resolve_left h⟩⟩

theorem construct_inv {s : State} {b : Binding} (hs : s.settled) (hp : b.padSize = 0 ∨ b.padSize = s.cmd.bsIn) :
    (s.construct b).Inv := by
  rcases construct_cases s b with ⟨e, -, he⟩ | ⟨hb, hk, he⟩
  · rw [he]; exact inv_of_idle hs rfl rfl rfl
  · rw [he]; exact commit_inv hb hk (encryptionStore_shape hk hb) (decryptionStore_eq _ _) hp

/-- A command executed whole from a settled state leaves the invariant. -/
theorem exec_command_inv {i : Instr} {s t : State} (hs : s.settled) (hi : i.isCommand = true)
    (h : exec i s = .next t) : t.Inv := by
  rcases command_cases hi with hd | hc
  · obtain ⟨u, hu, ⟨hctx, hbind, -⟩, -, hidle⟩ := exec_data_endedFrom hd s
    obtain rfl := Host.Outcome.next.inj (h.symm.trans hu)
    exact inv_of_idle hs hctx hbind hidle
  · obtain ⟨b, hp, hb⟩ := exec_constructor hc s
    obtain rfl := Host.Outcome.next.inj (h.symm.trans hb)
    exact construct_inv hs hp

end Sys2Proof.Machine
end

section
/-! PROOFS. The state machines: every step of a running command keeps the invariant, one machine after the other. -/

namespace Sys2Proof.Machine

/-! ## The block datapath -/

/-- What a running block operation stands on: a settled, constructed engine, no construction in progress, and an
orchestrator that is idle or waits for this block (R173, R217). -/
structure State.BlockReady (s : State) : Prop where
  settled : s.settled
  cfg : s.ctx.cfgValid = true
  expander : s.kx.kfsm = .idle
  waiting : s.orch.cfsm = .idle ∨ s.orch.cfsm = .crypt
  orchestrator : s.orchestratorOk

theorem rebuilding_iff (s : State) :
    s.rebuilding = true ↔ s.kx.kfsm = .expand ∨ s.kx.kfsm = .invmix ∨ s.kx.kfsm = .done := by
  simp [State.rebuilding, or_assoc]

theorem rebuilding_of_idle {s : State} (h : s.kx.kfsm = .idle) : s.rebuilding = false := by simp [State.rebuilding, h]

theorem expanderOk_of_idle {s : State} (h : s.kx.kfsm = .idle) : s.expanderOk := by simp [State.expanderOk, h]

theorem datapathOk_of_idle {s : State} (h : s.dp.fsm = .idle) : s.datapathOk := by simp [State.datapathOk, h]

theorem State.Inv.blockReady {s : State} (h : s.Inv) (hf : s.dp.fsm ≠ .idle) : s.BlockReady := by
  have ⟨_, _, _, hdp, _, ho⟩ := h
  obtain ⟨hv, hk, hc⟩ := hdp.1 hf
  exact ⟨h.settled (rebuilding_of_idle hk), hv, hk, hc, ho⟩

/-- A block size under a constructed engine is legal (R44). -/
theorem State.settled.blockSize_valid {s : State} (h : s.settled) (hv : s.ctx.cfgValid = true) :
    validSize s.ctx.blockSize = true := (h.1.1 hv).1

/-- Whether `RND` and the output block are as `FSM` wants them (R168). -/
def State.rowOk (s : State) (d : Datapath) : Prop :=
  (d.fsm = .round → 1 ≤ d.rnd ∧ d.rnd ≤ s.rounds - 1) ∧
  (d.fsm = .final → d.rnd = s.rounds) ∧
  (d.fsm = .done → d.out.length = s.ctx.blockSize)

/-- While the orchestrator is idle or waits for a block, its part of the invariant does not speak of the datapath. -/
theorem orchestratorOk_datapath {s : State} (d : Datapath) (hc : s.orch.cfsm = .idle ∨ s.orch.cfsm = .crypt)
    (h : s.orchestratorOk) : State.orchestratorOk { s with dp := d } := by
  rcases hc with hc | hc <;> simp only [State.orchestratorOk, hc] at h ⊢
  exact h

/-- A step that writes the datapath alone keeps the invariant when the row in use is right. -/
theorem State.BlockReady.inv {s : State} (h : s.BlockReady) {d : Datapath} (hd : s.rowOk d) :
    State.Inv { s with dp := d } :=
  ⟨h.settled.1, fun hv _ => h.settled.2.1 hv, h.settled.2.2, ⟨fun _ => ⟨h.cfg, h.expander, h.waiting⟩, hd⟩,
    expanderOk_of_idle h.expander, orchestratorOk_datapath d h.waiting h.orchestrator⟩

theorem startBlock_inv {s : State} (h : s.BlockReady) (dir : Dir) (blk : List Byte) : (s.startBlock dir blk).Inv :=
  h.inv ⟨nofun, nofun, nofun⟩

/-- Where neither the datapath nor the expander runs, the invariant is the settled context and what the orchestrator
keeps. -/
theorem inv_of_orchestratorOk {s t : State} (hs : s.settled) (hc : t.ctx = s.ctx) (hb : t.binding = s.binding)
    (hf : t.dp.fsm = .idle) (hk : t.kx.kfsm = .idle) (ho : t.orchestratorOk) : t.Inv := by
  obtain ⟨hsizes, hstores, hbind⟩ := (settled_congr hc hb).2 hs
  exact ⟨hsizes, fun hv _ => hstores hv, hbind, datapathOk_of_idle hf, expanderOk_of_idle hk, ho⟩

/-- `DONE` hands a whole output block to the orchestrator that waits for it, or ends the block command (R166). -/
theorem blockDone_inv {s : State} (h : s.BlockReady) (hout : s.dp.out.length = s.ctx.blockSize) : s.blockDone.Inv := by
  rcases h.waiting with hc | hc
  · rw [blockDone_command (by simp [hc])]
    exact inv_of_idle h.settled rfl rfl rfl
  · rw [blockDone_crypt hc]
    refine inv_of_orchestratorOk h.settled rfl rfl rfl h.expander ?_
    have ho := h.orchestrator
    simp only [State.orchestratorOk, hc] at ho
    rcases ho with henc | ⟨hdec, hlen⟩
    · have hi : s.command = some .cbcEncrypt := henc.1
      rw [if_pos hi]
      exact .inl ⟨henc, hout⟩
    · have hi : s.command = some .cbcDecrypt := hdec.1
      rw [if_neg (by simp [hi])]
      exact ⟨hdec, hlen, hout⟩

theorem one_lt_rounds (s : State) : 1 < s.rounds := by
  have := rounds_cases s.ctx.keyLen s.ctx.blockSize
  unfold State.rounds; omega

/-- One step of `FSM` (R166): each state hands the next the row it needs. -/
theorem stepBlock_inv {s t : State} (hs : s.Inv) (hf : s.dp.fsm ≠ .idle) (h : s.stepBlock = .next t) : t.Inv := by
  have hready := hs.blockReady hf
  have hsize := hready.settled.blockSize_valid hready.cfg
  have hrounds := one_lt_rounds s
  obtain ⟨-, -, -, ⟨-, hround, -, hdone⟩, -⟩ := hs
  cases hfsm : s.dp.fsm with
  | idle => exact absurd hfsm hf
  | load =>
    obtain rfl := Host.Outcome.next.inj (h.symm.trans (stepBlock_load hsize hfsm))
    exact hready.inv ⟨fun _ => ⟨Nat.le_refl 1, Nat.le_sub_one_of_lt hrounds⟩, nofun, nofun⟩
  | round =>
    obtain rfl := Host.Outcome.next.inj (h.symm.trans (stepBlock_round hsize hfsm))
    obtain ⟨hpos, -⟩ := hround hfsm
    refine hready.inv ?_
    by_cases hlast : s.dp.rnd < s.rounds - 1
    · simp only [State.rowOk, if_pos hlast]
      exact ⟨fun _ => ⟨by omega, by omega⟩, nofun, nofun⟩
    · simp only [State.rowOk, if_neg hlast]
      exact ⟨nofun, fun _ => trivial, nofun⟩
  | final =>
    obtain rfl := Host.Outcome.next.inj (h.symm.trans (stepBlock_final hsize hfsm))
    refine hready.inv ⟨nofun, nofun, fun _ => ?_⟩
    rw [finalRound_length, State.bc, four_mul_wordsOf hsize]
  | done =>
    obtain rfl := Host.Outcome.next.inj (h.symm.trans (stepBlock_done hfsm))
    exact blockDone_inv hready (hdone hfsm)

/-! ## The orchestrator -/

/-- A bound orchestrator has a legal block size (R44). -/
theorem State.settled.engine {s : State} (h : s.settled) (hp : s.binding.padSize ≠ 0) :
    s.ctx.cfgValid = true ∧ validSize s.ctx.blockSize = true := by
  obtain ⟨hv, -⟩ := h.2.2 hp
  exact ⟨hv, h.blockSize_valid hv⟩

/-- A state in which the orchestrator takes the step: command `i` latched, the other machines idle, and everything the
invariant says. -/
structure State.AtOrchestrator (s : State) (i : Instr) : Prop where
  settled : s.settled
  datapath : s.dp.fsm = .idle
  expander : s.kx.kfsm = .idle
  command : s.command = some i
  orchestrator : s.orchestratorOk

section
variable {s t : State} {i : Instr}

theorem State.AtOrchestrator.raise_inv (hs : s.AtOrchestrator i) (e : Err) : (s.raise e).Inv :=
  inv_of_idle hs.settled rfl rfl rfl

theorem State.AtOrchestrator.startBlock_inv (hs : s.AtOrchestrator i) (hc : s.orch.cfsm = .crypt)
    (hp : s.binding.padSize ≠ 0) (dir : Dir) (blk : List Byte) : (s.startBlock dir blk).Inv :=
  Machine.startBlock_inv ⟨hs.settled, (hs.settled.engine hp).1, hs.expander, .inr hc, hs.orchestrator⟩ dir blk

/-- A step that writes the orchestrator alone. -/
theorem State.AtOrchestrator.inv (hs : s.AtOrchestrator i) {o : Orchestrator}
    (ho : State.orchestratorOk { s with orch := o }) : State.Inv { s with orch := o } :=
  inv_of_orchestratorOk hs.settled rfl rfl hs.datapath hs.expander ho

theorem State.AtOrchestrator.eq_of_command {j : Instr} (hs : s.AtOrchestrator i) (hj : s.command = some j) : i = j :=
  Option.some.inj (hs.command.symm.trans hj)

theorem checkOrchestrator_inv (hs : s.AtOrchestrator i) (hc : s.orch.cfsm = .check)
    (h : s.checkOrchestrator i = .next t) : t.Inv := by
  have ho := hs.orchestrator
  simp only [State.orchestratorOk, hc] at ho
  rcases ho with hi | hi | hi | hi <;> obtain rfl := hs.eq_of_command hi <;>
    simp only [State.checkOrchestrator] at h <;> split at h <;> obtain rfl := Host.Outcome.next.inj h
  next => exact hs.raise_inv _
  next he => exact hs.inv (.inl ⟨hi, he, rfl⟩)
  next => exact hs.raise_inv _
  next he =>
    refine hs.inv ?_
    by_cases hlen : s.cmd.din.length > 0
    · rw [if_pos hlen]
      exact .inr ⟨⟨hi, he, Nat.zero_mod _, hlen⟩, rfl⟩
    · rw [if_neg hlen]
      have hempty : 0 = s.cmd.din.length := by omega
      exact .inl ⟨hi, he, hempty⟩
  next => exact hs.raise_inv _
  next he => exact hs.inv (.inr ⟨hi, he⟩)
  next => exact hs.raise_inv _
  next he => exact hs.inv (.inr ⟨hi, he, rfl⟩)

theorem padOrchestrator_inv (hs : s.AtOrchestrator i) (hc : s.orch.cfsm = .pad) (h : s.padOrchestrator i = .next t) :
    t.Inv := by
  have ho := hs.orchestrator
  simp only [State.orchestratorOk, hc] at ho
  rcases ho with ⟨hi, he, hblk⟩ | ⟨hi, he⟩ <;> obtain rfl := hs.eq_of_command hi <;>
    obtain rfl := Host.Outcome.next.inj h
  · have hp := (cbcEncryptError_none.1 he).1
    have hsize := (hs.settled.engine hp).2
    refine hs.inv ?_
    by_cases hlen : (padEncode s.binding.padMode s.cmd.din s.ctx.blockSize).length > 0
    · simp only [if_pos hlen]
      exact ⟨hi, he, padEncode_mod _ _ (validSize_pos hsize), by simp [hblk], by simpa [hblk] using hlen⟩
    · simp only [if_neg hlen]
      exact ⟨.inl hi, (isBound_iff s).2 hp⟩
  · exact hs.inv ⟨.inr (.inr (.inl hi)), (isBound_iff s).2 (padError_none.1 he)⟩

theorem xorInOrchestrator_inv (hs : s.AtOrchestrator i) (hc : s.orch.cfsm = .xorIn)
    (h : s.xorInOrchestrator i = .next t) : t.Inv := by
  have ho := hs.orchestrator
  simp only [State.orchestratorOk, hc] at ho
  obtain rfl := hs.eq_of_command ho.1
  simp only [State.xorInOrchestrator] at h
  split at h
  · obtain rfl := Host.Outcome.next.inj h
    exact inv_of_orchestratorOk hs.settled rfl rfl hs.datapath hs.expander (.inl ho)
  · cases h

theorem cryptOrchestrator_inv (hs : s.AtOrchestrator i) (hc : s.orch.cfsm = .crypt)
    (h : s.cryptOrchestrator i = .next t) : t.Inv := by
  have ho := hs.orchestrator
  simp only [State.orchestratorOk, hc] at ho
  rcases ho with ⟨hi, he, -⟩ | ⟨⟨hi, he, -⟩, -⟩ <;> obtain rfl := hs.eq_of_command hi
  · obtain rfl := Host.Outcome.next.inj h
    exact hs.startBlock_inv hc (cbcEncryptError_none.1 he).1 _ _
  · simp only [State.cryptOrchestrator] at h
    split at h
    · obtain rfl := Host.Outcome.next.inj h
      exact hs.startBlock_inv hc (cbcDecryptError_none.1 he).1 _ _
    · cases h

theorem xorOutOrchestrator_inv (hs : s.AtOrchestrator i) (hc : s.orch.cfsm = .xorOut)
    (h : s.xorOutOrchestrator i = .next t) : t.Inv := by
  have ho := hs.orchestrator
  simp only [State.orchestratorOk, hc] at ho
  obtain ⟨hdec, hlen, hout⟩ := ho
  obtain rfl := hs.eq_of_command hdec.1
  obtain rfl := Host.Outcome.next.inj h
  exact hs.inv (.inr ⟨hdec, by simp [hlen, hout, State.chainBlock]⟩)

theorem nextOrchestrator_inv (hs : s.AtOrchestrator i) (hc : s.orch.cfsm = .next)
    (h : s.nextOrchestrator i = .next t) : t.Inv := by
  have ho := hs.orchestrator
  simp only [State.orchestratorOk, hc] at ho
  rcases ho with ⟨⟨hi, he, hwhole, hblk, -⟩, -⟩ | ⟨⟨hi, he, hblk, -⟩, hlen⟩ <;>
    obtain rfl := hs.eq_of_command hi
  · obtain rfl := Host.Outcome.next.inj h
    refine hs.inv ?_
    by_cases hmore : s.orch.blk + s.ctx.blockSize < s.orch.padbuf.length
    · simp only [if_pos hmore]
      exact ⟨hi, he, hwhole, by simpa using hblk, hmore⟩
    · simp only [if_neg hmore]
      exact ⟨.inl hi, (isBound_iff s).2 (cbcEncryptError_none.1 he).1⟩
  · simp only [State.nextOrchestrator] at h
    split at h
    · obtain rfl := Host.Outcome.next.inj h
      refine hs.inv ?_
      by_cases hmore : s.orch.blk + s.ctx.blockSize < s.cmd.din.length
      · simp only [if_pos hmore]
        exact .inr ⟨⟨hi, he, by simpa using hblk, hmore⟩, hlen⟩
      · simp only [if_neg hmore]
        have hend : s.orch.blk + s.ctx.blockSize = s.cmd.din.length := by omega
        exact .inl ⟨hi, he, hlen.trans hend⟩
    · cases h

theorem unpadOrchestrator_inv (hs : s.AtOrchestrator i) (hc : s.orch.cfsm = .unpad)
    (h : s.unpadOrchestrator i = .next t) : t.Inv := by
  have ho := hs.orchestrator
  simp only [State.orchestratorOk, hc] at ho
  rcases ho with ⟨hi, he, -⟩ | ⟨hi, he, -⟩ <;> obtain rfl := hs.eq_of_command hi <;>
    simp only [State.unpadOrchestrator] at h <;> split at h <;> obtain rfl := Host.Outcome.next.inj h
  · exact hs.inv ⟨.inr (.inl hi), (isBound_iff s).2 (cbcDecryptError_none.1 he).1⟩
  · exact inv_of_idle hs.settled rfl rfl rfl
  · exact hs.inv ⟨.inr (.inr (.inr hi)), (isBound_iff s).2 (unpadError_none.1 he).1⟩
  · exact inv_of_idle hs.settled rfl rfl rfl

theorem doneOrchestrator_inv (hs : s.AtOrchestrator i) (hc : s.orch.cfsm = .done)
    (h : s.doneOrchestrator i = .next t) : t.Inv := by
  have ho := hs.orchestrator
  simp only [State.orchestratorOk, hc] at ho
  rcases ho.1 with hi | hi | hi | hi <;> obtain rfl := hs.eq_of_command hi <;>
    obtain rfl := Host.Outcome.next.inj h <;> exact inv_of_idle hs.settled rfl rfl rfl

end

/-- One step of `CFSM` (R217). -/
theorem stepOrchestrator_inv {s t : State} (hs : s.Inv) (hf : s.dp.fsm = .idle) (hk : s.kx.kfsm = .idle)
    (h : s.stepOrchestrator = .next t) : t.Inv := by
  have ⟨_, _, _, _, _, ho⟩ := hs
  unfold State.stepOrchestrator at h
  split at h
  next => cases h
  next i hi =>
    have hat : s.AtOrchestrator i := ⟨hs.settled (rebuilding_of_idle hk), hf, hk, hi, ho⟩
    split at h
    next => exact Host.Outcome.next.inj h ▸ hs
    next hc => exact checkOrchestrator_inv hat hc h
    next hc => exact padOrchestrator_inv hat hc h
    next hc => exact xorInOrchestrator_inv hat hc h
    next hc => exact cryptOrchestrator_inv hat hc h
    next hc => exact xorOutOrchestrator_inv hat hc h
    next hc => exact nextOrchestrator_inv hat hc h
    next hc => exact unpadOrchestrator_inv hat hc h
    next hc => exact doneOrchestrator_inv hat hc h

end Sys2Proof.Machine
end

section
/-! PROOFS. The key-schedule expander, the start of a command, and the step of the whole machine. -/

namespace Sys2Proof.Machine

/-! ## What the expander keeps, state by state (R176) -/

section
variable {s : State}

theorem expanderOk_check (h : s.kx.kfsm = .check) : s.expanderOk ↔ s.orch.cfsm = .idle ∧ s.constructing := by
  simp [State.expanderOk, h]

theorem expanderOk_copy (h : s.kx.kfsm = .copy) :
    s.expanderOk ↔ (s.orch.cfsm = .idle ∧ s.constructing) ∧
      validSize s.cmd.bsIn = true ∧ validSize s.cmd.keyBuf.length = true := by
  simp [State.expanderOk, h]

/-- In `K_EXPAND` `(RCP + 1) * k_c` words are stored, and more are to come (R125). -/
theorem expanderOk_expand (h : s.kx.kfsm = .expand) :
    s.expanderOk ↔ (s.orch.cfsm = .idle ∧ s.constructing) ∧
      (validSize s.cmd.bsIn = true ∧ validSize s.cmd.keyBuf.length = true) ∧
      s.stored ((s.kx.rcp + 1) * wordsOf s.cmd.keyBuf.length) ∧
      s.kx.widx < scheduleLength s.cmd.keyBuf.length s.cmd.bsIn := by
  constructor
  · rintro ⟨hc, hv, hexpand, -, -⟩
    obtain ⟨hw, hlt, hlen, hrows, hkd⟩ := hexpand h
    exact ⟨hc (by simp [h]), hv (by simp [h]) (by simp [h]), ⟨hw, hlen, hw ▸ hrows, hkd⟩, hlt⟩
  · rintro ⟨hc, hv, ⟨hw, hlen, hrows, hkd⟩, hlt⟩
    exact ⟨fun _ => hc, fun _ _ => hv, fun _ => ⟨hw, hlt, hlen, hw.symm ▸ hrows, hkd⟩, by simp [h], by simp [h]⟩

theorem expanderOk_invmix (h : s.kx.kfsm = .invmix) :
    s.expanderOk ↔ (s.orch.cfsm = .idle ∧ s.constructing) ∧
      (validSize s.cmd.bsIn = true ∧ validSize s.cmd.keyBuf.length = true) ∧
      storeShape s.ctx.ke (rounds s.cmd.keyBuf.length s.cmd.bsIn) (wordsOf s.cmd.bsIn) ∧
      s.ctx.kd = s.ctx.ke.reverse := by
  simp [State.expanderOk, h]

theorem expanderOk_done (h : s.kx.kfsm = .done) :
    s.expanderOk ↔ (s.orch.cfsm = .idle ∧ s.constructing) ∧
      (validSize s.cmd.bsIn = true ∧ validSize s.cmd.keyBuf.length = true) ∧
      storeShape s.ctx.ke (rounds s.cmd.keyBuf.length s.cmd.bsIn) (wordsOf s.cmd.bsIn) ∧
      s.ctx.kd = mixRows (rounds s.cmd.keyBuf.length s.cmd.bsIn) s.ctx.ke.reverse := by
  simp [State.expanderOk, h]

end

/-! ## The steps of the expander -/

theorem orchestratorOk_of_idle {s : State} (h : s.orch.cfsm = .idle) : s.orchestratorOk := by
  simp [State.orchestratorOk, h]

/-- Where the expander alone runs: before it rebuilds, the old context is still whole. -/
theorem inv_of_expanderOk {s : State} (hs : s.settled) (hf : s.dp.fsm = .idle) (ho : s.orch.cfsm = .idle)
    (hk : s.expanderOk) : s.Inv :=
  ⟨hs.1, fun hv _ => hs.2.1 hv, hs.2.2, datapathOk_of_idle hf, hk, orchestratorOk_of_idle ho⟩

/-- While the expander rebuilds (R177) nothing is said of the stores but what the expander keeps: the rest of the old
context and the binding stay. -/
theorem inv_of_rebuilding {s t : State} (hs : s.Inv) (hsame : t.ctx = { s.ctx with ke := t.ctx.ke, kd := t.ctx.kd })
    (hb : t.binding = s.binding) (hf : t.dp.fsm = .idle) (ho : t.orch.cfsm = .idle) (hr : t.rebuilding = true)
    (hk : t.expanderOk) : t.Inv := by
  obtain ⟨hsizes, -, hbind, -⟩ := hs
  refine ⟨?_, fun _ h => ?_, ?_, datapathOk_of_idle hf, hk, orchestratorOk_of_idle ho⟩
  · rw [hsame]; exact hsizes
  · rw [hr] at h; cases h
  · unfold State.bindingOk; rw [hsame, hb]; exact hbind

theorem constructing_congr {s t : State} (h : t.cmd = s.cmd) : t.constructing ↔ s.constructing := by
  simp [State.constructing, State.command, h]

/-- `K_CHECK` (R176): an error leaves the old context; on a pass the sizes are known to be legal. -/
theorem stepExpander_check_inv {s t : State} (hs : s.Inv) (hf : s.dp.fsm = .idle) (hk : s.kx.kfsm = .check)
    (h : s.stepExpander = .next t) : t.Inv := by
  have hsettled := hs.settled (by simp [State.rebuilding, hk])
  obtain ⟨-, -, -, -, hx, -⟩ := hs
  obtain ⟨hc, hcon⟩ := (expanderOk_check hk).1 hx
  simp only [State.stepExpander, hk] at h
  split at h <;> obtain rfl := Host.Outcome.next.inj h
  next => exact inv_of_idle hsettled rfl rfl rfl
  next hok =>
    exact inv_of_expanderOk hsettled hf hc ((expanderOk_copy rfl).2 ⟨⟨hc, hcon⟩, constructError_none.1 hok⟩)

/-- `K_COPY` (R176): the key's `k_c` words are stored. -/
theorem copyKey_inv {s : State} (hs : s.Inv) (hf : s.dp.fsm = .idle) (hk : s.kx.kfsm = .copy) : s.copyKey.Inv := by
  have ⟨_, _, _, _, hx, _⟩ := hs
  obtain ⟨⟨hc, hcon⟩, hb, hkey⟩ := (expanderOk_copy hk).1 hx
  have hlt := key_lt_schedule hkey hb
  obtain ⟨hstored, hsame⟩ : s.copyKey.stored _ ∧ s.loadKey.sameButStores s.copyKey :=
    copyOut_fold s.loadKey.kx.tk s.loadKey 0 hb (loadKey_stored s) (Nat.zero_le _)
  obtain ⟨-, -, -, hbind, -, hdp, -, hrcp, hkfsm, horch, hcmd, -⟩ := sameButStores_fields hsame
  have hidle : s.copyKey.orch.cfsm = .idle := by rw [horch]; exact hc
  have hwords : s.copyKey.stored (wordsOf s.cmd.keyBuf.length) := by
    simpa [Nat.min_eq_left (Nat.le_of_lt hlt)] using hstored
  refine inv_of_rebuilding hs (congrArg State.ctx hsame) hbind ((congrArg Datapath.fsm hdp).trans hf) hidle
    ((rebuilding_iff _).2 (.inl hkfsm)) ((expanderOk_expand hkfsm).2 ⟨⟨hidle, (constructing_congr hcmd).2 hcon⟩, ?_⟩)
  rw [hrcp, hwords.1, hcmd]
  exact ⟨⟨hb, hkey⟩, by simpa using hwords, hlt⟩

/-- `copy_out` of one batch in `K_EXPAND` (R125): `k_c` more words are stored, up to `N`, and nothing but the stores and
`WIDX` is written. -/
theorem expandBatch_stored {s : State} {n : Nat} (hb : validSize s.cmd.bsIn = true)
    (hkey : validSize s.cmd.keyBuf.length = true) (h : s.stored n)
    (hn : n ≤ scheduleLength s.cmd.keyBuf.length s.cmd.bsIn) :
    s.updateKey.copyOut.stored
      (min (n + wordsOf s.cmd.keyBuf.length) (scheduleLength s.cmd.keyBuf.length s.cmd.bsIn)) := by
  have hbatch : s.updateKey.kx.tk.length = wordsOf s.cmd.keyBuf.length := nextBatch_length (by simp) (wordsOf_cases hkey)
  exact hbatch ▸ (copyOut_fold s.updateKey.kx.tk s.updateKey n hb h hn).1

/-- After a batch: more words are to come, and the count is again `(RCP + 1) * k_c`, or both stores are whole (R125,
R176). -/
theorem afterBatch_expanderOk {u : State} {n : Nat} (hc : u.orch.cfsm = .idle) (hcon : u.constructing)
    (hb : validSize u.cmd.bsIn = true) (hkey : validSize u.cmd.keyBuf.length = true)
    (hn : n = (u.kx.rcp + 1) * wordsOf u.cmd.keyBuf.length)
    (h : u.stored (min n (scheduleLength u.cmd.keyBuf.length u.cmd.bsIn))) :
    u.afterBatch.rebuilding = true ∧ u.afterBatch.expanderOk := by
  have hw := h.1
  by_cases hmore : u.kx.widx < scheduleLength u.cmd.keyBuf.length u.cmd.bsIn
  · have hkfsm : u.afterBatch.kx.kfsm = .expand := if_pos hmore
    have hcount : min n (scheduleLength u.cmd.keyBuf.length u.cmd.bsIn) = n := by omega
    rw [hcount, hn] at h
    exact ⟨(rebuilding_iff _).2 (.inl hkfsm),
      (expanderOk_expand hkfsm).2 ⟨⟨hc, hcon⟩, ⟨hb, hkey⟩, h, hmore⟩⟩
  · have hkfsm : u.afterBatch.kx.kfsm = .invmix := if_neg hmore
    have hcount : min n (scheduleLength u.cmd.keyBuf.length u.cmd.bsIn) =
        scheduleLength u.cmd.keyBuf.length u.cmd.bsIn := by omega
    rw [hcount] at h
    exact ⟨(rebuilding_iff _).2 (.inr (.inl hkfsm)),
      (expanderOk_invmix hkfsm).2 ⟨⟨hc, hcon⟩, ⟨hb, hkey⟩, shape_of_stored h, h.2.2.2⟩⟩

/-- `K_EXPAND` (R176). -/
theorem expandBatch_inv {s : State} (hs : s.Inv) (hf : s.dp.fsm = .idle) (hk : s.kx.kfsm = .expand) :
    s.expandBatch.Inv := by
  have ⟨_, _, _, _, hx, _⟩ := hs
  obtain ⟨⟨hc, hcon⟩, ⟨hb, hkey⟩, hwords, hlt⟩ := (expanderOk_expand hk).1 hx
  have hstored := expandBatch_stored hb hkey hwords (hwords.1 ▸ Nat.le_of_lt hlt)
  have hsame := copyOut_same s.updateKey
  obtain ⟨-, -, -, hbind, -, hdp, -, hrcp, -, horch, hcmd, -⟩ := sameButStores_fields hsame
  have hcmd : s.updateKey.copyOut.cmd = s.cmd := hcmd
  have hidle : s.updateKey.copyOut.orch.cfsm = .idle := by rw [horch]; exact hc
  obtain ⟨hr, hok⟩ := afterBatch_expanderOk hidle ((constructing_congr hcmd).2 hcon) (hcmd ▸ hb) (hcmd ▸ hkey)
    (by rw [hrcp, hcmd]; exact (Nat.succ_mul _ _).symm) (hcmd.symm ▸ hstored)
  exact inv_of_rebuilding hs (congrArg State.ctx hsame) hbind ((congrArg Datapath.fsm hdp).trans hf) hidle hr hok

/-- `K_INVMIX` (R176): the inner rows of `KD` are inverse-mixed. -/
theorem mixStore_inv {s : State} (hs : s.Inv) (hf : s.dp.fsm = .idle) (hk : s.kx.kfsm = .invmix) : s.mixStore.Inv := by
  have ⟨_, _, _, _, hx, _⟩ := hs
  obtain ⟨hc, hv, hshape, hkd⟩ := (expanderOk_invmix hk).1 hx
  exact inv_of_rebuilding hs rfl rfl hf hc.1 rfl
    ((expanderOk_done rfl).2 ⟨hc, hv, hshape, congrArg (mixRows _) hkd⟩)

/-- `K_DONE` (R176): the stores are those of a construction. -/
theorem commitKey_inv {s : State} {b : Binding} (hs : s.Inv) (hk : s.kx.kfsm = .done)
    (hp : b.padSize = 0 ∨ b.padSize = s.cmd.bsIn) : (s.commitKey b).Inv := by
  have ⟨_, _, _, _, hx, _⟩ := hs
  obtain ⟨-, ⟨hb, hkey⟩, hshape, hkd⟩ := (expanderOk_done hk).1 hx
  exact commit_inv hb hkey hshape hkd hp

theorem stepExpander_copy {s : State} (h : s.kx.kfsm = .copy) : s.stepExpander = .next s.copyKey := by
  simp [State.stepExpander, h]

theorem stepExpander_expand {s : State} (h : s.kx.kfsm = .expand) : s.stepExpander = .next s.expandBatch := by
  simp [State.stepExpander, h]

theorem stepExpander_invmix {s : State} (h : s.kx.kfsm = .invmix) : s.stepExpander = .next s.mixStore := by
  simp [State.stepExpander, h]

/-- `K_DONE` commits with the binding that the constructor leaves (R123, R206). -/
theorem stepExpander_done {s : State} (h : s.kx.kfsm = .done) (hcon : s.constructing) :
    ∃ b : Binding, (b.padSize = 0 ∨ b.padSize = s.cmd.bsIn) ∧ s.stepExpander = .next (s.commitKey b) := by
  rcases hcon with hi | hi | hi
  · exact ⟨s.unbound, .inl rfl, by simp [State.stepExpander, h, hi]⟩
  · exact ⟨s.bound .zero, .inr rfl, by simp [State.stepExpander, h, hi]⟩
  · exact ⟨s.bound .pkcs7, .inr rfl, by simp [State.stepExpander, h, hi]⟩

/-- One step of `KFSM` (R176). -/
theorem stepExpander_inv {s t : State} (hs : s.Inv) (hf : s.dp.fsm = .idle) (hrun : s.kx.kfsm ≠ .idle)
    (h : s.stepExpander = .next t) : t.Inv := by
  have ⟨_, _, _, _, ⟨hcon, _⟩, _⟩ := hs
  cases hk : s.kx.kfsm with
  | idle => exact absurd hk hrun
  | check => exact stepExpander_check_inv hs hf hk h
  | copy =>
    obtain rfl := Host.Outcome.next.inj (h.symm.trans (stepExpander_copy hk))
    exact copyKey_inv hs hf hk
  | expand =>
    obtain rfl := Host.Outcome.next.inj (h.symm.trans (stepExpander_expand hk))
    exact expandBatch_inv hs hf hk
  | invmix =>
    obtain rfl := Host.Outcome.next.inj (h.symm.trans (stepExpander_invmix hk))
    exact mixStore_inv hs hf hk
  | done =>
    obtain ⟨b, hp, hstep⟩ := stepExpander_done hk (hcon hrun).2
    obtain rfl := Host.Outcome.next.inj (h.symm.trans hstep)
    exact commitKey_inv hs hk hp

/-! ## Starting a command and the step of the whole machine -/

/-- R166, R176, R217: one step of a running command, by the machine that takes it. -/
theorem microStep_inv {s t : State} (hs : s.Inv) (h : s.microStep = .next t) : t.Inv := by
  unfold State.microStep at h
  split at h
  next hf => exact stepBlock_inv hs hf h
  next hf =>
    have hf : s.dp.fsm = .idle := not_not.1 hf
    split at h
    next hk => exact stepExpander_inv hs hf hk h
    next hk => exact stepOrchestrator_inv hs hf (not_not.1 hk) h

/-- A block command starts the datapath once its checks pass (R173). -/
theorem begin_block_inv {s : State} (hs : s.settled) (hidle : s.busy = false) :
    (s.begin .engineEncrypt).Inv ∧ (s.begin .engineDecrypt).Inv := by
  obtain ⟨-, hk, hc⟩ := (busy_false_iff s).1 hidle
  cases he : blockError s with
  | some e =>
    simp only [State.begin, he]
    exact ⟨inv_of_idle hs rfl rfl rfl, inv_of_idle hs rfl rfl rfl⟩
  | none =>
    have hready : s.BlockReady := ⟨hs, (blockError_none.1 he).1, hk, .inl hc, orchestratorOk_of_idle hc⟩
    simp only [State.begin, he]
    exact ⟨startBlock_inv hready _ _, startBlock_inv hready _ _⟩

/-- R173, R176, R217: a command started from an idle, settled state. -/
theorem begin_inv {s : State} {i : Instr} (hs : s.settled) (hidle : s.busy = false) (hi : s.command = some i) :
    (s.begin i).Inv := by
  obtain ⟨hf, hk, hc⟩ := (busy_false_iff s).1 hidle
  cases i with
  | engineEncrypt => exact (begin_block_inv hs hidle).1
  | engineDecrypt => exact (begin_block_inv hs hidle).2
  | engineNew => exact inv_of_expanderOk hs hf hc ((expanderOk_check rfl).2 ⟨hc, .inl hi⟩)
  | cbcNewZ => exact inv_of_expanderOk hs hf hc ((expanderOk_check rfl).2 ⟨hc, .inr (.inl hi)⟩)
  | cbcNewP => exact inv_of_expanderOk hs hf hc ((expanderOk_check rfl).2 ⟨hc, .inr (.inr hi)⟩)
  | cbcEncrypt => exact inv_of_orchestratorOk hs rfl rfl hf hk (.inl hi)
  | cbcDecrypt => exact inv_of_orchestratorOk hs rfl rfl hf hk (.inr (.inl hi))
  | pad => exact inv_of_orchestratorOk hs rfl rfl hf hk (.inr (.inr (.inl hi)))
  | unpad => exact inv_of_orchestratorOk hs rfl rfl hf hk (.inr (.inr (.inr hi)))
  | _ => exact (inv_idle hidle).2 hs

/-- R8, R38, R165: a presented command leaves the invariant, executed whole or started. -/
theorem present_inv {s t : State} {stepped : Bool} {c : Command} {rest : List HostMove} (hs : s.settled)
    (hidle : s.busy = false) (h : s.present stepped c rest = .next t) : t.Inv := by
  have hacc : (s.accept c rest).settled := hs
  cases hd : decodeCmd8 c.word with
  | error r => rw [present_error hd] at h; cases h
  | ok i =>
    rw [present_ok hd] at h
    split at h
    · obtain rfl := Host.Outcome.next.inj h
      exact begin_inv hacc hidle (by simp [State.command, hd])
    · exact exec_command_inv hacc (decode_isCommand _ _ hd) h

/-- The invariant does not speak of the host's moves. -/
theorem moved_inv {s : State} (rest : List HostMove) (h : s.Inv) : (s.moved rest).Inv := h

/-- Settles O45, by what a step can do: a reset, one step of a running command, nothing, or a command taken up. -/
theorem everyStepKeepsTheInvariant : Obligations.EveryStepKeepsTheInvariant := by
  intro s t hs h
  rcases step_cases s with ⟨rest, -, hstep⟩ | ⟨-, hstep | ⟨rest, -, hstep⟩⟩ |
    ⟨hidle, hstep | ⟨rest, -, hstep⟩ | ⟨c, rest, -, hstep⟩ | ⟨c, rest, -, hstep⟩⟩ <;> rw [hstep] at h
  · exact Host.Outcome.next.inj h ▸ resetAt_inv _ _ _
  · exact microStep_inv hs h
  · exact microStep_inv (moved_inv rest hs) h
  · exact Host.Outcome.next.inj h ▸ hs
  · exact Host.Outcome.next.inj h ▸ moved_inv rest hs
  · exact present_inv ((inv_idle hidle).1 hs) hidle h
  · exact present_inv ((inv_idle hidle).1 hs) hidle h

end Sys2Proof.Machine
end

section
/-! PROOFS. What the context may become in one step, the stores of a constructed engine, and the reset state. -/

namespace Sys2Proof.Machine

/-- Starting a command writes nothing of the context (R173, R176, R217). -/
theorem begin_ctx (s : State) (i : Instr) : (s.begin i).ctx = s.ctx := by
  cases i with
  | engineEncrypt | engineDecrypt => cases he : blockError s <;> simp only [State.begin, he] <;> rfl
  | _ => rfl

/-- What a presented command does to the context: nothing, unless it is a constructor executed whole that succeeds. -/
theorem present_ctx {s t : State} {stepped : Bool} {c : Command} {rest : List HostMove}
    (h : s.present stepped c rest = .next t) :
    t.ctx = s.ctx ∨ stepped = false ∧
      (decodeCmd8 c.word = .ok .engineNew ∨ decodeCmd8 c.word = .ok .cbcNewZ ∨ decodeCmd8 c.word = .ok .cbcNewP) ∧
      t.ctx.cfgValid = true ∧ t.resp.status = .ok := by
  cases hd : decodeCmd8 c.word with
  | error r => rw [present_error hd] at h; cases h
  | ok i =>
    rw [present_ok hd] at h
    cases stepped with
    | true =>
      obtain rfl := Host.Outcome.next.inj h
      exact .inl (begin_ctx _ i)
    | false =>
      rcases exec_command_ctx (decode_isCommand _ _ hd) h with hctx | ⟨hi, hok⟩
      · exact .inl hctx
      · exact .inr ⟨rfl, by simpa using hi, hok⟩

/-- A step of a running command writes the context only where the expander runs, and leaves an engine constructed
(R177). -/
theorem microStep_ctx {s t : State} (h : s.microStep = .next t) :
    t.ctx = s.ctx ∨ s.kx.kfsm ≠ .idle ∧ (s.ctx.cfgValid = true → t.ctx.cfgValid = true) := by
  have hkept := microStep_kept h
  by_cases hidle : s.kx.kfsm = .idle
  · exact .inl (hkept.ctx (.inl hidle))
  · exact .inr ⟨hidle, hkept.cfg⟩

/-- R27, R45, R177: what one step can do to the context. -/
theorem step_ctx_cases {s t : State} (h : step s = .next t) :
    (∃ rest, s.host = .reset :: rest) ∨ t.ctx = s.ctx ∨
    (s.kx.kfsm ≠ .idle ∧ (s.ctx.cfgValid = true → t.ctx.cfgValid = true)) ∨
    ∃ c rest, s.host = .issue c :: rest ∧ s.busy = false ∧
      (decodeCmd8 c.word = .ok .engineNew ∨ decodeCmd8 c.word = .ok .cbcNewZ ∨ decodeCmd8 c.word = .ok .cbcNewP) ∧
      t.ctx.cfgValid = true ∧ t.resp.status = .ok := by
  rcases step_cases s with ⟨rest, hhost, -⟩ | ⟨-, hstep | ⟨rest, -, hstep⟩⟩ |
    ⟨hidle, hstep | ⟨rest, -, hstep⟩ | ⟨c, rest, hhost, hstep⟩ | ⟨c, rest, -, hstep⟩⟩
  · exact .inl ⟨rest, hhost⟩
  all_goals rw [hstep] at h; right
  · exact (microStep_ctx h).imp_right .inl
  · exact (microStep_ctx (s := s.moved rest) h).imp_right .inl
  · exact .inl (Host.Outcome.next.inj h ▸ rfl)
  · exact .inl (Host.Outcome.next.inj h ▸ rfl)
  · exact (present_ctx h).imp_right fun ⟨_, hnew⟩ => .inr ⟨c, rest, hhost, hidle, hnew⟩
  · exact .inl ((present_ctx h).resolve_right fun ⟨hwhole, _⟩ => Bool.noConfusion hwhole)

/-- Settles O11: a step that is no reset keeps a constructed engine constructed. -/
theorem onlyResetUnconstructs : Obligations.OnlyResetUnconstructs := by
  intro s t h hs ht
  rcases step_ctx_cases h with hreset | hctx | ⟨-, hcfg⟩ | ⟨c, rest, -, -, -, hcfg, -⟩
  · exact hreset
  · rw [hctx, hs] at ht; cases ht
  · rw [hcfg hs] at ht; cases ht
  · rw [hcfg] at ht; cases ht

/-- Settles O12. -/
theorem onlyConstructorsWriteTheContext : Obligations.OnlyConstructorsWriteTheContext := by
  intro s t h hne
  rcases step_ctx_cases h with hreset | hctx | ⟨hk, -⟩ | ⟨c, rest, hhost, hidle, hi, -, hok⟩
  · exact .inl hreset
  · exact absurd hctx hne
  · exact .inr (.inl hk)
  · exact .inr (.inr ⟨c, rest, hhost, hidle, hi, hok⟩)

/-- Settles O20: the shape of the stores gives the elements, and `stores_mirror` their values; row `r` of `KD` mirrors
row `R - r` of `KE`. -/
theorem decryptionStoreMirrorsTheEncryptionStore : Obligations.DecryptionStoreMirrorsTheEncryptionStore := by
  intro s hs hv hr
  have hstores := (hs.settled hr).2.1 hv
  have ⟨hke, hkd⟩ := hstores
  have hkdShape : storeShape s.ctx.kd s.rounds s.bc := hkd ▸ mixRows_shape (reverse_shape hke)
  refine ⟨elementAt_isSome hke, elementAt_isSome hkdShape, fun j hj => ⟨?_, ?_, fun r hr1 hr2 => ?_⟩⟩
  · simpa using stores_mirror hstores (Nat.le_refl s.rounds) hj
  · simpa using stores_mirror hstores (Nat.zero_le s.rounds) hj
  · have hmirror := stores_mirror hstores (Nat.sub_le s.rounds r) hj
    rw [Nat.sub_sub_self (by omega), if_neg (by omega)] at hmirror
    exact hmirror

@[simp] theorem elementAt_nil (r j : Nat) : elementAt [] r j = none := rfl

/-- Settles O9. -/
theorem resetAbandonsAnything : Obligations.ResetAbandonsAnything := fun _ _ hhost =>
  ⟨_, step_reset hhost, rfl, rfl, rfl, rfl, rfl, rfl, fun r j => ⟨elementAt_nil r j, elementAt_nil r j⟩,
    rfl, rfl, rfl, rfl, rfl, rfl⟩

/-- Settles O13. -/
theorem resetStateAsTheSpecGivesIt : Obligations.ResetStateAsTheSpecGivesIt :=
  ⟨rfl, rfl, rfl, rfl, rfl, rfl, rfl, rfl, rfl, fun r j => ⟨elementAt_nil r j, elementAt_nil r j⟩,
    rfl, rfl, rfl, rfl⟩

end Sys2Proof.Machine
end

section
/-! PROOFS. The response of a data command is a function of the context, the binding and the operands, so no data
command that ran before it shows in it. -/

namespace Sys2Proof.Machine

/-! ## The checks and the results over one setup -/

section
variable {s t : State}

theorem State.sameSetup.blockError_eq (h : s.sameSetup t) : blockError t = blockError s := by
  obtain ⟨hctx, -, hcmd, -⟩ := h
  simp only [blockError, hctx, hcmd]

theorem State.sameSetup.isBound_eq (h : s.sameSetup t) : t.isBound = s.isBound := by
  obtain ⟨-, hbind, -⟩ := h
  rw [State.isBound, State.isBound, hbind]

theorem State.sameSetup.cbcEncryptError_eq (h : s.sameSetup t) : cbcEncryptError t = cbcEncryptError s := by
  have ⟨hctx, _, hcmd, _⟩ := h
  simp only [cbcEncryptError, h.isBound_eq, hctx, hcmd]

theorem State.sameSetup.cbcDecryptError_eq (h : s.sameSetup t) : cbcDecryptError t = cbcDecryptError s := by
  have ⟨hctx, _, hcmd, _⟩ := h
  simp only [cbcDecryptError, h.isBound_eq, hctx, hcmd]

theorem State.sameSetup.padError_eq (h : s.sameSetup t) : padError t = padError s := by
  simp only [padError, h.isBound_eq]

theorem State.sameSetup.unpadError_eq (h : s.sameSetup t) : unpadError t = unpadError s := by
  have ⟨_, hbind, hcmd, _⟩ := h
  simp only [unpadError, h.isBound_eq, hbind, hcmd]

/-- Under a constructed engine the cipher reads no free value, so the setup determines it (R24, R26). -/
theorem State.settled.cipher_eq (hs : s.settled) (hv : s.ctx.cfgValid = true) (h : s.sameSetup t) (dir : Dir) :
    t.cipher dir = s.cipher dir := by
  obtain ⟨-, hstores, -⟩ := hs
  obtain ⟨hctx, -⟩ := h
  exact funext (cipher_congr (hstores hv) hctx dir)

theorem State.settled.cbcEncryption_eq (hs : s.settled) (hp : s.binding.padSize ≠ 0) (h : s.sameSetup t) :
    t.cbcEncryption = s.cbcEncryption := by
  have ⟨hctx, hbind, hcmd, _⟩ := h
  simp only [State.cbcEncryption, hs.cipher_eq (hs.engine hp).1 h, hctx, hbind, hcmd]

theorem State.settled.cbcRecovered_eq (hs : s.settled) (hp : s.binding.padSize ≠ 0) (h : s.sameSetup t) :
    t.cbcRecovered = s.cbcRecovered := by
  have ⟨hctx, _, hcmd, _⟩ := h
  simp only [State.cbcRecovered, hs.cipher_eq (hs.engine hp).1 h, hctx, hcmd]

end

/-! ## The responses -/

/-- Two answers that both go on, with one response. -/
def sameResponse (a b : Answer) : Prop := ∃ t u, a = .next t ∧ b = .next u ∧ u.resp = t.resp

/-- The response of an ended command is its result's, whatever state it ended in. -/
theorem conclude_resp_eq (s t : State) (r : Except Err (List Byte)) : (t.conclude r).resp = (s.conclude r).resp := by
  cases r <;> rfl

/-- Two runs of a command that raises the error its checks find and otherwise ends with a result: one verdict of the
checks and, where they pass, one result give one response. -/
theorem sameResponse_of_check {s t su tu : State} {a b : Answer} {check check' : Option Err}
    {r r' : Except Err (List Byte)}
    (herr : ∀ e, check = some e → a = .next (s.raise e)) (hok : check = none → a = .next (su.conclude r))
    (herr' : ∀ e, check' = some e → b = .next (t.raise e)) (hok' : check' = none → b = .next (tu.conclude r'))
    (hcheck : check' = check) (hr : check = none → r' = r) : sameResponse a b := by
  subst hcheck
  cases check' with
  | some e => exact ⟨_, _, herr e rfl, herr' e rfl, rfl⟩
  | none => exact ⟨_, _, hok rfl, hok' rfl, hr rfl ▸ conclude_resp_eq su tu r'⟩

theorem blockCommand_sameResponse {s t : State} (hs : s.settled) (h : s.sameSetup t) (dir : Dir) :
    sameResponse (.next (s.blockCommand dir)) (.next (t.blockCommand dir)) := by
  refine sameResponse_of_check (r := .ok (s.cipher dir s.cmd.din)) (r' := .ok (t.cipher dir t.cmd.din))
    (fun _ he => congrArg _ (blockCommand_error he)) (fun hn => congrArg _ (blockCommand_ok hn))
    (fun _ he => congrArg _ (blockCommand_error he)) (fun hn => congrArg _ (blockCommand_ok hn))
    h.blockError_eq fun hn => ?_
  obtain ⟨hv, -⟩ := blockError_none.1 hn
  have ⟨_, _, hcmd, _⟩ := h
  rw [hs.cipher_eq hv h, hcmd]

/-- R43, R60: over a settled setup, the setup alone determines the response of a data command. -/
theorem exec_data_sameResponse {i : Instr} (hi : i ∈ dataCommands) {s t : State} (hs : s.settled)
    (h : s.sameSetup t) : sameResponse (exec i s) (exec i t) := by
  have ⟨hctx, hbind, hcmd, _⟩ := h
  simp only [dataCommands, List.mem_cons, List.not_mem_nil, or_false] at hi
  rcases hi with rfl | rfl | rfl | rfl | rfl | rfl
  · exact blockCommand_sameResponse hs h .enc
  · exact blockCommand_sameResponse hs h .dec
  · refine sameResponse_of_check (r := .ok _) (r' := .ok _) (fun _ => execCbcEncrypt_error) execCbcEncrypt_ok
      (fun _ => execCbcEncrypt_error) execCbcEncrypt_ok h.cbcEncryptError_eq fun hn => ?_
    rw [hs.cbcEncryption_eq (cbcEncryptError_none.1 hn).1 h]
  · refine sameResponse_of_check (fun _ => execCbcDecrypt_error) execCbcDecrypt_ok
      (fun _ => execCbcDecrypt_error) execCbcDecrypt_ok h.cbcDecryptError_eq fun hn => ?_
    rw [hs.cbcRecovered_eq (cbcDecryptError_none.1 hn).1 h, hctx, hbind]
  · refine sameResponse_of_check (r := .ok _) (r' := .ok _) (fun _ => execPad_error) execPad_ok
      (fun _ => execPad_error) execPad_ok h.padError_eq fun _ => ?_
    rw [hbind, hcmd]
  · refine sameResponse_of_check (fun _ => execUnpad_error) execUnpad_ok
      (fun _ => execUnpad_error) execUnpad_ok h.unpadError_eq fun _ => ?_
    rw [hbind, hcmd]

/-- Settles O49: the command that runs first leaves the setup, and the setup determines the response of the other. -/
theorem dataCommandsCommute : Obligations.DataCommandsCommute := by
  intro s c c' hs hidle i hi j hj
  obtain ⟨u, hu, ⟨hctx, hbind, -, hhost⟩, -⟩ := exec_data_endedFrom hj { s with cmd := c' }
  have hsettled : State.settled { s with cmd := c } := (inv_idle hidle).1 hs
  have hsetup : State.sameSetup { s with cmd := c } { u with cmd := c } := ⟨hctx, hbind, rfl, hhost⟩
  obtain ⟨t, v, ht, hv, hresp⟩ := exec_data_sameResponse hi hsettled hsetup
  exact ⟨t, u, v, ht, hu, hv, hresp⟩

end Sys2Proof.Machine
end

section
/-! PROOFS. The decoder by the fields of a word (R78, R83, R84): which words it rejects, by which name, and which
it reads; and the encoder's words by their fields. -/

namespace Sys2Proof.Machine

/-! ## Command words -/

theorem zeroOk_iff (f : Cmd8) : f.zeroOk = true ↔ f.zero = 0#3 := by simp [Cmd8.zeroOk]

theorem padselOk_iff (f : Cmd8) : f.padselOk = true ↔ f.padsel = 0#1 ∨ f.opc = 0x4#4 := by simp [Cmd8.padselOk]

/-- R72: the opcode map has no row for 0x0, 0x7 and 0xA..0xF, and for no other `opc`. -/
theorem commandOf_none_iff (f : Cmd8) :
    commandOf f = none ↔ f.opc = 0x0#4 ∨ f.opc = 0x7#4 ∨ 0xA ≤ f.opc.toNat := by
  unfold commandOf
  split
  case h_9 => simp only [imp_false, true_iff] at *; bv_omega
  all_goals simp only [reduceCtorEq, false_iff]; bv_omega

theorem decodeCmd8_zeroBits {w : BitVec 8} (hz : (splitCmd8 w).zero ≠ 0#3) : decodeCmd8 w = .error .zeroBits := by
  simp [decodeCmd8, zeroOk_iff, hz]

theorem decodeCmd8_opc {w : BitVec 8} (hz : (splitCmd8 w).zero = 0#3) (ho : commandOf (splitCmd8 w) = none) :
    decodeCmd8 w = .error .opc := by
  simp [decodeCmd8, zeroOk_iff, hz, ho]

theorem decodeCmd8_of_commandOf {w : BitVec 8} {i : Instr} (hz : (splitCmd8 w).zero = 0#3)
    (hi : commandOf (splitCmd8 w) = some i) :
    decodeCmd8 w = if (splitCmd8 w).padselOk then .ok i else .error .padsel := by
  simp [decodeCmd8, zeroOk_iff, hz, hi]

/-- R84: a word decodes exactly when it passes the three checks, and then to its row of the opcode map. -/
theorem decodeCmd8_ok_iff (w : BitVec 8) (i : Instr) :
    decodeCmd8 w = .ok i ↔
      (splitCmd8 w).zero = 0#3 ∧ commandOf (splitCmd8 w) = some i ∧
        ((splitCmd8 w).padsel = 0#1 ∨ (splitCmd8 w).opc = 0x4#4) := by
  by_cases hz : (splitCmd8 w).zero = 0#3
  · cases ho : commandOf (splitCmd8 w) with
    | none => simp [decodeCmd8_opc hz ho]
    | some j => by_cases hp : (splitCmd8 w).padselOk <;> simp [decodeCmd8_of_commandOf hz ho, hz, ← padselOk_iff, hp]
  · simp [decodeCmd8_zeroBits hz, hz]

/-- The words that spell a command: the nine of R72. -/
theorem filter_decodeCmd8_isOk :
    (List.range 256).filter (fun n => (decodeCmd8 (BitVec.ofNat 8 n)).isOk) =
      [0x01, 0x02, 0x03, 0x04, 0x05, 0x06, 0x08, 0x09, 0x14] := by
  decide +kernel

/-- Settles O2: the clauses are the branches of the decoder, read by the fields of the word. -/
theorem commandDecoderFollowsTheOpcodeMap : Obligations.CommandDecoderFollowsTheOpcodeMap := by
  refine ⟨fun w => ⟨decodeCmd8_zeroBits, fun hz ho => decodeCmd8_opc hz ((commandOf_none_iff _).2 ho),
    fun hz hp ho => ?_, fun hz hp => ?_, fun hz hp ho => ?_⟩, by rw [filter_decodeCmd8_isOk]; rfl⟩
  · have hrow : ∀ o ∈ [0x1#4, 0x2#4, 0x3#4, 0x5#4, 0x6#4, 0x8#4, 0x9#4],
        ¬(o = 0x0#4 ∨ o = 0x7#4 ∨ 0xA ≤ o.toNat) ∧ o ≠ 0x4#4 := by decide
    obtain ⟨hmap, hnew⟩ := hrow _ ho
    obtain ⟨i, hi⟩ := Option.ne_none_iff_exists'.1 (mt (commandOf_none_iff (splitCmd8 w)).1 hmap)
    rw [decodeCmd8_of_commandOf hz hi, if_neg (by simp [padselOk_iff, splitCmd8, hp, hnew])]
  · have hok {i : Instr} (hi : commandOf (splitCmd8 w) = some i) : decodeCmd8 w = .ok i :=
      (decodeCmd8_ok_iff w i).2 ⟨hz, hi, .inl hp⟩
    refine ⟨?_, ?_, ?_, ?_, ?_, ?_, ?_, ?_⟩ <;> exact fun ho => hok (by simp [commandOf, splitCmd8, hp, ho])
  · exact (decodeCmd8_ok_iff w _).2 ⟨hz, by simp [commandOf, splitCmd8, hp, ho], .inr ho⟩

/-! ## A reserved word presented -/

/-- R78: an idle machine refuses a reserved word by its reason, however the host presents it. -/
theorem step_reserved_of_idle {s : State} {c : Command} {rest : List HostMove} {why : Reserved}
    (hidle : s.busy = false) (hdec : decodeCmd8 c.word = .error why)
    (hhost : s.host = .issue c :: rest ∨ s.host = .start c :: rest) :
    step s = .refused (.reservedCommand why) := by
  rcases hhost with hhost | hhost
  · simp [step_issue hhost, hidle, present_error hdec]
  · simp [step_start hhost, hidle, present_error hdec]

/-- Settles O7: a word that decodes passes the three checks, and each of the three reasons fails one of them. -/
theorem reservedWordIsRefused : Obligations.ReservedWordIsRefused := by
  intro s c rest hidle hhost hreserved
  cases hdec : decodeCmd8 c.word with
  | error why => exact ⟨why, step_reserved_of_idle hidle hdec hhost⟩
  | ok i =>
    exfalso
    obtain ⟨hzero, hmap, hpadsel⟩ := (decodeCmd8_ok_iff _ _).1 hdec
    rcases hreserved with hz | ho | ⟨hp, ho⟩
    · exact hz hzero
    · have hnone : ∀ o ∈ [0x0#4, 0x7#4, 0xA#4, 0xB#4, 0xC#4, 0xD#4, 0xE#4, 0xF#4],
          o = 0x0#4 ∨ o = 0x7#4 ∨ 0xA ≤ o.toNat := by decide
      simp [(commandOf_none_iff (splitCmd8 c.word)).2 (hnone _ ho)] at hmap
    · exact ho (hpadsel.resolve_left (by simp [splitCmd8, hp]))

/-! ## The encoder's words -/

theorem decode_encode (i : Instr) : decode (encode i) = .ok i := by cases i <;> rfl

/-- Settles O1: row by row of the opcode table. -/
theorem encodeThenDecode : Obligations.EncodeThenDecode := fun i _ => decode_encode i

/-- Settles O4: each of the words is the encoder's word of the instruction. -/
theorem writtenWordsDecode : Obligations.WrittenWordsDecode :=
  ⟨decode_encode .engineNew, decode_encode .engineDecrypt, decode_encode .cbcNewP, decode_encode .cbcDecrypt,
    decode_encode .unpad, decode_encode .uopEncMid6, decode_encode .uopDecFinal8⟩

/-! ## Micro-operation words -/

/-- R83: the word of a micro-operation is `DIR`, the `RSEL` of its kind of step, and `SC`. -/
theorem encode_initOps : ∀ p ∈ initOps, encode p.1 = .uop5 (dirBit p.2.1 ++ 0#2 ++ selectSc p.2.2) := by decide
theorem encode_midOps : ∀ p ∈ midOps, encode p.1 = .uop5 (dirBit p.2.1 ++ 1#2 ++ selectSc p.2.2) := by decide
theorem encode_finalOps : ∀ p ∈ finalOps, encode p.1 = .uop5 (dirBit p.2.1 ++ 2#2 ++ selectSc p.2.2) := by decide

theorem splitUop5_append (d : BitVec 1) (r c : BitVec 2) : splitUop5 (d ++ r ++ c) = ⟨d, r, c⟩ := by
  revert d r c; decide

/-- R83: the eighteen rows are the fields with neither `RSEL` nor `SC` at the value that is never produced. -/
theorem microOpOf_isSome_iff (f : Uop5) : (microOpOf f).isSome ↔ f.rsel ≠ 3#2 ∧ f.sc ≠ 3#2 := by
  obtain ⟨d, r, c⟩ := f
  revert d r c; decide

theorem decodeUop5_ok_iff (w : BitVec 5) (i : Instr) :
    decodeUop5 w = .ok i ↔ (splitUop5 w).rsel ≠ 3#2 ∧ microOpOf (splitUop5 w) = some i := by
  by_cases hr : (splitUop5 w).rsel = 3#2 <;> cases hm : microOpOf (splitUop5 w) <;>
    simp [decodeUop5, Uop5.rselOk, hr, hm]

/-- The word that spells the instruction has the `RSEL` it was put together with. -/
theorem rsel_of_encode {i : Instr} {d : BitVec 1} {r c : BitVec 2} {w : BitVec 5}
    (h : encode i = .uop5 (d ++ r ++ c)) (hw : encode i = .uop5 w) : w.extractLsb' 2 2 = r := by
  obtain rfl := FetchWord.uop5.inj (h.symm.trans hw)
  exact congrArg Uop5.rsel (splitUop5_append d r c)

/-- Settles O3: a micro-operation's word is put together from its fields, which the decoder cuts out again. -/
theorem microOpWordsAndTheHost : Obligations.MicroOpWordsAndTheHost := by
  refine ⟨fun p hp => ?_, fun p hp w => rsel_of_encode (encode_initOps p hp),
    fun p hp w => rsel_of_encode (encode_midOps p hp), fun p hp w => rsel_of_encode (encode_finalOps p hp),
    fun w => ?_, decode_isCommand⟩
  · obtain ⟨r, hr⟩ : ∃ r : BitVec 2, encode p.1 = .uop5 (dirBit p.2.1 ++ r ++ selectSc p.2.2) := by
      simp only [List.mem_append] at hp
      rcases hp with (hp | hp) | hp
      · exact ⟨_, encode_initOps p hp⟩
      · exact ⟨_, encode_midOps p hp⟩
      · exact ⟨_, encode_finalOps p hp⟩
    have hdec : decode (.uop5 (dirBit p.2.1 ++ r ++ selectSc p.2.2)) = .ok p.1 := hr ▸ decode_encode p.1
    have hsplit := splitUop5_append (dirBit p.2.1) r (selectSc p.2.2)
    exact ⟨_, hr, hdec, congrArg Uop5.dir hsplit, congrArg Uop5.sc hsplit⟩
  · simp only [decodeUop5_ok_iff, exists_and_left, ← Option.isSome_iff_exists, microOpOf_isSome_iff]
    exact and_self_left

end Sys2Proof.Machine
end

section
/-! PROOFS. The codes of the response. -/

namespace Sys2Proof.Machine

/-- Settles O51: the four values of the rule's table. -/
theorem statusCodes : Obligations.StatusCodes := ⟨rfl, rfl, rfl, rfl⟩

end Sys2Proof.Machine
end

section
/-! PROOFS. Arithmetic in the field: the laws of the multiplication and the inverse. -/

namespace Sys2Proof.Machine

/-! ## Maps that are linear over the field

The multiplication adds up multiples `xtime (xtime (… a))`. So a map that keeps sums and commutes with `xtime` passes
through it, and all laws follow from two such maps: `xtime`, and the multiplication by a constant. -/

/-- A map of bytes that keeps exclusive-or and commutes with multiplication by `x`. -/
structure FieldLinear (f : Byte → Byte) : Prop where
  xor : ∀ a b, f (a ^^^ b) = f a ^^^ f b
  xtime : ∀ a, f (xtime a) = xtime (f a)

theorem FieldLinear.zero {f : Byte → Byte} (hf : FieldLinear f) : f 0 = 0 := by
  have h : f 0 = f 0 ^^^ f 0 := hf.xor 0 0
  rwa [BitVec.xor_self] at h

theorem FieldLinear.gmulLoop {f : Byte → Byte} (hf : FieldLinear f) (n : Nat) (a b r : Byte) :
    f (gmulLoop n a b r) = gmulLoop n (f a) b (f r) := by
  induction n generalizing a b r with
  | zero => rfl
  | succ n ih => rw [Machine.gmulLoop, Machine.gmulLoop, ih, hf.xtime, apply_ite f, hf.xor]

/-- A linear map may be applied to the first factor of a product. -/
theorem FieldLinear.gmul {f : Byte → Byte} (hf : FieldLinear f) (a b : Byte) : f (gmul a b) = gmul (f a) b := by
  rw [Machine.gmul, hf.gmulLoop, hf.zero]; rfl

theorem xtime_eq (a : Byte) : xtime a = (a <<< 1) ^^^ (if a.getLsbD 7 then 0x1B else 0) := by
  revert a; decide +kernel

theorem xtime_xor (a b : Byte) : xtime (a ^^^ b) = xtime a ^^^ xtime b := by
  have hreduce : ∀ p q : Bool, (if (p ^^ q) then 0x1B else 0 : Byte) =
      (if p then 0x1B else 0) ^^^ (if q then 0x1B else 0) := by decide
  rw [xtime_eq, xtime_eq, xtime_eq, BitVec.getLsbD_xor, BitVec.shiftLeft_xor_distrib, hreduce]
  ac_rfl

theorem fieldLinear_xtime : FieldLinear xtime := ⟨xtime_xor, fun _ => rfl⟩

theorem gmulLoop_xor (n : Nat) (a a' b r r' : Byte) :
    gmulLoop n (a ^^^ a') b (r ^^^ r') = gmulLoop n a b r ^^^ gmulLoop n a' b r' := by
  induction n generalizing a a' b r r' with
  | zero => rfl
  | succ n ih =>
    rw [gmulLoop, gmulLoop, gmulLoop, ← ih, xtime_xor]
    split
    · congr 1; ac_rfl
    · rfl

theorem xor_gmul (a b c : Byte) : gmul (a ^^^ b) c = gmul a c ^^^ gmul b c := gmulLoop_xor 8 a b c 0 0

theorem fieldLinear_gmul (c : Byte) : FieldLinear (gmul · c) :=
  ⟨fun a b => xor_gmul a b c, fun a => (fieldLinear_xtime.gmul a c).symm⟩

/-! ## The laws of R92 -/

/-- The eight passes put a byte together from its bits. -/
@[simp] theorem one_gmul (b : Byte) : gmul 1#8 b = b := by
  revert b; decide +kernel

theorem gmul_right_comm (a b c : Byte) : gmul (gmul a b) c = gmul (gmul a c) b := (fieldLinear_gmul c).gmul a b

theorem gmul_comm (a b : Byte) : gmul a b = gmul b a := by
  simpa only [one_gmul] using gmul_right_comm 1#8 a b

theorem gmul_assoc (a b c : Byte) : gmul a (gmul b c) = gmul (gmul a b) c := by
  rw [gmul_comm a, gmul_right_comm, gmul_comm b]

theorem gmul_xor (a b c : Byte) : gmul a (b ^^^ c) = gmul a b ^^^ gmul a c := by
  simp only [gmul_comm a, xor_gmul]

@[simp] theorem zero_gmul (a : Byte) : gmul 0#8 a = 0#8 := (fieldLinear_gmul a).zero

theorem gmul_zero (a : Byte) : gmul a 0 = 0 := (gmul_comm a 0).trans (zero_gmul a)

theorem gmul_one (a : Byte) : gmul a 1 = a := (gmul_comm a 1).trans (one_gmul a)

theorem gmul_two (a : Byte) : gmul a 2 = xtime a := by
  calc gmul a 2 = gmul (xtime 1) a := gmul_comm a 2
    _ = xtime (gmul 1 a) := (fieldLinear_xtime.gmul 1 a).symm
    _ = xtime a := congrArg xtime (one_gmul a)

theorem gmul_three (a : Byte) : gmul a 3 = xtime a ^^^ a := by
  calc gmul a 3 = gmul a (2 ^^^ 1) := rfl
    _ = xtime a ^^^ a := by rw [gmul_xor, gmul_two, gmul_one]

/-- Settles O53: `gmul` is linear in its first factor, and `1` is a unit, so it is commutative and all else follows. -/
theorem fieldMultiplicationLaws : Obligations.FieldMultiplicationLaws :=
  ⟨gmul_comm, gmul_assoc, gmul_xor, fun a => ⟨gmul_zero a, gmul_one a, gmul_two a, gmul_three a⟩, rfl, rfl, rfl⟩

/-! ## The inverse (R93) -/

/-- The 254th power is an inverse of each of the 255 nonzero bytes. -/
theorem gmul_ginv (a : Byte) : a ≠ 0 → gmul a (ginv a) = 1 := by
  revert a; decide +kernel

/-- An inverse is unique, as in every commutative monoid. -/
theorem eq_of_gmul_eq_one {a b c : Byte} (hb : gmul a b = 1) (hc : gmul a c = 1) : b = c := by
  calc b = gmul 1 b := (one_gmul b).symm
    _ = gmul (gmul a c) b := by rw [hc]
    _ = gmul (gmul a b) c := gmul_right_comm a c b
    _ = gmul 1 c := by rw [hb]
    _ = c := one_gmul c

/-- Settles O52: the 254th power is an inverse, and inverses are unique. -/
theorem fieldInverse : Obligations.FieldInverse :=
  ⟨rfl, fun a ha _ => ⟨fun hb => eq_of_gmul_eq_one hb (gmul_ginv a ha), fun hb => hb ▸ gmul_ginv a ha⟩⟩

end Sys2Proof.Machine
end

section
/-! PROOFS. The two mixes: each multiplies a column, read as a polynomial modulo `x^4 + 1`, by a fixed column. -/

namespace Sys2Proof.Machine

/-! ## Products of columns -/

/-- A column of four bytes, row 0 first (R101). -/
abbrev Column := Byte × Byte × Byte × Byte

/-- The product of two columns read as polynomials modulo `x^4 + 1` over the field, row `i` the coefficient of `x^i`. -/
def columnMul : Column → Column → Column
  | (c0, c1, c2, c3), (a0, a1, a2, a3) =>
    (gmul c0 a0 ^^^ gmul c3 a1 ^^^ gmul c2 a2 ^^^ gmul c1 a3,
     gmul c1 a0 ^^^ gmul c0 a1 ^^^ gmul c3 a2 ^^^ gmul c2 a3,
     gmul c2 a0 ^^^ gmul c1 a1 ^^^ gmul c0 a2 ^^^ gmul c3 a3,
     gmul c3 a0 ^^^ gmul c2 a1 ^^^ gmul c1 a2 ^^^ gmul c0 a3)

theorem columnMul_assoc (c d a : Column) : columnMul c (columnMul d a) = columnMul (columnMul c d) a := by
  obtain ⟨c0, c1, c2, c3⟩ := c
  obtain ⟨d0, d1, d2, d3⟩ := d
  obtain ⟨a0, a1, a2, a3⟩ := a
  simp only [columnMul, gmul_xor, xor_gmul, gmul_assoc, Prod.mk.injEq]
  refine ⟨?_, ?_, ?_, ?_⟩ <;> ac_rfl

theorem one_columnMul (a : Column) : columnMul (1, 0, 0, 0) a = a := by
  simp [columnMul]

/-- A product that is 1 cancels. -/
theorem columnMul_cancel {c d : Column} (h : columnMul c d = (1, 0, 0, 0)) (a : Column) :
    columnMul c (columnMul d a) = a := by
  rw [columnMul_assoc, h, one_columnMul]

/-! ## The mixes as products (R101) -/

/-- The column that `MixColumn` multiplies by: the first column of its matrix. -/
def mixFactor : Column := (2, 1, 1, 3)

/-- The column that `InvMixColumn` multiplies by. -/
def invMixFactor : Column := (14, 9, 13, 11)

theorem mixColumn_eq (a : Column) : mixColumn a.1 a.2.1 a.2.2.1 a.2.2.2 = columnMul mixFactor a := by
  simp [mixColumn, columnMul, mixFactor]

theorem invMixColumn_eq (a : Column) : invMixColumn a.1 a.2.1 a.2.2.1 a.2.2.2 = columnMul invMixFactor a := rfl

theorem invMixFactor_mixFactor : columnMul invMixFactor mixFactor = (1, 0, 0, 0) := rfl

theorem mixFactor_invMixFactor : columnMul mixFactor invMixFactor = (1, 0, 0, 0) := rfl

/-! ## Words of columns -/

/-- Exclusive-or of words is byte by byte (R102). -/
theorem word_xor (a0 a1 a2 a3 b0 b1 b2 b3 : Byte) :
    word a0 a1 a2 a3 ^^^ word b0 b1 b2 b3 = word (a0 ^^^ b0) (a1 ^^^ b1) (a2 ^^^ b2) (a3 ^^^ b3) := by
  rw [← word_bytes (word a0 a1 a2 a3 ^^^ word b0 b1 b2 b3)]
  simp only [byte_xor, byte_word_0, byte_word_1, byte_word_2, byte_word_3]

/-- R121: the four tables of R100 are the columns of the matrix of `InvMixColumn`. -/
theorem invMixWord_eq (v : Word) :
    let m := invMixColumn (byte v 0) (byte v 1) (byte v 2) (byte v 3)
    invMixWord v = word m.1 m.2.1 m.2.2.1 m.2.2.2 := by
  simp only [invMixWord, tableU1, tableU2, tableU3, tableU4, word_xor, invMixColumn]

/-- Settles O57: the factors of the two mixes are inverse to each other. -/
theorem mixesAreInverse : Obligations.MixesAreInverse := by
  refine ⟨fun a0 a1 a2 a3 => ⟨?_, ?_⟩, invMixWord_eq⟩
  · have hmix := mixColumn_eq (a0, a1, a2, a3)
    exact (invMixColumn_eq _).trans (hmix ▸ columnMul_cancel invMixFactor_mixFactor _)
  · exact (mixColumn_eq _).trans (columnMul_cancel mixFactor_invMixFactor (a0, a1, a2, a3))

end Sys2Proof.Machine
end

section
/-! PROOFS. The constant tables against their definitions. -/

namespace Sys2Proof.Machine

/-! ## The S-boxes (R94, R95) -/

/-- The inverse of the affine map of R94. -/
def sboxAffineInv (y : Byte) : Byte := y.rotateLeft 1 ^^^ y.rotateLeft 3 ^^^ y.rotateLeft 6 ^^^ 0x05

theorem sboxAffine_sboxAffineInv (y : Byte) : sboxAffine (sboxAffineInv y) = y := by
  revert y; decide +kernel

theorem gmul_sboxAffineInv_sbox (x : Byte) : x ≠ 0 → gmul x (sboxAffineInv (sbox x)) = 1 := by
  revert x; decide +kernel

/-- R94: freed of the affine map, the entry of a nonzero byte is its inverse. -/
theorem sbox_eq_affine (x : Byte) : sbox x = sboxAffine (ginv x) := by
  by_cases hx : x = 0
  · rw [hx]; rfl
  · rw [eq_of_gmul_eq_one (gmul_ginv x hx) (gmul_sboxAffineInv_sbox x hx), sboxAffine_sboxAffineInv]

theorem sbox_ne_self (x : Byte) : sbox x ≠ x := by
  revert x; decide +kernel

theorem invSbox_sbox (x : Byte) : invSbox (sbox x) = x := by
  revert x; decide +kernel

theorem sbox_invSbox (x : Byte) : sbox (invSbox x) = x := by
  revert x; decide +kernel

/-- Settles O54: the 256 entries of the two listings, property by property. -/
theorem sboxesFollowTheirDefinition : Obligations.SboxesFollowTheirDefinition :=
  fun x => ⟨sbox_eq_affine x, sbox_ne_self x, invSbox_sbox x, sbox_invSbox x⟩

/-! ## The round constants and the offsets (R96, R97) -/

theorem rcon_succ : ∀ i, i < 29 → rcon (i + 1) = xtime (rcon i) := by decide +kernel

theorem shift_dec_eq : ∀ bc ∈ [4, 6, 8], ∀ k ∈ [1, 2, 3], shift bc .dec k = (bc - shift bc .enc k) % bc := by decide

/-- Settles O55: the listing entry by entry, and the offsets of the three block sizes. -/
theorem roundConstantsAndOffsets : Obligations.RoundConstantsAndOffsets := ⟨rfl, rcon_succ, shift_dec_eq⟩

/-! ## The round tables (R98 to R100) -/

/-- A rotation right by a whole byte moves the last byte to the front. -/
theorem word_rotateRight_8 (a b c d : Byte) : (word a b c d).rotateRight 8 = word d a b c := by
  ext i hi; simp [word, BitVec.getElem_rotateRight]; grind

theorem rotateRight_add (v : Word) {m n : Nat} (h : m + n < 32) :
    v.rotateRight (m + n) = (v.rotateRight m).rotateRight n := by
  ext i hi; simp [BitVec.getElem_rotateRight]; grind

theorem word_rotateRight_16 (a b c d : Byte) : (word a b c d).rotateRight 16 = word c d a b := by
  rw [rotateRight_add (m := 8) (n := 8) _ (by decide), word_rotateRight_8, word_rotateRight_8]

theorem word_rotateRight_24 (a b c d : Byte) : (word a b c d).rotateRight 24 = word b c d a := by
  rw [rotateRight_add (m := 16) (n := 8) _ (by decide), word_rotateRight_16, word_rotateRight_8]

/-- Settles O56: the bytes of each table are those of the one before it moved on by one place. -/
theorem roundTablesRotate : Obligations.RoundTablesRotate := fun _ =>
  ⟨(word_rotateRight_8 ..).symm, (word_rotateRight_16 ..).symm, (word_rotateRight_24 ..).symm,
    (word_rotateRight_8 ..).symm, (word_rotateRight_16 ..).symm, (word_rotateRight_24 ..).symm, rfl, rfl, rfl, rfl⟩

end Sys2Proof.Machine
end

section
/-! PROOFS. Construction: the sizes of the schedule, the checks of the constructors, and the context they build from the
key schedule. -/

namespace Sys2Proof.Machine

/-! ## Sizes (R117, R118, R126) -/

theorem rounds_eq_max {klen bs : Nat} (hk : validSize klen = true) (hb : validSize bs = true) :
    rounds klen bs = max (klen / 4) (bs / 4) + 6 := by
  rcases (validSize_iff klen).1 hk with rfl | rfl | rfl <;> rcases (validSize_iff bs).1 hb with rfl | rfl | rfl <;> rfl

theorem scheduleLength_bounds {klen bs : Nat} (hk : validSize klen = true) (hb : validSize bs = true) :
    44 ≤ scheduleLength klen bs ∧ scheduleLength klen bs ≤ 120 := by
  rcases (validSize_iff klen).1 hk with rfl | rfl | rfl <;> rcases (validSize_iff bs).1 hb with rfl | rfl | rfl <;> decide

/-- The key and at most 29 batches after it fill the schedule (R126). -/
theorem scheduleLength_le_batches {klen bs : Nat} (hk : validSize klen = true) (hb : validSize bs = true) :
    scheduleLength klen bs ≤ wordsOf klen * 30 := by
  rcases (validSize_iff klen).1 hk with rfl | rfl | rfl <;> rcases (validSize_iff bs).1 hb with rfl | rfl | rfl <;> decide

theorem rconIndex_le {klen bs i : Nat} (hk : validSize klen = true) (hb : validSize bs = true)
    (hi : i < scheduleLength klen bs) : i / wordsOf klen - 1 ≤ 28 := by
  have hbatch : i / wordsOf klen < 30 := Nat.div_lt_of_lt_mul (Nat.lt_of_lt_of_le hi (scheduleLength_le_batches hk hb))
  omega

/-- Settles O16. -/
theorem roundCountAndScheduleSizes : Obligations.RoundCountAndScheduleSizes :=
  ⟨rfl, rfl, rfl, rfl, rfl, rfl, rfl, rfl, rfl, fun _ _ hk hb =>
    ⟨rounds_eq_max hk hb, (scheduleLength_bounds hk hb).1, (scheduleLength_bounds hk hb).2,
      fun _ => rconIndex_le hk hb⟩⟩

/-! ## The checks of the constructors (R116) -/

theorem mem_constructors {i : Instr} :
    i ∈ [Instr.engineNew, .cbcNewZ, .cbcNewP] ↔ i = .engineNew ∨ i = .cbcNewZ ∨ i = .cbcNewP := by simp

theorem validSize_false {n : Nat} (h16 : n ≠ 16) (h24 : n ≠ 24) (h32 : n ≠ 32) : validSize n = false := by
  simp [validSize, h16, h24, h32]

/-- A constructor whose checks find an error raises it, and writes nothing else (R116, R124). -/
theorem exec_constructor_error {i : Instr} {s : State} {e : Err}
    (hi : i ∈ [Instr.engineNew, .cbcNewZ, .cbcNewP]) (h : constructError s.cmd.bsIn s.cmd.keyBuf.length = some e) :
    ∃ t, exec i s = .next t ∧ s.failedWith t e ∧ t.dp = { s.dp with fsm := .idle } := by
  obtain ⟨b, -, hexec⟩ := exec_constructor (mem_constructors.1 hi) s
  rw [construct_error h] at hexec
  exact ⟨_, hexec, raise_failedWith s e, rfl⟩

/-- Settles O15. -/
theorem constructionChecksInOrder : Obligations.ConstructionChecksInOrder := by
  refine fun s i hi => ⟨fun h16 h24 h32 => ?_, fun hb h16 h24 h32 => ?_⟩
  · exact exec_constructor_error hi (constructError_block (validSize_false h16 h24 h32))
  · exact exec_constructor_error hi (constructError_key ((validSize_iff _).2 hb) (validSize_false h16 h24 h32))

/-! ## The schedule by its recurrence (R118, R119) -/

/-- The recurrence of R119 reads nothing but the words in place. -/
theorem nextWord_eq {kc : Nat} {w : List Word} {f : Nat → Word} (hkc : 0 < kc) (hlen : kc ≤ w.length)
    (hf : ∀ j, j < w.length → wordAt w j = f j) :
    nextWord kc w = f (w.length - kc) ^^^
      (if w.length % kc = 0 then
        subWord (rotWord (f (w.length - 1))) ^^^ ((rcon (w.length / kc - 1)).setWidth 32 <<< 24)
      else if kc = 8 ∧ w.length % kc = 4 then subWord (f (w.length - 1))
      else f (w.length - 1)) := by
  simp only [nextWord, hf (w.length - kc) (by omega), hf (w.length - 1) (by omega)]

/-- A shorter extension holds the first words of a longer one. -/
theorem extendSchedule_wordAt {kc m n i : Nat} {w : List Word} (hmn : m ≤ n) (hi : i < w.length + m) :
    wordAt (extendSchedule kc m w) i = (extendSchedule kc n w).getD i 0 := by
  obtain ⟨d, rfl⟩ := Nat.exists_eq_add_of_le hmn
  have hlt : i < (extendSchedule kc m w).length := by simpa using hi
  rw [wordAt, getD_any hlt _ 0, extendSchedule_add, List.getD_eq_getElem?_getD, List.getD_eq_getElem?_getD,
    extendSchedule_prefix _ _ _ hlt]

/-- The schedule that the expander computes is the one that R118 and R119 describe. -/
theorem schedule_isSchedule {key : List Byte} {bs : Nat} (hk : validSize key.length = true)
    (hb : validSize bs = true) : isSchedule key bs (schedule key bs) := by
  have hfits := wordsOf_le_scheduleLength hk hb
  refine ⟨schedule_length hk hb, fun i hi => ?_, fun i hi hlt => ?_⟩
  · rw [schedule, List.getD_eq_getElem?_getD, extendSchedule_prefix _ _ _ (by simpa using hi),
      ← List.getD_eq_getElem?_getD, beWords_getD _ hi]
  · have hkc : 0 < wordsOf key.length := by rcases wordsOf_cases hk with h | h | h <;> omega
    have hlen : (extendSchedule (wordsOf key.length) (i - wordsOf key.length)
        (beWords key (wordsOf key.length))).length = i := by simp; omega
    have hnext := nextWord_eq (f := fun j => (schedule key bs).getD j 0) hkc (hi.trans_eq hlen.symm) fun j hj =>
      extendSchedule_wordAt (n := scheduleLength key.length bs - wordsOf key.length) (by omega) (by simpa using hj)
    rw [hlen] at hnext
    rw [← hnext, schedule, List.getD_eq_getElem?_getD, extendSchedule_word _ _ _ (by simpa using hi) (by simp; omega)]
    simp

/-! ## The stores (R122, R123) -/

theorem elementAt_eq_none {rows : List (List Word)} {r bc : Nat} (h : storeShape rows r bc) {i j : Nat}
    (hout : ¬(i ≤ r ∧ j < bc)) : elementAt rows i j = none := by
  rwa [← elementAt_isSome h, Bool.not_eq_true, Option.isSome_eq_false_iff, Option.isNone_iff_eq_none] at hout

/-- Rows cut from `N` words, and their inverse-mixed mirror, are filled as R122 says. -/
theorem cutRows_storesFrom {w : List Word} {r bc : Nat} (hw : w.length = (r + 1) * bc) :
    storesFrom w r bc (cutRows bc (r + 1) w) (mixRows r (cutRows bc (r + 1) w).reverse) := by
  have hshape := cutRows_shape hw
  refine ⟨fun i j => elementAt_cutRows hw, fun i j hi hj => ?_, fun i j hout => ?_⟩
  · have hend : (r - i = 0 ∨ r - i = r) ↔ (i = 0 ∨ i = r) := by omega
    rw [elementAt_mixRows, elementAt_reverse hshape.1 hi, elementAt_cutRows hw hi hj]
    simp only [Option.map_some, hend]
  · exact ⟨elementAt_eq_none hshape hout, elementAt_eq_none (mixRows_shape (reverse_shape hshape)) hout⟩

theorem constructed_storesFrom {key : List Byte} {bs : Nat} (hk : validSize key.length = true)
    (hb : validSize bs = true) : storesFrom (schedule key bs) (rounds key.length bs) (wordsOf bs)
      (encryptionStore key bs) (decryptionStore key bs) :=
  cutRows_storesFrom (schedule_length hk hb)

/-! ## What a construction leaves (R123, R128, R206) -/

/-- The context that a construction builds from a key and a block size (R123). -/
def builtContext (key : List Byte) (bs : Nat) : Context where
  cfgValid  := true
  blockSize := bs
  keyLen    := key.length
  ke        := encryptionStore key bs
  kd        := decryptionStore key bs

/-- All that a construction on legal sizes leaves, whatever binding `b` its constructor sets. -/
theorem construct_writes {s : State} {b : Binding} (hb : validSize s.cmd.bsIn = true)
    (hk : validSize s.cmd.keyBuf.length = true) :
    (s.construct b).ctx = builtContext s.cmd.keyBuf s.cmd.bsIn ∧ (s.construct b).binding = b ∧
      (s.construct b).resp = { status := .ok, dout := [] } ∧
      (s.construct b).dp = { s.dp with t := [], a := [], fsm := .idle } ∧
      (s.construct b).kx = Expander.released (s.epoch + 1) ∧
      (s.construct b).orch = { s.orch with cfsm := .idle } ∧
      (s.construct b).cmd = s.cmd ∧ (s.construct b).host = s.host := by
  rw [construct_ok hb hk]
  exact ⟨rfl, rfl, rfl, rfl, rfl, rfl, rfl, rfl⟩

/-- Settles O17: the schedule is the expander's own, and `constructed_storesFrom` says what both stores hold. -/
theorem engineNewBuildsTheContext : Obligations.EngineNewBuildsTheContext := by
  intro s hb hk
  obtain ⟨hctx, hbind, hresp, hdp, hkx, horch, hcmd, hhost⟩ := construct_writes (b := s.unbound) hb hk
  refine ⟨_, schedule s.cmd.keyBuf s.cmd.bsIn, rfl, schedule_isSchedule hk hb, ?_⟩
  rw [hctx, hkx]
  exact ⟨constructed_storesFrom hk hb, rfl, rfl, rfl, hbind, hresp, hdp, rfl, rfl, horch, hcmd, hhost⟩

theorem exec_constructor_ctx {i : Instr} {s t : State} (hi : i ∈ [Instr.engineNew, .cbcNewZ, .cbcNewP])
    (hb : validSize s.cmd.bsIn = true) (hk : validSize s.cmd.keyBuf.length = true) (h : exec i s = .next t) :
    t.ctx = builtContext s.cmd.keyBuf s.cmd.bsIn := by
  obtain ⟨b, -, hexec⟩ := exec_constructor (mem_constructors.1 hi) s
  obtain rfl := Host.Outcome.next.inj (h.symm.trans hexec)
  exact (construct_writes hb hk).1

/-- Settles O19: each of the two contexts is `builtContext` of the one key and block size. -/
theorem keyScheduleIsDeterministic : Obligations.KeyScheduleIsDeterministic := by
  intro s s' t t' hkey hbs hb hk i hi j hj hs hs'
  rw [exec_constructor_ctx hi hb hk hs, exec_constructor_ctx hj (hbs ▸ hb) (hkey ▸ hk) hs', hkey, hbs]

end Sys2Proof.Machine
end

section
/-! PROOFS. The rounds of the block datapath: the words that each of its steps computes, by the equations of the rules
(R137 to R139, R152 to R154), for both directions. -/

namespace Sys2Proof.Machine

/-! ## The words of a round -/

/-- Byte position 0 is fetched from the column itself (R97). -/
theorem shiftedColumn_zero {dir : Dir} {bc i : Nat} (hi : i < bc) : shiftedColumn dir bc i 0 = i := by
  cases dir <;> exact Nat.mod_eq_of_lt hi

/-- `A[i]` of a middle round as the rule writes it, its first term from column `i` itself (R138, R153). -/
theorem midWord_eq {dir : Dir} {bc i : Nat} (t k : Nat → Word) (hi : i < bc) :
    midWord dir bc t k i = roundTable dir 0 (byte (t i) 0)
      ^^^ roundTable dir 1 (byte (t ((i + shift bc dir 1) % bc)) 1)
      ^^^ roundTable dir 2 (byte (t ((i + shift bc dir 2) % bc)) 2)
      ^^^ roundTable dir 3 (byte (t ((i + shift bc dir 3) % bc)) 3)
      ^^^ k i := by
  rw [midWord, lookup, shiftedColumn_zero hi]
  rfl

/-- The words that the model computes round by round are those of the rule's equations. -/
theorem roundState_roundsFollow (dir : Dir) (bc r : Nat) (key : Nat → Nat → Word) (blk : List Byte) :
    roundsFollow dir bc r key blk fun n => wordAt (roundState dir bc key (byteAt blk) n) := by
  refine ⟨fun i hi => roundState_zero_word hi, fun n i hn _ hi => ?_⟩
  obtain ⟨m, rfl⟩ := Nat.exists_eq_add_of_le' hn
  exact (roundState_succ_word hi).trans (midWord_eq _ _ hi)

theorem finalRound_outputFollows (dir : Dir) (bc : Nat) (t k : Nat → Word) :
    outputFollows dir bc t k (finalRound dir bc t k) :=
  ⟨finalRound_length dir bc t k, fun _ _ => finalRound_getElem⟩

/-! ## Block commands -/

/-- A block command whose checks pass ends with the block that the rounds compute under the store of its direction, and
leaves the rest but the datapath, whose words hold no value (R135 to R141, R150 to R155). -/
theorem blockCommand_computes {s : State} (dir : Dir) (hs : s.Inv) (hv : s.ctx.cfgValid = true)
    (hlen : s.cmd.din.length = s.ctx.blockSize) :
    ∃ x, roundsFollow dir s.bc s.rounds (s.roundKey dir) s.cmd.din x ∧
      outputFollows dir s.bc (x (s.rounds - 1)) (s.roundKey dir s.rounds) (s.blockCommand dir).resp.dout ∧
      (s.blockCommand dir).resp.status = .ok ∧ (s.blockCommand dir).resp.dout.length = s.ctx.blockSize ∧
      s.sameSetup (s.blockCommand dir) ∧ (s.blockCommand dir).kx = { s.kx with kfsm := .idle } ∧
      (s.blockCommand dir).orch = { s.orch with cfsm := .idle } ∧
      (s.blockCommand dir).dp.t = [] ∧ (s.blockCommand dir).dp.a = [] ∧ (s.blockCommand dir).dp.fsm = .idle := by
  obtain ⟨hsizes, -⟩ := hs
  have hsize : validSize s.ctx.blockSize = true := (hsizes.1 hv).1
  rw [blockCommand_ok (blockError_none.2 ⟨hv, hlen⟩)]
  exact ⟨_, roundState_roundsFollow .., finalRound_outputFollows .., rfl, cipher_length hsize dir _,
    ⟨rfl, rfl, rfl, rfl⟩, rfl, rfl, rfl, rfl, rfl⟩

/-- Settles O22: the encryption side of `blockCommand_computes`. -/
theorem engineEncryptComputesTheRounds : Obligations.EngineEncryptComputesTheRounds := by
  intro s hs hv hlen
  obtain ⟨x, h⟩ := blockCommand_computes .enc hs hv hlen
  exact ⟨_, x, rfl, h⟩

/-- R136, R151: without an engine, or with data that is not one block, a block command fails its checks. -/
theorem blockError_invalidBlockSize {s : State}
    (h : s.ctx.cfgValid = false ∨ s.cmd.din.length ≠ s.ctx.blockSize) : blockError s = some .invalidBlockSize := by
  cases he : blockError s with
  | some e => rw [blockError_some he]
  | none =>
    obtain ⟨hv, hlen⟩ := blockError_none.1 he
    rcases h with h | h
    · rw [hv] at h; cases h
    · exact absurd hlen h

/-- The two block commands are one, at their direction. -/
theorem exec_block {i : Instr} (hi : i ∈ [Instr.engineEncrypt, .engineDecrypt]) (s : State) :
    ∃ dir, exec i s = .next (s.blockCommand dir) := by
  simp only [List.mem_cons, List.not_mem_nil, or_false] at hi
  rcases hi with rfl | rfl
  · exact ⟨.enc, rfl⟩
  · exact ⟨.dec, rfl⟩

/-- Settles O21. -/
theorem blockCommandsCheckFirst : Obligations.BlockCommandsCheckFirst := by
  intro s i hi h
  obtain ⟨dir, hexec⟩ := exec_block hi s
  rw [blockCommand_error (blockError_invalidBlockSize h)] at hexec
  exact ⟨_, hexec, raise_failedWith s _, rfl, rfl⟩

/-! ## Micro-operations -/

/-- Settles O27: `T` is the loaded words laid over the old ones. -/
theorem initStepLoadsAndAddsRowZero : Obligations.InitStepLoadsAndAddsRowZero := by
  refine fun s p hp => ⟨_, exec_init hp s, fun i hi => ?_, fun i hi => ?_, rfl, rfl, rfl, rfl, rfl, rfl, rfl⟩
  · rw [State.uopInit_dp, overlay_getElem_new (by simpa using hi), loadWords_getElem hi]
  · rw [State.uopInit_dp, overlay_getElem_old (by simpa using hi)]

/-- Settles O28: `T` and `A` are both the words of the middle round laid over the old ones, and the two ways on are the
branches on `RND`. -/
theorem midStepRecombinesTheOldWords : Obligations.MidStepRecombinesTheOldWords := by
  refine fun s p hp => ⟨_, exec_mid hp s, fun i hi => ?_, fun i hi => ?_, fun hlt => ?_, fun hlast => ?_,
    rfl, rfl, rfl, rfl⟩
  · rw [State.uopMid_t, State.uopMid_a, overlay_getElem_new (by simpa using hi),
      overlay_getElem_new (by simpa using hi), midRound_getElem hi, midWord_eq _ _ hi]
    exact ⟨rfl, rfl⟩
  · rw [State.uopMid_t, State.uopMid_a, overlay_getElem_old (by simpa using hi),
      overlay_getElem_old (by simpa using hi)]
    exact ⟨rfl, rfl⟩
  · simp [hlt]
  · simp [hlast]

/-- Settles O29. -/
theorem finalStepProducesTheBlock : Obligations.FinalStepProducesTheBlock := fun s _ hp =>
  ⟨_, exec_final hp s, finalRound_outputFollows .., rfl, rfl, rfl⟩

end Sys2Proof.Machine
end

section
/-! PROOFS. The state matrix (R144, R159): its entries, how the words of the datapath stand for it, and encryption as
the textbook cipher on it. -/

namespace Sys2Proof.Machine

/-! ## Matrices -/

@[simp] theorem matrix_length (bc : Nat) (f : Nat → Nat → Byte) : (matrix bc f).length = 4 * bc := by simp [matrix]

theorem matrix_congr {bc : Nat} {f g : Nat → Nat → Byte}
    (h : ∀ row col, row < 4 → col < bc → f row col = g row col) : matrix bc f = matrix bc g := by
  apply List.map_congr_left
  intro p hp
  have hp : p < 4 * bc := List.mem_range.1 hp
  exact h _ _ (by omega) (by omega)

section
variable {bc row col : Nat} (k : Nat → Word) (st : List Byte) (hrow : row < 4) (hcol : col < bc)
include hrow hcol

/-- `matrix bc f` has the entries `f` gives (R53). -/
theorem entry_matrix (f : Nat → Nat → Byte) : entry (matrix bc f) row col = f row col := by
  have hp : 4 * col + row < 4 * bc := by omega
  have hmod : (4 * col + row) % 4 = row := by omega
  have hdiv : (4 * col + row) / 4 = col := by omega
  simp [entry, byteAt, matrix, List.getD_eq_getElem?_getD, hp, hmod, hdiv]

theorem entry_addRoundKey : entry (addRoundKey bc k st) row col = entry st row col ^^^ byte (k col) row :=
  entry_matrix hrow hcol _

theorem entry_subBytes : entry (subBytes bc st) row col = sbox (entry st row col) := entry_matrix hrow hcol _

/-- Row `k` rotated left is the fetch from the shifted column (R97, R144). -/
theorem entry_shiftRows : entry (shiftRows bc st) row col = entry st row (shiftedColumn .enc bc col row) :=
  entry_matrix hrow hcol _

theorem entry_mixColumns : entry (mixColumns bc st) row col =
    component (mixColumn (entry st 0 col) (entry st 1 col) (entry st 2 col) (entry st 3 col)) row :=
  entry_matrix hrow hcol _

end

/-- The output block of a final round as a matrix. -/
theorem finalRound_eq_matrix (dir : Dir) (bc : Nat) (t k : Nat → Word) :
    finalRound dir bc t k = matrix bc fun row col => finalByte dir bc t k col row := by
  apply List.ext_getElem?
  intro p
  by_cases hp : p < 4 * bc
  · have hbyte : (finalRound dir bc t k)[4 * (p / 4) + p % 4]? = some (finalByte dir bc t k (p / 4) (p % 4)) :=
      finalRound_getElem (by omega) (by omega)
    rw [Nat.div_add_mod] at hbyte
    rw [hbyte, matrix, List.getElem?_map, List.getElem?_range hp]
    rfl
  · rw [List.getElem?_eq_none (by simpa using hp), List.getElem?_eq_none (by simpa using hp)]

/-! ## Words that stand for a matrix -/

/-- The words `t` are the columns of the matrix `st`, row 0 in the most significant byte (R16, R53). -/
def columnsOf (bc : Nat) (t : Nat → Word) (st : List Byte) : Prop :=
  ∀ row col, row < 4 → col < bc → byte (t col) row = entry st row col

/-- Byte `row` of a word joined from four bytes (R16). -/
theorem byte_word (b : Nat → Byte) {row : Nat} (hrow : row < 4) :
    byte (word (b 0) (b 1) (b 2) (b 3)) row = b row := by
  obtain rfl | rfl | rfl | rfl : row = 0 ∨ row = 1 ∨ row = 2 ∨ row = 3 := by omega
  · exact byte_word_0 ..
  · exact byte_word_1 ..
  · exact byte_word_2 ..
  · exact byte_word_3 ..

/-- The word of a column has the column's components as its bytes. -/
theorem byte_word_component (c : Column) {row : Nat} (hrow : row < 4) :
    byte (word c.1 c.2.1 c.2.2.1 c.2.2.2) row = component c row := byte_word (component c) hrow

theorem byte_be32 (f : Nat → Byte) (col : Nat) {row : Nat} (hrow : row < 4) :
    byte (be32 f col) row = f (4 * col + row) := byte_word (fun k => f (4 * col + k)) hrow

/-- Loading a block and adding key row 0 is `AddRoundKey(0)` on the block's matrix, in both directions (R137, R144,
R152). -/
theorem columnsOf_load (dir : Dir) (bc : Nat) (key : Nat → Nat → Word) (blk : List Byte) :
    columnsOf bc (wordAt (roundState dir bc key (byteAt blk) 0)) (addRoundKey bc (key 0) blk) := by
  intro row col hrow hcol
  rw [roundState_zero_word hcol, byte_xor, byte_be32 _ _ hrow, entry_addRoundKey _ _ hrow hcol, entry]

/-! ## Encryption -/

/-- `SubBytes` and `ShiftRows` together give the substituted byte fetched from the shifted column (R139, R144). -/
theorem entry_shiftRows_subBytes {bc row col : Nat} {t : Nat → Word} {st : List Byte} (h : columnsOf bc t st)
    (hrow : row < 4) (hcol : col < bc) :
    entry (shiftRows bc (subBytes bc st)) row col = sbox (byte (t (shiftedColumn .enc bc col row)) row) := by
  have hshift : shiftedColumn .enc bc col row < bc := shiftedColumn_lt _ _ (Nat.zero_lt_of_lt hcol)
  rw [entry_shiftRows _ hrow hcol, entry_subBytes _ hrow hshift, h _ _ hrow hshift]

/-- The encryption tables are the columns of the matrix of `MixColumn` over `S` (R98, R101), so a middle round mixes
the substituted bytes that it fetches. -/
theorem byte_midWord_enc {bc col row : Nat} (t k : Nat → Word) (hrow : row < 4) :
    byte (midWord .enc bc t k col) row =
      component (mixColumn (sbox (byte (t (shiftedColumn .enc bc col 0)) 0))
        (sbox (byte (t (shiftedColumn .enc bc col 1)) 1)) (sbox (byte (t (shiftedColumn .enc bc col 2)) 2))
        (sbox (byte (t (shiftedColumn .enc bc col 3)) 3))) row ^^^ byte (k col) row := by
  rw [← byte_word_component _ hrow, ← byte_xor]
  simp only [midWord, lookup, roundTable, tableT1, tableT2, tableT3, tableT4, word_xor, mixColumn]

/-- One middle round is one full round of the textbook cipher (R138, R144). -/
theorem columnsOf_midRound {bc : Nat} {t u k : Nat → Word} {st : List Byte} (h : columnsOf bc t st)
    (hu : ∀ col, col < bc → u col = midWord .enc bc t k col) :
    columnsOf bc u (addRoundKey bc k (mixColumns bc (shiftRows bc (subBytes bc st)))) := by
  intro row col hrow hcol
  have hfetch b (hb : b < 4) := entry_shiftRows_subBytes h hb hcol
  rw [hu col hcol, byte_midWord_enc t k hrow, entry_addRoundKey _ _ hrow hcol, entry_mixColumns _ hrow hcol]
  simp [hfetch]

/-- After any number of rounds the words are the columns of the matrix. -/
theorem columnsOf_matrixRounds (bc : Nat) (key : Nat → Nat → Word) (blk : List Byte) (n : Nat) :
    columnsOf bc (wordAt (roundState .enc bc key (byteAt blk) n)) (matrixRounds bc key blk n) := by
  induction n with
  | zero => exact columnsOf_load .enc bc key blk
  | succ n ih => exact columnsOf_midRound ih fun _ => roundState_succ_word

/-- Settles O24: the rounds keep the words the columns of the matrix, and the final round substitutes, shifts and adds
the last key row. -/
theorem encryptionIsTheStateMatrixCipher : Obligations.EncryptionIsTheStateMatrixCipher := by
  intro bc _ r key blk _
  rw [cipherBlock, finalRound_eq_matrix, matrixEncrypt, addRoundKey]
  refine matrix_congr fun row col hrow hcol => ?_
  rw [entry_shiftRows_subBytes (columnsOf_matrixRounds bc key blk (r - 1)) hrow hcol]
  rfl

end Sys2Proof.Machine
end

section
/-! PROOFS. Decryption: the rounds of `ENGINE_DECRYPT`, and decryption as the direct inverse cipher on the state matrix
(R159). The words of a middle round are inverse-mixed before the key is added, and the key row is inverse-mixed
already, so by linearity the round inverse-mixes the sum with the encryption key row. -/

namespace Sys2Proof.Machine

/-- Settles O23: the decryption side of `blockCommand_computes`. -/
theorem engineDecryptComputesTheRounds : Obligations.EngineDecryptComputesTheRounds := by
  intro s hs hv hlen
  obtain ⟨x, h⟩ := blockCommand_computes .dec hs hv hlen
  exact ⟨_, x, rfl, h⟩

/-! ## The inverse mix of words (R121) -/

theorem invMixWord_xor (v w : Word) : invMixWord (v ^^^ w) = invMixWord v ^^^ invMixWord w := by
  simp only [invMixWord, tableU1, tableU2, tableU3, tableU4, byte_xor, gmul_xor, word_xor]
  congr 1 <;> ac_rfl

theorem byte_invMixWord (v : Word) {row : Nat} (hrow : row < 4) : byte (invMixWord v) row =
    component (invMixColumn (byte v 0) (byte v 1) (byte v 2) (byte v 3)) row := by
  rw [invMixWord_eq]
  exact byte_word_component _ hrow

/-! ## The entries of the inverse steps (R159) -/

/-- The decryption offsets fetch from the column that the encryption offsets, taken back, name (R97). -/
theorem shiftedColumn_dec {bc row : Nat} (hbc : bc ∈ [4, 6, 8]) (hrow : row < 4) (col : Nat) :
    shiftedColumn .dec bc col row = (col + bc - rowShift bc row) % bc := by
  have hshift : ∀ bc ∈ [4, 6, 8], ∀ row < 4,
      rowShift bc row ≤ bc ∧ shift bc .dec row % bc = (bc - rowShift bc row) % bc := by decide
  obtain ⟨hle, hmod⟩ := hshift bc hbc row hrow
  rw [shiftedColumn, Nat.add_sub_assoc hle, Nat.add_mod, hmod, ← Nat.add_mod]

section
variable {bc row col : Nat} (st : List Byte) (hrow : row < 4) (hcol : col < bc)
include hrow hcol

theorem entry_invSubBytes : entry (invSubBytes bc st) row col = invSbox (entry st row col) :=
  entry_matrix hrow hcol _

/-- Row `k` rotated right is the fetch from the shifted column of decryption (R97, R159). -/
theorem entry_invShiftRows (hbc : bc ∈ [4, 6, 8]) :
    entry (invShiftRows bc st) row col = entry st row (shiftedColumn .dec bc col row) := by
  rw [shiftedColumn_dec hbc hrow]
  exact entry_matrix hrow hcol _

theorem entry_invMixColumns : entry (invMixColumns bc st) row col =
    component (invMixColumn (entry st 0 col) (entry st 1 col) (entry st 2 col) (entry st 3 col)) row :=
  entry_matrix hrow hcol _

end

/-- `InvShiftRows` and `InvSubBytes` together give the substituted byte fetched from the shifted column (R154, R159). -/
theorem entry_invSubBytes_invShiftRows {bc row col : Nat} {t : Nat → Word} {st : List Byte} (hbc : bc ∈ [4, 6, 8])
    (h : columnsOf bc t st) (hrow : row < 4) (hcol : col < bc) :
    entry (invSubBytes bc (invShiftRows bc st)) row col = invSbox (byte (t (shiftedColumn .dec bc col row)) row) := by
  have hshift : shiftedColumn .dec bc col row < bc := shiftedColumn_lt _ _ (Nat.zero_lt_of_lt hcol)
  rw [entry_invSubBytes _ hrow hcol, entry_invShiftRows _ hrow hcol hbc, h _ _ hrow hshift]

/-! ## The rounds of decryption -/

/-- The word of the inverse-substituted bytes that a middle round of decryption fetches for column `col` (R153). -/
def fetchedWord (bc : Nat) (t : Nat → Word) (col : Nat) : Word :=
  word (invSbox (byte (t (shiftedColumn .dec bc col 0)) 0)) (invSbox (byte (t (shiftedColumn .dec bc col 1)) 1))
    (invSbox (byte (t (shiftedColumn .dec bc col 2)) 2)) (invSbox (byte (t (shiftedColumn .dec bc col 3)) 3))

theorem byte_fetchedWord (bc : Nat) (t : Nat → Word) (col : Nat) {row : Nat} (hrow : row < 4) :
    byte (fetchedWord bc t col) row = invSbox (byte (t (shiftedColumn .dec bc col row)) row) :=
  byte_word (fun k => invSbox (byte (t (shiftedColumn .dec bc col k)) k)) hrow

/-- The decryption tables are those of the inverse mix over `Si` (R99, R100), so a middle round inverse-mixes the word
that it fetches. -/
theorem midWord_dec (bc : Nat) (t k : Nat → Word) (col : Nat) :
    midWord .dec bc t k col = invMixWord (fetchedWord bc t col) ^^^ k col := by
  simp only [invMixWord, fetchedWord, byte_word_0, byte_word_1, byte_word_2, byte_word_3]
  rfl

/-- With an inverse-mixed key row, one middle round is one full round of the direct inverse cipher (R153, R159). -/
theorem columnsOf_midRound_dec {bc : Nat} {t u kd ke : Nat → Word} {st : List Byte} (hbc : bc ∈ [4, 6, 8])
    (h : columnsOf bc t st) (hu : ∀ col, col < bc → u col = midWord .dec bc t kd col)
    (hk : ∀ col, col < bc → kd col = invMixWord (ke col)) :
    columnsOf bc u (invMixColumns bc (addRoundKey bc ke (invSubBytes bc (invShiftRows bc st)))) := by
  intro row col hrow hcol
  have hsum b (hb : b < 4) : byte (fetchedWord bc t col ^^^ ke col) b =
      entry (addRoundKey bc ke (invSubBytes bc (invShiftRows bc st))) b col := by
    rw [byte_xor, byte_fetchedWord _ _ _ hb, entry_addRoundKey _ _ hb hcol,
      entry_invSubBytes_invShiftRows hbc h hb hcol]
  rw [hu col hcol, midWord_dec, hk col hcol, ← invMixWord_xor, byte_invMixWord _ hrow,
    entry_invMixColumns _ hrow hcol]
  simp [hsum]

theorem addRoundKey_congr {bc : Nat} {k k' : Nat → Word} (h : ∀ j, j < bc → k j = k' j) (st : List Byte) :
    addRoundKey bc k st = addRoundKey bc k' st :=
  matrix_congr fun _ col _ hcol => by rw [h col hcol]

/-- After any number of rounds the words are the columns of the matrix of the direct inverse cipher. -/
theorem columnsOf_matrixInvRounds {bc r : Nat} {ke kd : Nat → Nat → Word} (blk : List Byte) (hbc : bc ∈ [4, 6, 8])
    (hfirst : ∀ j, j < bc → kd 0 j = ke r j)
    (hinner : ∀ n j, 1 ≤ n → n ≤ r - 1 → j < bc → kd n j = invMixWord (ke (r - n) j)) {n : Nat} (hn : n ≤ r - 1) :
    columnsOf bc (wordAt (roundState .dec bc kd (byteAt blk) n)) (matrixInvRounds bc r ke blk n) := by
  induction n with
  | zero =>
    rw [matrixInvRounds, ← addRoundKey_congr hfirst]
    exact columnsOf_load .dec bc kd blk
  | succ n ih =>
    exact columnsOf_midRound_dec hbc (ih (by omega)) (fun _ => roundState_succ_word)
      fun j => hinner (n + 1) j (by omega) hn

/-- Settles O25: the rounds keep the words the columns of the matrix, and the final round shifts, substitutes and adds
the last key row, which is row 0 of the encryption keys. -/
theorem decryptionIsTheDirectInverseCipher : Obligations.DecryptionIsTheDirectInverseCipher := by
  intro bc hbc r ke kd blk _ _ houter hinner
  have hrounds := columnsOf_matrixInvRounds blk hbc (fun j hj => (houter j hj).1) hinner (Nat.le_refl (r - 1))
  rw [cipherBlock, finalRound_eq_matrix, matrixDecrypt, addRoundKey]
  refine matrix_congr fun row col hrow hcol => ?_
  rw [entry_invSubBytes_invShiftRows hbc hrounds hrow hcol, ← (houter col hcol).2]
  rfl

end Sys2Proof.Machine
end

section
/-! PROOFS. Decryption and encryption are inverse to each other (R158). Each step of the direct inverse cipher undoes a
step of the state-matrix cipher, so the two ciphers run towards each other through the same matrices. -/

namespace Sys2Proof.Machine

/-! ## The steps that undo each other -/

/-- A block is the matrix of its entries (R53). -/
theorem matrix_entry {bc : Nat} {st : List Byte} (h : st.length = 4 * bc) : matrix bc (entry st) = st := by
  apply List.ext_getElem (by simp [h])
  intro p hp hp'
  have hsplit : 4 * (p / 4) + p % 4 = p := Nat.div_add_mod p 4
  simp [matrix, entry, hsplit, byteAt, List.getElem?_eq_getElem hp']

/-- To say that a matrix is a given block is to say its entries. -/
theorem matrix_eq_block {bc : Nat} {f : Nat → Nat → Byte} {st : List Byte} (h : st.length = 4 * bc)
    (hf : ∀ row col, row < 4 → col < bc → f row col = entry st row col) : matrix bc f = st :=
  (matrix_congr hf).trans (matrix_entry h)

/-- Going on by the encryption offset from the column that the decryption offset names leads back, and conversely
(R97). -/
theorem shiftedColumn_inverse {bc row col : Nat} (hbc : bc ∈ [4, 6, 8]) (hrow : row < 4) (hcol : col < bc) :
    shiftedColumn .enc bc (shiftedColumn .dec bc col row) row = col ∧
      shiftedColumn .dec bc (shiftedColumn .enc bc col row) row = col := by
  have hsum : ∀ bc ∈ [4, 6, 8], ∀ row < 4, (shift bc .dec row + shift bc .enc row) % bc = 0 := by decide
  have hzero := hsum bc hbc row hrow
  constructor
  · rw [shiftedColumn, shiftedColumn, Nat.mod_add_mod, Nat.add_assoc, Nat.add_mod, hzero, Nat.add_zero,
      Nat.mod_mod, Nat.mod_eq_of_lt hcol]
  · rw [shiftedColumn, shiftedColumn, Nat.mod_add_mod, Nat.add_assoc, Nat.add_comm (shift bc .enc row), Nat.add_mod,
      hzero, Nat.add_zero, Nat.mod_mod, Nat.mod_eq_of_lt hcol]

/-- The components of column `col` of a matrix are its entries. -/
theorem component_entries (st : List Byte) (col : Nat) {row : Nat} (hrow : row < 4) :
    component (entry st 0 col, entry st 1 col, entry st 2 col, entry st 3 col) row = entry st row col := by
  obtain rfl | rfl | rfl | rfl : row = 0 ∨ row = 1 ∨ row = 2 ∨ row = 3 := by omega
  all_goals rfl

section
variable {bc : Nat} {st st' : List Byte} (h : st.length = 4 * bc) (h' : st'.length = 4 * bc)
include h h'

theorem addRoundKey_eq_iff (k : Nat → Word) : addRoundKey bc k st = st' ↔ st = addRoundKey bc k st' := by
  have hcancel {x : List Byte} (hx : x.length = 4 * bc) : addRoundKey bc k (addRoundKey bc k x) = x :=
    matrix_eq_block hx fun row col hrow hcol => by
      rw [entry_addRoundKey k x hrow hcol, BitVec.xor_assoc, BitVec.xor_self, BitVec.xor_zero]
  exact ⟨fun he => he ▸ (hcancel h).symm, fun he => he ▸ hcancel h'⟩

theorem subBytes_eq_iff : subBytes bc st = st' ↔ st = invSubBytes bc st' := by
  refine ⟨fun he => he ▸ (matrix_eq_block h fun row col hrow hcol => ?_).symm,
    fun he => he ▸ matrix_eq_block h' fun row col hrow hcol => ?_⟩
  · rw [entry_subBytes st hrow hcol, invSbox_sbox]
  · rw [entry_invSubBytes st' hrow hcol, sbox_invSbox]

theorem shiftRows_eq_iff (hbc : bc ∈ [4, 6, 8]) : shiftRows bc st = st' ↔ st = invShiftRows bc st' := by
  have hlt {dir : Dir} {row col : Nat} (hcol : col < bc) : shiftedColumn dir bc col row < bc :=
    shiftedColumn_lt _ _ (Nat.zero_lt_of_lt hcol)
  refine ⟨fun he => he ▸ (matrix_eq_block h fun row col hrow hcol => ?_).symm,
    fun he => he ▸ matrix_eq_block h' fun row col hrow hcol => ?_⟩
  · rw [← shiftedColumn_dec hbc hrow, entry_shiftRows st hrow (hlt hcol), (shiftedColumn_inverse hbc hrow hcol).1]
  · change entry _ row (shiftedColumn .enc bc col row) = _
    rw [entry_invShiftRows st' hrow (hlt hcol) hbc, (shiftedColumn_inverse hbc hrow hcol).2]

theorem mixColumns_eq_iff : mixColumns bc st = st' ↔ st = invMixColumns bc st' := by
  have hinverse := mixesAreInverse.1
  refine ⟨fun he => he ▸ (matrix_eq_block h fun row col hrow hcol => ?_).symm,
    fun he => he ▸ matrix_eq_block h' fun row col hrow hcol => ?_⟩
  · have hmix b (hb : b < 4) := entry_mixColumns st hb hcol
    rw [← component_entries st col hrow, hmix 0 (by decide), hmix 1 (by decide), hmix 2 (by decide), hmix 3 (by decide)]
    exact congrArg (component · row) (hinverse ..).1
  · have hmix b (hb : b < 4) := entry_invMixColumns st' hb hcol
    rw [← component_entries st' col hrow, hmix 0 (by decide), hmix 1 (by decide), hmix 2 (by decide),
      hmix 3 (by decide)]
    exact congrArg (component · row) (hinverse ..).2

end

/-! ## The ciphers as matrices -/

@[simp] theorem addRoundKey_length (bc : Nat) (k : Nat → Word) (st : List Byte) :
    (addRoundKey bc k st).length = 4 * bc := matrix_length ..

@[simp] theorem subBytes_length (bc : Nat) (st : List Byte) : (subBytes bc st).length = 4 * bc := matrix_length ..

@[simp] theorem shiftRows_length (bc : Nat) (st : List Byte) : (shiftRows bc st).length = 4 * bc := matrix_length ..

@[simp] theorem mixColumns_length (bc : Nat) (st : List Byte) : (mixColumns bc st).length = 4 * bc := matrix_length ..

@[simp] theorem invSubBytes_length (bc : Nat) (st : List Byte) : (invSubBytes bc st).length = 4 * bc :=
  matrix_length ..

@[simp] theorem invShiftRows_length (bc : Nat) (st : List Byte) : (invShiftRows bc st).length = 4 * bc :=
  matrix_length ..

@[simp] theorem invMixColumns_length (bc : Nat) (st : List Byte) : (invMixColumns bc st).length = 4 * bc :=
  matrix_length ..

@[simp] theorem matrixRounds_length (bc : Nat) (key : Nat → Nat → Word) (blk : List Byte) (n : Nat) :
    (matrixRounds bc key blk n).length = 4 * bc := by cases n <;> simp [matrixRounds]

@[simp] theorem matrixInvRounds_length (bc r : Nat) (key : Nat → Nat → Word) (blk : List Byte) (n : Nat) :
    (matrixInvRounds bc r key blk n).length = 4 * bc := by cases n <;> simp [matrixInvRounds]

/-- `SubBytes` and `ShiftRows` lead to a block exactly from where `InvShiftRows` and `InvSubBytes` lead. -/
theorem shiftRows_subBytes_eq_iff {bc : Nat} {st st' : List Byte} (hbc : bc ∈ [4, 6, 8]) (h : st.length = 4 * bc)
    (h' : st'.length = 4 * bc) :
    shiftRows bc (subBytes bc st) = st' ↔ st = invSubBytes bc (invShiftRows bc st') := by
  rw [shiftRows_eq_iff (subBytes_length ..) h' hbc, subBytes_eq_iff h (invShiftRows_length ..)]

/-- The rounds of an encryption of `p` and those of a decryption of `y` meet after `n` and `m` rounds, `R-1` in all,
exactly if they meet where the decryption has taken them all: moving the meeting by one round undoes that round. -/
theorem matrixRounds_meet {bc r : Nat} (key : Nat → Nat → Word) (p y : List Byte) (hbc : bc ∈ [4, 6, 8]) {n m : Nat}
    (hnm : n + m = r - 1) :
    shiftRows bc (subBytes bc (matrixRounds bc key p n)) = matrixInvRounds bc r key y m ↔
      shiftRows bc (subBytes bc (matrixRounds bc key p 0)) = matrixInvRounds bc r key y (r - 1) := by
  induction n generalizing m with
  | zero => rw [← hnm, Nat.zero_add]
  | succ n ih =>
    have hrow : r - (m + 1) = n + 1 := by omega
    rw [← ih (m := m + 1) (by omega), shiftRows_subBytes_eq_iff hbc (by simp) (by simp), matrixRounds,
      addRoundKey_eq_iff (by simp) (by simp), mixColumns_eq_iff (by simp) (by simp), matrixInvRounds, hrow]

/-- R158 for the two matrix ciphers, whatever the round keys. -/
theorem matrixEncrypt_eq_iff {bc r : Nat} (key : Nat → Nat → Word) {p y : List Byte} (hbc : bc ∈ [4, 6, 8])
    (hp : p.length = 4 * bc) (hy : y.length = 4 * bc) :
    matrixEncrypt bc r key p = y ↔ matrixDecrypt bc r key y = p := by
  calc matrixEncrypt bc r key p = y
    _ ↔ shiftRows bc (subBytes bc (matrixRounds bc key p (r - 1))) = matrixInvRounds bc r key y 0 :=
      addRoundKey_eq_iff (by simp) hy _
    _ ↔ shiftRows bc (subBytes bc (matrixRounds bc key p 0)) = matrixInvRounds bc r key y (r - 1) :=
      matrixRounds_meet key p y hbc (Nat.add_zero _)
    _ ↔ p = matrixDecrypt bc r key y := by
      rw [shiftRows_subBytes_eq_iff hbc (by simp) (by simp), matrixRounds, addRoundKey_eq_iff hp (by simp),
        matrixDecrypt]
    _ ↔ matrixDecrypt bc r key y = p := eq_comm

/-! ## One block under a context -/

theorem bc_mem {s : State} (hsize : validSize s.ctx.blockSize = true) : s.bc ∈ [4, 6, 8] := by
  simpa [State.bc] using wordsOf_cases hsize

theorem State.Inv.blockSize_valid {s : State} (hs : s.Inv) (hv : s.ctx.cfgValid = true) :
    validSize s.ctx.blockSize = true := by
  obtain ⟨hsizes, -⟩ := hs
  exact (hsizes.1 hv).1

section
variable {s : State} (hs : s.Inv) (hv : s.ctx.cfgValid = true) (hr : s.rebuilding = false)
include hs hv

theorem cipher_enc_eq_matrix {p : List Byte} (hp : p.length = 4 * s.bc) :
    s.cipher .enc p = matrixEncrypt s.bc s.rounds s.keAt p :=
  encryptionIsTheStateMatrixCipher _ (bc_mem (hs.blockSize_valid hv)) _ _ _ hp

include hr

/-- The decryption store of a constructed engine is as the direct inverse cipher needs it (R26, R159). -/
theorem cipher_dec_eq_matrix {p : List Byte} (hp : p.length = 4 * s.bc) :
    s.cipher .dec p = matrixDecrypt s.bc s.rounds s.keAt p := by
  obtain ⟨-, -, hmirror⟩ := decryptionStoreMirrorsTheEncryptionStore s hs hv hr
  have hrounds : 1 ≤ s.rounds := by
    have hcases := rounds_cases s.ctx.keyLen s.ctx.blockSize
    rw [State.rounds]
    omega
  refine decryptionIsTheDirectInverseCipher _ (bc_mem (hs.blockSize_valid hv)) _ _ _ _ hrounds hp (fun j hj => ?_)
    fun n j hn hn' hj => ?_
  · obtain ⟨hfirst, hlast, -⟩ := hmirror j hj
    exact ⟨hfirst, hlast⟩
  · obtain ⟨-, -, hinner⟩ := hmirror j hj
    exact hinner n hn hn'

/-- R158 at the level of the datapath: a block encrypts to `y` exactly if `y` decrypts to it. -/
theorem cipher_enc_eq_iff {p y : List Byte} (hp : p.length = s.ctx.blockSize) (hy : y.length = s.ctx.blockSize) :
    s.cipher .enc p = y ↔ s.cipher .dec y = p := by
  have hsize := hs.blockSize_valid hv
  have hbc : 4 * s.bc = s.ctx.blockSize := four_mul_wordsOf hsize
  rw [← hbc] at hp hy
  rw [cipher_enc_eq_matrix hs hv hp, cipher_dec_eq_matrix hs hv hr hy]
  exact matrixEncrypt_eq_iff s.keAt (bc_mem hsize) hp hy

theorem cipher_dec_enc {p : List Byte} (hp : p.length = s.ctx.blockSize) : s.cipher .dec (s.cipher .enc p) = p :=
  (cipher_enc_eq_iff hs hv hr hp (cipher_length (hs.blockSize_valid hv) .enc p)).1 rfl

theorem cipher_enc_dec {p : List Byte} (hp : p.length = s.ctx.blockSize) : s.cipher .enc (s.cipher .dec p) = p :=
  (cipher_enc_eq_iff hs hv hr (cipher_length (hs.blockSize_valid hv) .dec p) hp).2 rfl

end

/-! ## Two block commands -/

/-- The state with `p` as the data that the host presents. -/
abbrev State.withDin (s : State) (p : List Byte) : State := { s with cmd := { s.cmd with din := p } }

/-- A block command on one block ends with that block through the cipher, over the same context (R141, R155). -/
theorem blockCommand_withDin {s : State} {p : List Byte} (dir : Dir) (hv : s.ctx.cfgValid = true)
    (hp : p.length = s.ctx.blockSize) :
    ((s.withDin p).blockCommand dir).resp = { status := .ok, dout := s.cipher dir p } ∧
      ((s.withDin p).blockCommand dir).ctx = s.ctx := by
  rw [blockCommand_ok (s := s.withDin p) (blockError_none.2 ⟨hv, hp⟩)]
  exact ⟨rfl, rfl⟩

/-- If one direction of the cipher undoes the other on `p`, so do the two block commands, the second one given the data
of the first. -/
theorem blockCommand_undo {s : State} {p : List Byte} {dir dir' : Dir} (hs : s.Inv) (hv : s.ctx.cfgValid = true)
    (hr : s.rebuilding = false) (hp : p.length = s.ctx.blockSize) (hundo : s.cipher dir' (s.cipher dir p) = p) :
    let t := (s.withDin p).blockCommand dir
    t.resp.status = .ok ∧ ((t.withDin t.resp.dout).blockCommand dir').resp = { status := .ok, dout := p } := by
  intro t
  obtain ⟨hresp, hctx⟩ : t.resp = _ ∧ t.ctx = s.ctx := blockCommand_withDin dir hv hp
  have hlen := cipher_length (hs.blockSize_valid hv) dir p
  have hstores : s.ctx.storesOk := (hs.settled hr).2.1 hv
  refine ⟨by rw [hresp], ?_⟩
  rw [hresp, (blockCommand_withDin dir' (by rw [hctx, hv]) (by rw [hctx, hlen])).1, cipher_congr hstores hctx, hundo]

/-- Settles O26: each direction of the cipher undoes the other, and so do the two commands. -/
theorem decryptInvertsEncrypt : Obligations.DecryptInvertsEncrypt := by
  intro s p hs hv hr hp
  obtain ⟨henc, hdec⟩ := blockCommand_undo hs hv hr hp (cipher_dec_enc hs hv hr hp)
  obtain ⟨hdec', henc'⟩ := blockCommand_undo hs hv hr hp (cipher_enc_dec hs hv hr hp)
  exact ⟨⟨_, _, rfl, henc, rfl, hdec⟩, ⟨_, _, rfl, hdec', rfl, henc'⟩⟩

end Sys2Proof.Machine
end

section
/-! PROOFS. Runs of a running command, and the run of the block datapath: after `LOAD` and `n` rounds `T` holds the
words that the rules compute, so `FINAL` produces the block of the command (R166, R169). -/

namespace Sys2Proof.Machine

/-! ## Runs -/

theorem microRun_idle {s : State} (h : s.busy = false) (n : Nat) : s.microRun n = .next s := by
  cases n <;> simp [State.microRun, h]

/-- A run of `m` and then `n` steps is a run of `m + n` steps. -/
theorem microRun_add {s t : State} {m : Nat} (h : s.microRun m = .next t) (n : Nat) :
    s.microRun (m + n) = t.microRun n := by
  induction m generalizing s with
  | zero =>
    obtain rfl := Host.Outcome.next.inj h
    rw [Nat.zero_add]
  | succ m ih =>
    cases hb : s.busy with
    | false =>
      rw [microRun_idle hb] at h ⊢
      obtain rfl := Host.Outcome.next.inj h
      rw [microRun_idle hb]
    | true =>
      cases hstep : s.microStep with
      | next u =>
        rw [microRun_succ hb hstep] at h
        rw [Nat.succ_add, microRun_succ hb hstep, ih h]
      | fault f => simp [State.microRun, hb, hstep] at h
      | refused r => simp [State.microRun, hb, hstep] at h

/-- One more step of a run, taken at its end. -/
theorem microRun_snoc {s t u : State} {n : Nat} (h : s.microRun n = .next t) (hb : t.busy = true)
    (hstep : t.microStep = .next u) : s.microRun (n + 1) = .next u := by
  rw [microRun_add h, microRun_succ hb hstep, State.microRun]

/-- The state machines lead from `s` to `t` in some number of steps. -/
def State.reaches (s t : State) : Prop := ∃ n, s.microRun n = .next t

section
variable {s t u : State}

theorem State.reaches.refl (s : State) : s.reaches s := ⟨0, rfl⟩

theorem State.reaches.trans (h : s.reaches t) (h' : t.reaches u) : s.reaches u := by
  obtain ⟨m, hm⟩ := h
  obtain ⟨n, hn⟩ := h'
  exact ⟨m + n, (microRun_add hm n).trans hn⟩

theorem reaches_of_microStep (hb : s.busy = true) (h : s.microStep = .next t) : s.reaches t :=
  ⟨1, microRun_succ hb h 0⟩

end

/-! ## The rounds of a block operation -/

/-- The state with the datapath `d`: all that a step inside a block operation writes (R166). -/
abbrev State.withDatapath (s : State) (d : Datapath) : State := { s with dp := d }

/-- `d` is the datapath of `s` with the block `blk` under way: loaded, and `n` middle rounds done (R166 to R168). -/
structure State.AfterRounds (s : State) (dir : Dir) (blk : List Byte) (n : Nat) (d : Datapath) : Prop where
  latched : d.dir = dir
  row : d.rnd = n + 1
  fsm : d.fsm = if n < s.rounds - 1 then .round else .final
  words : ∀ j, j < s.bc →
    (s.withDatapath d).tAt j = wordAt (roundState dir s.bc (s.roundKey dir) (byteAt blk) n) j

section
variable {s : State} {dir : Dir} {blk : List Byte} {n : Nat} {d : Datapath}

theorem State.AfterRounds.fsm_ne_idle (h : s.AfterRounds dir blk n d) : d.fsm ≠ .idle := by
  rw [h.fsm]; split <;> decide

/-- The bytes of the block that was presented are those that `LOAD` reads. -/
theorem loadWords_blkIn {bc : Nat} (k : Nat → Word) (hlen : s.dp.blkIn.length = 4 * bc) :
    loadWords bc s.blkInAt k = loadWords bc (byteAt s.dp.blkIn) k := by
  refine List.map_congr_left fun i hi => ?_
  have hi : i < bc := List.mem_range.1 hi
  have hbyte b (hb : b < 4 * bc) : s.blkInAt b = byteAt s.dp.blkIn b := getD_any (hlen ▸ hb) _ _
  rw [be32, be32, hbyte _ (by omega), hbyte _ (by omega), hbyte _ (by omega), hbyte _ (by omega)]

variable (hsize : validSize s.ctx.blockSize = true)
include hsize

/-- `LOAD` (R137, R152). -/
theorem microStep_load (hlen : blk.length = s.ctx.blockSize) :
    ∃ d, (s.startBlock dir blk).microStep = .next (s.withDatapath d) ∧ s.AfterRounds dir blk 0 d := by
  have hbytes : loadWords s.bc (s.startBlock dir blk).blkInAt (s.roundKey dir 0) =
      roundState dir s.bc (s.roundKey dir) (byteAt blk) 0 :=
    loadWords_blkIn (s := s.startBlock dir blk) _ (hlen.trans (four_mul_wordsOf hsize).symm)
  refine ⟨_, (microStep_block (by simp)).trans (stepBlock_load hsize rfl), rfl, rfl,
    (if_pos (Nat.sub_pos_of_lt (one_lt_rounds s))).symm, fun j hj => ?_⟩
  rw [← hbytes]
  exact tAt_overlay rfl (by simpa using hj)

/-- `ROUND` (R138, R153): every word from the old `T`, with key row `RND`. -/
theorem State.AfterRounds.microStep_round (h : s.AfterRounds dir blk n d) (hn : n < s.rounds - 1) :
    ∃ d', (s.withDatapath d).microStep = .next (s.withDatapath d') ∧ s.AfterRounds dir blk (n + 1) d' := by
  have hfsm : d.fsm = .round := h.fsm.trans (if_pos hn)
  have hwords : midRound d.dir s.bc (s.withDatapath d).tAt (s.roundKey d.dir d.rnd) =
      roundState dir s.bc (s.roundKey dir) (byteAt blk) (n + 1) := by
    rw [h.latched, h.row]
    exact midRound_congr h.words fun _ _ => rfl
  refine ⟨_, (microStep_block h.fsm_ne_idle).trans (stepBlock_round hsize hfsm), h.latched, ?_, ?_, fun j hj => ?_⟩
  · change (if d.rnd < s.rounds - 1 then d.rnd + 1 else s.rounds) = n + 2
    rw [h.row]
    split <;> omega
  · change (if d.rnd < s.rounds - 1 then Fsm.round else .final) = _
    rw [h.row]
  · rw [← hwords]
    exact tAt_overlay rfl (by simpa using hj)

/-- `FINAL` (R139, R154): the output block is the one that the rounds compute. -/
theorem State.AfterRounds.microStep_final (h : s.AfterRounds dir blk (s.rounds - 1) d) :
    ∃ d', (s.withDatapath d).microStep = .next (s.withDatapath d') ∧ d'.fsm = .done ∧
      d'.out = s.cipher dir blk := by
  have hfsm : d.fsm = .final := h.fsm.trans (if_neg (Nat.lt_irrefl _))
  refine ⟨_, (microStep_block h.fsm_ne_idle).trans (stepBlock_final hsize hfsm), rfl, ?_⟩
  change finalRound d.dir s.bc (s.withDatapath d).tAt (s.roundKey d.dir s.rounds) = s.cipher dir blk
  rw [h.latched]
  exact finalRound_congr h.words fun _ _ => rfl

variable (hlen : blk.length = s.ctx.blockSize)
include hlen

/-- `LOAD` and then `n` times `ROUND`. -/
theorem microRun_rounds (hn : n ≤ s.rounds - 1) :
    ∃ d, (s.startBlock dir blk).microRun (n + 1) = .next (s.withDatapath d) ∧ s.AfterRounds dir blk n d := by
  induction n with
  | zero =>
    obtain ⟨d, hstep, hd⟩ := microStep_load hsize hlen
    exact ⟨d, microRun_snoc rfl rfl hstep, hd⟩
  | succ n ih =>
    obtain ⟨d, hrun, hd⟩ := ih (by omega)
    obtain ⟨d', hstep, hd'⟩ := hd.microStep_round hsize hn
    exact ⟨d', microRun_snoc hrun (busy_of_fsm hd.fsm_ne_idle) hstep, hd'⟩

/-- The `R + 1` working steps of a block operation: `LOAD`, `R - 1` times `ROUND`, `FINAL` (R169). -/
theorem microRun_final (dir : Dir) :
    ∃ d, (s.startBlock dir blk).microRun (s.rounds + 1) = .next (s.withDatapath d) ∧ d.fsm = .done ∧
      d.out = s.cipher dir blk := by
  have hrounds : s.rounds - 1 + 1 = s.rounds := Nat.sub_add_cancel (Nat.le_of_lt (one_lt_rounds s))
  obtain ⟨d, hrun, hd⟩ := microRun_rounds (dir := dir) hsize hlen (Nat.le_refl _)
  obtain ⟨d', hstep, hd'⟩ := hd.microStep_final hsize
  rw [hrounds] at hrun
  exact ⟨d', microRun_snoc hrun (busy_of_fsm hd.fsm_ne_idle) hstep, hd'⟩

/-- Through its working steps the datapath is not idle. -/
theorem microRun_block_busy (dir : Dir) (hn : n ≤ s.rounds + 1) :
    ∃ u, (s.startBlock dir blk).microRun n = .next u ∧ u.busy = true := by
  rcases n with _ | n
  · exact ⟨_, rfl, rfl⟩
  rcases Nat.lt_or_ge n s.rounds with hlt | hge
  · obtain ⟨d, hrun, hd⟩ := microRun_rounds (dir := dir) hsize hlen (Nat.le_sub_one_of_lt hlt)
    exact ⟨_, hrun, busy_of_fsm hd.fsm_ne_idle⟩
  · obtain rfl : n = s.rounds := by omega
    obtain ⟨d, hrun, hdone, -⟩ := microRun_final hsize hlen dir
    exact ⟨_, hrun, busy_of_fsm (by simp [hdone])⟩

/-- The working steps and `DONE`. -/
theorem microRun_block (dir : Dir) :
    ∃ d, (s.startBlock dir blk).microRun (s.rounds + 2) = .next (s.withDatapath d).blockDone ∧
      d.out = s.cipher dir blk := by
  obtain ⟨d, hrun, hdone, hout⟩ := microRun_final hsize hlen dir
  have hne : (s.withDatapath d).dp.fsm ≠ .idle := by simp [hdone]
  exact ⟨d, microRun_snoc hrun (busy_of_fsm hne) ((microStep_block hne).trans (stepBlock_done hdone)), hout⟩

end

/-! ## Block commands -/

/-- R165: a block command started on the datapath ends as the command executed whole. -/
theorem microRun_blockCommand {s : State} (dir : Dir) (hs : s.settled) (hidle : s.busy = false)
    (hok : blockError s = none) :
    (s.startBlock dir s.cmd.din).microRun (s.rounds + 2) = .next (s.blockCommand dir) := by
  obtain ⟨hv, hlen⟩ := blockError_none.1 hok
  obtain ⟨-, -, hc⟩ := (busy_false_iff s).1 hidle
  obtain ⟨d, hrun, hout⟩ := microRun_block (hs.blockSize_valid hv) hlen dir
  rw [hrun, blockDone_command (by simp [hc]), blockCommand_ok hok, ← hout]
  rfl

/-- The two block commands, executed and started, are one at their direction. -/
theorem begin_block {i : Instr} (hi : i ∈ [Instr.engineEncrypt, .engineDecrypt]) {s : State}
    (hok : blockError s = none) :
    ∃ dir, exec i s = .next (s.blockCommand dir) ∧ s.begin i = s.startBlock dir s.cmd.din := by
  simp only [List.mem_cons, List.not_mem_nil, or_false] at hi
  rcases hi with rfl | rfl
  · exact ⟨.enc, rfl, by simp [State.begin, hok]⟩
  · exact ⟨.dec, rfl, by simp [State.begin, hok]⟩

/-- Settles O30: `microRun_blockCommand` is the run, and `microRun_block_busy` says that no step before the last ends
it. -/
theorem blockMachineTakesItsRounds : Obligations.BlockMachineTakesItsRounds := by
  intro s hs hidle hok i hi
  have hsettled := (inv_idle hidle).1 hs
  obtain ⟨hv, hlen⟩ := blockError_none.1 hok
  obtain ⟨dir, hexec, hbegin⟩ := begin_block hi hok
  rw [hexec, hbegin]
  exact ⟨microRun_blockCommand dir hsettled hidle hok,
    fun n => microRun_block_busy (hsettled.blockSize_valid hv) hlen dir⟩

end Sys2Proof.Machine
end

section
/-! PROOFS. The step while a command runs: the state machines go on whatever the host's next move, and a command to
present waits for its turn (R175, R271). -/

namespace Sys2Proof.Machine

section
variable {s : State} (hb : s.busy = true)
include hb

theorem step_nil_of_busy (hhost : s.host = []) : step s = s.microStep := by rw [step_nil hhost, noMove_busy hb]

theorem step_wait_of_busy {rest : List HostMove} (hhost : s.host = .wait :: rest) :
    step s = (s.moved rest).microStep :=
  (step_wait hhost).trans (noMove_busy hb)

theorem step_command_of_busy {c : Command} {rest : List HostMove}
    (hhost : s.host = .issue c :: rest ∨ s.host = .start c :: rest) : step s = s.microStep := by
  rcases hhost with hhost | hhost
  · rw [step_issue hhost, if_pos hb]
  · rw [step_start hhost, if_pos hb]

end

/-- R166, R170: the step of `FSM` is the micro-operation that the selects spell. -/
theorem microStep_uop {s : State} {i : Instr} (hidle : s.dp.fsm ≠ .idle) (hdone : s.dp.fsm ≠ .done)
    (hdec : decodeUop5 s.uopWord = .ok i) : s.microStep = exec i s := by
  simp [microStep_block hidle, State.stepBlock, hdone, hdec]

/-- Settles O6: in each of the host's moves the step is a `microStep`, and a wait changes no select signal. -/
theorem stepRunsTheSelectedMicroOp : Obligations.StepRunsTheSelectedMicroOp := by
  intro s i hfsm hdec
  have hidle : s.dp.fsm ≠ .idle := by rcases hfsm with h | h | h <;> simp [h]
  have hdone : s.dp.fsm ≠ .done := by rcases hfsm with h | h | h <;> simp [h]
  have hb := busy_of_fsm hidle
  have hstep := microStep_uop hidle hdone hdec
  exact ⟨fun hhost => (step_nil_of_busy hb hhost).trans hstep,
    fun rest hhost => (step_wait_of_busy hb hhost).trans (microStep_uop (s := s.moved rest) hidle hdone hdec),
    fun c rest hhost => (step_command_of_busy hb hhost).trans hstep⟩

/-- Settles O10: `microStep_kept` for the moves that leave the command running; a reset leaves the operands, which are
the host's. -/
theorem runningCommandKeepsItsOperands : Obligations.RunningCommandKeepsItsOperands := by
  intro s t hb h
  rcases hhost : s.host with _ | ⟨m, rest⟩
  · have hkept := microStep_kept ((step_nil_of_busy hb hhost).symm.trans h)
    exact ⟨hkept.cmd, nofun, fun _ => hkept.host.trans hhost, nofun⟩
  cases m with
  | issue c | start c =>
    have hkept := microStep_kept ((step_command_of_busy (c := c) (rest := rest) hb (by simp [hhost])).symm.trans h)
    exact ⟨hkept.cmd, fun _ _ _ => hkept.host.trans hhost, nofun, nofun⟩
  | wait =>
    have hkept := microStep_kept ((step_wait_of_busy hb hhost).symm.trans h)
    exact ⟨hkept.cmd, nofun, nofun, fun _ hrest => hkept.host.trans (by simpa using hrest)⟩
  | reset =>
    obtain rfl := Host.Outcome.next.inj ((step_reset hhost).symm.trans h)
    exact ⟨rfl, nofun, nofun, fun _ hrest => by simpa using hrest⟩

end Sys2Proof.Machine
end

section
/-! PROOFS. The batches of the key-schedule expander: each gives the next `k_c` words of the recurrence (R119, R125),
and `copy_out` fills the rows of both stores with them (R122). -/

namespace Sys2Proof.Machine

/-! ## One batch is `k_c` words of the recurrence -/

/-- The next word over a window of `k_c` words that begins with `v` and ends with `p` (R119). -/
theorem nextWord_window {kc : Nat} (pre mid : List Word) (v p : Word) (h : mid.length + 2 = kc) :
    nextWord kc (pre ++ v :: (mid ++ [p])) = v ^^^
      (if pre.length % kc = 0 then subWord (rotWord p) ^^^ ((rcon (pre.length / kc)).setWidth 32 <<< 24)
       else if kc = 8 ∧ pre.length % kc = 4 then subWord p else p) := by
  have hlen : (pre ++ v :: (mid ++ [p])).length = pre.length + kc := by simp; omega
  have hlast : wordAt (pre ++ v :: (mid ++ [p])) (pre.length + kc - 1) = p := by
    have hi : pre.length + kc - 1 = pre.length + (mid.length + 1) := by omega
    simp [wordAt, List.getD_eq_getElem?_getD, hi]
  have hfirst : wordAt (pre ++ v :: (mid ++ [p])) pre.length = v := by
    simp [wordAt, List.getD_eq_getElem?_getD]
  have hbatch : (pre.length + kc) / kc - 1 = pre.length / kc := by
    rw [Nat.add_div_right _ (by omega)]; rfl
  simp only [nextWord, hlen, hlast, Nat.add_sub_cancel, hfirst, Nat.add_mod_right, hbatch]

/-- Where neither exception of R119 applies, the recurrence is the running exclusive-or of R125. -/
theorem extendSchedule_xorChain {kc : Nat} (ws : List Word) : ∀ (pre mid : List Word) (p : Word),
    ws.length + mid.length + 1 = kc →
    (∀ i, i < ws.length → (pre.length + i) % kc ≠ 0 ∧ ¬(kc = 8 ∧ (pre.length + i) % kc = 4)) →
    extendSchedule kc ws.length (pre ++ ws ++ (mid ++ [p])) = pre ++ ws ++ (mid ++ [p]) ++ xorChain p ws := by
  induction ws with
  | nil => intro pre mid p _ _; simp [extendSchedule, xorChain]
  | cons v ws ih =>
    intro pre mid p hkc hplain
    have hlen : ws.length + 1 + mid.length + 1 = kc := hkc
    have hnext : nextWord kc (pre ++ v :: ws ++ (mid ++ [p])) = v ^^^ p := by
      obtain ⟨h0, h4⟩ := hplain 0 (by simp)
      have h := nextWord_window (kc := kc) pre (ws ++ mid) v p (by simp; omega)
      rw [Nat.add_zero] at h0 h4
      rw [if_neg h0, if_neg h4] at h
      simpa using h
    have hrest := ih (pre ++ [v]) (mid ++ [p]) (v ^^^ p) (by simp; omega) fun i hi => by
      simpa [Nat.add_assoc, Nat.add_comm 1] using hplain (i + 1) (by simpa using hi)
    rw [List.length_cons, extendSchedule, hnext, xorChain]
    simpa using hrest

/-- The first word of a batch carries the round constant. -/
theorem nextWord_batch {kc m : Nat} {pre : List Word} (mid : List Word) (v p : Word) (h : mid.length + 2 = kc)
    (hpre : pre.length = m * kc) :
    nextWord kc (pre ++ v :: (mid ++ [p])) =
      v ^^^ subWord (rotWord p) ^^^ ((rcon m).setWidth 32 <<< 24) := by
  rw [nextWord_window pre mid v p h, hpre, Nat.mul_mod_left, if_pos rfl, Nat.mul_div_cancel _ (by omega),
    BitVec.xor_assoc]

/-- For keys of 4 and 6 words a batch is one running exclusive-or after its first word (R125). -/
theorem extendSchedule_batch_short {kc m : Nat} {pre tk : List Word} (hkc : kc = 4 ∨ kc = 6)
    (hpre : pre.length = m * kc) (htk : tk.length = kc) :
    extendSchedule kc kc (pre ++ tk) = pre ++ tk ++ nextBatch kc m tk := by
  obtain ⟨v, ws, rfl⟩ := List.exists_cons_of_length_pos (l := tk) (by omega)
  obtain rfl | ⟨mid, p, rfl⟩ := List.eq_nil_or_concat' ws
  · simp at htk; omega
  have hmid : mid.length + 2 = kc := by simpa using htk
  have hfirst := nextWord_batch mid v p hmid hpre
  generalize ht0 : v ^^^ subWord (rotWord p) ^^^ ((rcon m).setWidth 32 <<< 24) = t0 at hfirst
  have hbatch : nextBatch kc m (v :: (mid ++ [p])) = t0 :: xorChain t0 (mid ++ [p]) := by
    have hne : kc ≠ 8 := by omega
    rw [nextBatch, if_pos hne]
    simp [← hmid, wordAt, List.getD_eq_getElem?_getD, ht0]
  have hchain := extendSchedule_xorChain (kc := kc) (mid ++ [p]) (pre ++ [v]) [] t0 (by simpa using hmid) fun i hi => by
    have hi : i < mid.length + 1 := by simpa using hi
    rw [List.length_append, hpre, List.length_singleton]
    rcases hkc with rfl | rfl <;> omega
  have hcount : extendSchedule kc kc = extendSchedule kc ((mid ++ [p]).length + 1) := by simp [← hmid]
  rw [hcount, extendSchedule, hfirst, hbatch]
  simpa using hchain

/-- For keys of 8 words `SubWord` starts the exclusive-or anew at the middle of the batch (R119, R125). -/
theorem extendSchedule_batch_eight {m : Nat} {pre tk : List Word} (hpre : pre.length = m * 8) (htk : tk.length = 8) :
    extendSchedule 8 8 (pre ++ tk) = pre ++ tk ++ nextBatch 8 m tk := by
  match tk, htk with
  | [a, b, c, d, e, f, g, h], _ =>
  have hfirst := nextWord_batch [b, c, d, e, f, g] a h rfl hpre
  generalize ht0 : a ^^^ subWord (rotWord h) ^^^ ((rcon m).setWidth 32 <<< 24) = t0 at hfirst
  have hlow := extendSchedule_xorChain (kc := 8) [b, c, d] (pre ++ [a]) [e, f, g, h] t0 rfl (by simp; omega)
  obtain ⟨t1, t2, t3, ht⟩ : ∃ t1 t2 t3, xorChain t0 [b, c, d] = [t1, t2, t3] := ⟨_, _, _, rfl⟩
  have hmiddle : nextWord 8 (pre ++ [a, b, c, d, e, f, g, h, t0, t1, t2, t3]) = e ^^^ subWord t3 := by
    have hmod : (pre.length + 4) % 8 = 4 := by omega
    simpa [hmod] using nextWord_window (pre ++ [a, b, c, d]) [f, g, h, t0, t1, t2] e t3 rfl
  have hhigh := extendSchedule_xorChain (kc := 8) [f, g, h] (pre ++ [a, b, c, d, e]) [t0, t1, t2, t3]
    (e ^^^ subWord t3) rfl (by simp; omega)
  have hbatch : nextBatch 8 m [a, b, c, d, e, f, g, h] =
      [t0, t1, t2, t3] ++ (e ^^^ subWord t3) :: xorChain (e ^^^ subWord t3) [f, g, h] := by
    simp [nextBatch, wordAt, ht0, ht]
  calc extendSchedule 8 8 (pre ++ [a, b, c, d, e, f, g, h])
    _ = extendSchedule 8 (3 + 4) (pre ++ [a, b, c, d, e, f, g, h] ++ [t0]) := by rw [extendSchedule, ← hfirst]; rfl
    _ = extendSchedule 8 4 (pre ++ [a, b, c, d, e, f, g, h, t0, t1, t2, t3]) := by
      rw [extendSchedule_add]
      simpa [ht] using congrArg (extendSchedule 8 4) hlow
    _ = extendSchedule 8 3 (pre ++ [a, b, c, d, e, f, g, h, t0, t1, t2, t3, e ^^^ subWord t3]) := by
      rw [extendSchedule, hmiddle]; simp
    _ = pre ++ [a, b, c, d, e, f, g, h] ++ nextBatch 8 m [a, b, c, d, e, f, g, h] := by
      rw [hbatch]; simpa using hhigh

/-- A batch that begins at schedule word `m * k_c`, with round constant `RCON[m]`, gives the next `k_c` words (R125). -/
theorem extendSchedule_batch {kc m : Nat} {pre tk : List Word} (hkc : kc = 4 ∨ kc = 6 ∨ kc = 8)
    (hpre : pre.length = m * kc) (htk : tk.length = kc) :
    extendSchedule kc kc (pre ++ tk) = pre ++ tk ++ nextBatch kc m tk := by
  rcases hkc with rfl | rfl | rfl
  · exact extendSchedule_batch_short (.inl rfl) hpre htk
  · exact extendSchedule_batch_short (.inr rfl) hpre htk
  · exact extendSchedule_batch_eight hpre htk

/-- The schedule after `m` batches: the key words and `m * k_c` words of the recurrence (R119, R125). -/
def batchWords (key : List Byte) (m : Nat) : List Word :=
  extendSchedule (wordsOf key.length) (m * wordsOf key.length) (beWords key (wordsOf key.length))

theorem batchWords_length (key : List Byte) (m : Nat) : (batchWords key m).length = (m + 1) * wordsOf key.length := by
  simp [batchWords]; ring

/-- `TK` after `m` batches. -/
def batchWindow (key : List Byte) (m : Nat) : List Word := (batchWords key m).drop (m * wordsOf key.length)

theorem batchWindow_length (key : List Byte) (m : Nat) : (batchWindow key m).length = wordsOf key.length := by
  rw [batchWindow, List.length_drop, batchWords_length, Nat.succ_mul, Nat.add_sub_cancel_left]

theorem batchWords_succ {key : List Byte} (hkey : validSize key.length = true) (m : Nat) :
    batchWords key (m + 1) = batchWords key m ++ nextBatch (wordsOf key.length) m (batchWindow key m) := by
  have hpre : ((batchWords key m).take (m * wordsOf key.length)).length = m * wordsOf key.length := by
    rw [List.length_take, batchWords_length, Nat.succ_mul, Nat.min_eq_left (Nat.le_add_right _ _)]
  have hbatch := extendSchedule_batch (wordsOf_cases hkey) hpre (batchWindow_length key m)
  rw [batchWindow, List.take_append_drop] at hbatch
  rw [batchWords, Nat.succ_mul, extendSchedule_add]
  exact hbatch

theorem batchWindow_succ {key : List Byte} (hkey : validSize key.length = true) (m : Nat) :
    batchWindow key (m + 1) = nextBatch (wordsOf key.length) m (batchWindow key m) := by
  rw [batchWindow, batchWords_succ hkey, ← batchWords_length, List.drop_left]

theorem take_extendSchedule (kc n : Nat) (w : List Word) : (extendSchedule kc n w).take w.length = w := by
  refine List.ext_getElem? fun i => ?_
  rcases Nat.lt_or_ge i w.length with hlt | hge
  · rw [List.getElem?_take_of_lt hlt, extendSchedule_prefix _ _ _ hlt]
  · rw [List.getElem?_take_eq_none hge, List.getElem?_eq_none hge]

/-- Once `m` batches reach `N` words, the first `N` of them are the schedule (R118). -/
theorem take_batchWords {key : List Byte} {bs m : Nat} (hkey : validSize key.length = true)
    (hb : validSize bs = true) (h : scheduleLength key.length bs ≤ (m + 1) * wordsOf key.length) :
    (batchWords key m).take (scheduleLength key.length bs) = schedule key bs := by
  have hle := wordsOf_le_scheduleLength hkey hb
  have hcount : m * wordsOf key.length = (scheduleLength key.length bs - wordsOf key.length) +
      ((m + 1) * wordsOf key.length - scheduleLength key.length bs) := by
    rw [Nat.succ_mul] at h ⊢; omega
  have htake := take_extendSchedule (wordsOf key.length)
    ((m + 1) * wordsOf key.length - scheduleLength key.length bs) (schedule key bs)
  rw [schedule_length hkey hb] at htake
  rw [batchWords, hcount, extendSchedule_add]
  exact htake

/-! ## The stores, word by word -/

theorem cutRows_nil (bc n : Nat) : cutRows bc n [] = List.replicate n [] := by
  induction n with
  | zero => rfl
  | succ n ih => simp [cutRows, ih, List.replicate_succ]

/-- The word after those in place goes to the row and column that R122 gives it. -/
theorem storeWord_cutRows {bc n : Nat} {w : List Word} (x : Word) (h : w.length < n * bc) :
    storeWord (cutRows bc n w) (w.length / bc) x = cutRows bc n (w ++ [x]) := by
  have hbc : 0 < bc := Nat.pos_of_mul_pos_left (Nat.zero_lt_of_lt h)
  induction n generalizing w with
  | zero => simp at h
  | succ n ih =>
    rcases Nat.lt_or_ge w.length bc with hlt | hge
    · have hfull : (w ++ [x]).length ≤ bc := by simpa using hlt
      rw [Nat.div_eq_of_lt hlt, cutRows, cutRows, List.take_of_length_le (Nat.le_of_lt hlt),
        List.drop_of_length_le (Nat.le_of_lt hlt), List.take_of_length_le hfull, List.drop_of_length_le hfull]
      rfl
    · have hrow : w.length / bc = (w.drop bc).length / bc + 1 := by
        rw [List.length_drop, ← Nat.add_div_right _ hbc, Nat.sub_add_cancel hge]
      have hrest := ih (w := w.drop bc) (by rw [List.length_drop]; rw [Nat.succ_mul] at h; omega)
      rw [hrow, cutRows, cutRows, List.take_append_of_le_length hge, List.drop_append_of_le_length hge, ← hrest]
      rfl

/-- Both stores hold the words `w`, row by row, mirrored, and `WIDX` counts them (R125). -/
structure State.Holds (s : State) (w : List Word) : Prop where
  widx : s.kx.widx = w.length
  ke : s.ctx.ke = cutRows (wordsOf s.cmd.bsIn) (Machine.rounds s.cmd.keyBuf.length s.cmd.bsIn + 1) w
  kd : s.ctx.kd = s.ctx.ke.reverse

theorem loadKey_holds (s : State) : s.loadKey.Holds [] :=
  ⟨rfl, (cutRows_nil _ _).symm, by simp⟩

/-- One pass of `copy_out`: the word is stored while `WIDX < N` (R125). -/
theorem copyWord_holds {s : State} {w : List Word} (x : Word)
    (h : s.Holds (w.take (scheduleLength s.cmd.keyBuf.length s.cmd.bsIn))) :
    (s.copyWord x).Holds ((w ++ [x]).take (scheduleLength s.cmd.keyBuf.length s.cmd.bsIn)) := by
  have hbound : scheduleLength s.cmd.keyBuf.length s.cmd.bsIn =
      (rounds s.cmd.keyBuf.length s.cmd.bsIn + 1) * wordsOf s.cmd.bsIn := rfl
  generalize hN : scheduleLength s.cmd.keyBuf.length s.cmd.bsIn = N at *
  rcases Nat.lt_or_ge w.length N with hlt | hge
  · have hmore : (w ++ [x]).length ≤ N := by simpa using hlt
    rw [List.take_of_length_le (Nat.le_of_lt hlt)] at h
    rw [List.take_of_length_le hmore]
    obtain ⟨hwidx, hke, hkd⟩ := h
    have hrow : w.length / wordsOf s.cmd.bsIn ≤ rounds s.cmd.keyBuf.length s.cmd.bsIn :=
      Nat.le_of_lt_succ (Nat.div_lt_of_lt_mul (by rw [Nat.mul_comm, ← hbound]; exact hlt))
    have hlen : s.ctx.ke.length = rounds s.cmd.keyBuf.length s.cmd.bsIn + 1 := by rw [hke, cutRows_length]
    simp only [State.copyWord, hN, hwidx, if_pos hlt]
    refine ⟨by simp, ?_, ?_⟩
    · simp only [hke]
      exact storeWord_cutRows x (hbound ▸ hlt)
    · simp only [hkd]
      exact storeWord_reverse x hlen hrow
  · rw [List.take_append_of_le_length hge]
    have hfull : ¬ s.kx.widx < N := by rw [h.widx, List.length_take]; omega
    simp only [State.copyWord, hN, if_neg hfull]
    exact h

/-- `copy_out` stores the words that it is given, up to `N` (R125). -/
theorem foldl_copyWord_holds (xs : List Word) : ∀ {s : State} {w : List Word},
    s.Holds (w.take (scheduleLength s.cmd.keyBuf.length s.cmd.bsIn)) →
    (xs.foldl State.copyWord s).Holds ((w ++ xs).take (scheduleLength s.cmd.keyBuf.length s.cmd.bsIn)) := by
  induction xs with
  | nil => intro s w h; simpa using h
  | cons x xs ih =>
    intro s w h
    have hcmd : (s.copyWord x).cmd = s.cmd := by
      obtain ⟨-, -, -, -, -, -, -, -, -, -, hcmd, -⟩ := sameButStores_fields (copyWord_same s x)
      exact hcmd
    have hx := copyWord_holds x h
    rw [← hcmd] at hx ⊢
    simpa using ih hx

end Sys2Proof.Machine
end

section
/-! PROOFS. The run of the key-schedule expander (R176): the stores that `K_DONE` commits are those of the command
executed whole (R165). -/

namespace Sys2Proof.Machine

/-! ## `K_COPY` and `K_EXPAND` -/

theorem microStep_expander {s : State} (hf : s.dp.fsm = .idle) (hk : s.kx.kfsm ≠ .idle) :
    s.microStep = s.stepExpander := by simp [State.microStep, hf, hk]

theorem busy_of_kfsm {s : State} (h : s.kx.kfsm ≠ .idle) : s.busy = true := by simp [State.busy, h]

/-- `t` is `s` but for the context and the expander: all that a construction writes before it ends (R176). -/
def State.sameButKeys (s t : State) : Prop := t = { s with ctx := t.ctx, kx := t.kx }

theorem State.sameButKeys.cmd {s t : State} (h : s.sameButKeys t) : t.cmd = s.cmd := by rw [h]

theorem State.sameButKeys.dp {s t : State} (h : s.sameButKeys t) : t.dp = s.dp := by rw [h]

theorem State.sameButKeys.command {s t : State} (h : s.sameButKeys t) : t.command = s.command := by rw [h]; rfl

theorem State.sameButKeys.unbound {s t : State} (h : s.sameButKeys t) : t.unbound = s.unbound := by rw [h]; rfl

theorem State.sameButKeys.bound {s t : State} (h : s.sameButKeys t) (m : PadMode) : t.bound m = s.bound m := by
  rw [h]; rfl

theorem State.sameButKeys.trans {s t u : State} (h : s.sameButKeys t) (h' : t.sameButKeys u) : s.sameButKeys u := by
  unfold State.sameButKeys at *
  rw [h] at h'; exact h'

theorem copyOut_sameButKeys (s : State) : s.sameButKeys s.copyOut := by
  have hsame : s.copyOut = _ := copyOut_same s
  unfold State.sameButKeys
  rw [hsame]

/-- `u` is `s` with a construction under way, the key copied and `m` batches stored (R125). -/
structure State.AfterBatches (s : State) (m : Nat) (u : State) : Prop where
  frame : s.sameButKeys u
  tk : u.kx.tk = batchWindow s.cmd.keyBuf m
  rcp : u.kx.rcp = m
  holds : u.Holds ((batchWords s.cmd.keyBuf m).take (scheduleLength s.cmd.keyBuf.length s.cmd.bsIn))

/-- `copy_out` after a batch, or after the key: the words of `TK` follow those in the stores. -/
theorem copyOut_afterBatches {s v : State} {m : Nat} {before : List Word}
    (hframe : s.sameButKeys v) (htk : v.kx.tk = batchWindow s.cmd.keyBuf m) (hrcp : v.kx.rcp = m)
    (hholds : v.Holds (before.take (scheduleLength s.cmd.keyBuf.length s.cmd.bsIn)))
    (hwords : before ++ batchWindow s.cmd.keyBuf m = batchWords s.cmd.keyBuf m) : s.AfterBatches m v.copyOut := by
  obtain ⟨-, -, -, -, -, -, htk', hrcp', -⟩ := sameButStores_fields (copyOut_same v)
  refine ⟨hframe.trans (copyOut_sameButKeys v), htk'.trans htk, hrcp'.trans hrcp, ?_⟩
  rw [← hframe.cmd] at hholds ⊢
  rw [← hframe.cmd] at htk hwords
  rw [← hwords, ← htk]
  exact foldl_copyWord_holds v.kx.tk hholds

theorem tkAt_map_range {s : State} {n : Nat} (h : s.kx.tk.length = n) : (List.range n).map s.tkAt = s.kx.tk :=
  List.ext_getElem (by simp [h]) fun i hi hi' => by simp [State.tkAt, hi']

section
variable {s u : State} {m : Nat}

/-- `K_COPY`: the key words, and no batch yet. -/
theorem copyKey_afterBatches (hframe : s.sameButKeys u) : s.AfterBatches 0 u.copyKey := by
  have hwords : batchWords s.cmd.keyBuf 0 = beWords s.cmd.keyBuf (wordsOf s.cmd.keyBuf.length) := by
    simp [batchWords, extendSchedule]
  refine copyOut_afterBatches (before := []) (v := u.loadKey) ?_ ?_ rfl ?_ ?_
  · exact hframe.trans rfl
  · simp [batchWindow, hwords, hframe.cmd]
  · rw [List.take_nil]; exact loadKey_holds u
  · simp [batchWindow]

/-- `K_EXPAND`: one more batch; the expander stays here while words are missing. -/
theorem State.AfterBatches.expandBatch (h : s.AfterBatches m u) (hkey : validSize s.cmd.keyBuf.length = true) :
    s.AfterBatches (m + 1) u.expandBatch ∧ u.expandBatch.kx.kfsm =
      if (m + 2) * wordsOf s.cmd.keyBuf.length < scheduleLength s.cmd.keyBuf.length s.cmd.bsIn then .expand
      else .invmix := by
  obtain ⟨hframe, htk, hrcp, hholds⟩ := h
  have hbatch : u.updateKey.kx.tk = batchWindow s.cmd.keyBuf (m + 1) := by
    rw [batchWindow_succ hkey, State.updateKey_kx, hframe.cmd, hrcp,
      tkAt_map_range (htk ▸ batchWindow_length _ _), htk]
  obtain ⟨hframe', htk', hrcp', hholds'⟩ : s.AfterBatches (m + 1) u.updateKey.copyOut :=
    copyOut_afterBatches (hframe.trans rfl) hbatch (congrArg (· + 1) hrcp) (before := batchWords s.cmd.keyBuf m)
      ⟨hholds.widx, hholds.ke, hholds.kd⟩ (by rw [batchWindow_succ hkey, batchWords_succ hkey])
  refine ⟨⟨hframe'.trans rfl, htk', hrcp', ⟨hholds'.widx, hholds'.ke, hholds'.kd⟩⟩, ?_⟩
  have hmore (n N : Nat) : min N n < N ↔ n < N := by omega
  simp only [State.expandBatch, State.afterBatch_kx, hframe'.cmd, hholds'.widx, List.length_take, batchWords_length,
    hmore]

/-- Once the whole schedule is stored, `KE` is the store of R122, and `K_INVMIX` makes `KD` so. -/
theorem State.AfterBatches.stores (h : s.AfterBatches m u) (hb : validSize s.cmd.bsIn = true)
    (hkey : validSize s.cmd.keyBuf.length = true)
    (hm : scheduleLength s.cmd.keyBuf.length s.cmd.bsIn ≤ (m + 1) * wordsOf s.cmd.keyBuf.length) :
    u.ctx.ke = encryptionStore s.cmd.keyBuf s.cmd.bsIn ∧
      u.mixStore.ctx.kd = decryptionStore s.cmd.keyBuf s.cmd.bsIn := by
  obtain ⟨-, hke, hkd⟩ := h.holds
  rw [take_batchWords hkey hb hm, h.frame.cmd] at hke
  rw [State.mixStore_ctx, hkd, hke, h.frame.cmd]
  exact ⟨rfl, rfl⟩

end

/-! ## From `K_CHECK` to `K_DONE` -/

theorem reaches_of_stepExpander {s t : State} (hf : s.dp.fsm = .idle) (hk : s.kx.kfsm ≠ .idle)
    (h : s.stepExpander = .next t) : s.reaches t :=
  reaches_of_microStep (busy_of_kfsm hk) ((microStep_expander hf hk).trans h)

section
variable {s : State} (hf : s.dp.fsm = .idle) (hb : validSize s.cmd.bsIn = true)
  (hkey : validSize s.cmd.keyBuf.length = true)
include hf hb hkey

/-- `K_EXPAND` while words are missing, from `K_COPY` on: every batch that the schedule needs is reached. -/
theorem reaches_afterBatches {c : State} (hc : s.sameButKeys c) (hcopy : c.kx.kfsm = .copy) (m : Nat)
    (hm : m * wordsOf s.cmd.keyBuf.length < scheduleLength s.cmd.keyBuf.length s.cmd.bsIn) :
    ∃ u, c.reaches u ∧ s.AfterBatches m u ∧ u.kx.kfsm =
      if (m + 1) * wordsOf s.cmd.keyBuf.length < scheduleLength s.cmd.keyBuf.length s.cmd.bsIn then .expand
      else .invmix := by
  induction m with
  | zero =>
    have hmore : (0 + 1) * wordsOf s.cmd.keyBuf.length < scheduleLength s.cmd.keyBuf.length s.cmd.bsIn := by
      simpa using key_lt_schedule hkey hb
    have hstep := stepExpander_copy hcopy
    obtain ⟨-, -, -, -, -, -, -, -, hkfsm, -⟩ := sameButStores_fields (copyOut_same c.loadKey)
    exact ⟨_, reaches_of_stepExpander (hc.dp ▸ hf) (by simp [hcopy]) hstep, copyKey_afterBatches hc,
      hkfsm.trans (if_pos hmore).symm⟩
  | succ m ih =>
    obtain ⟨u, hreach, hu, hkfsm⟩ := ih (by rw [Nat.succ_mul] at hm; omega)
    rw [if_pos hm] at hkfsm
    have hstep := reaches_of_stepExpander (hu.frame.dp ▸ hf) (by simp [hkfsm]) (stepExpander_expand hkfsm)
    obtain ⟨hu', hkfsm'⟩ := hu.expandBatch hkey
    exact ⟨_, hreach.trans hstep, hu', hkfsm'⟩

/-- From `K_COPY` to `K_DONE`: the stores are those that the command commits (R122, R176). -/
theorem reaches_constructed {c : State} (hc : s.sameButKeys c) (hcopy : c.kx.kfsm = .copy) :
    ∃ u, c.reaches u ∧ s.sameButKeys u ∧ u.kx.kfsm = .done ∧
      u.ctx.ke = encryptionStore s.cmd.keyBuf s.cmd.bsIn ∧ u.ctx.kd = decryptionStore s.cmd.keyBuf s.cmd.bsIn := by
  have hkc : 0 < wordsOf s.cmd.keyBuf.length := by rcases wordsOf_cases hkey with h | h | h <;> omega
  have hpos : 0 < scheduleLength s.cmd.keyBuf.length s.cmd.bsIn := Nat.zero_lt_of_lt (key_lt_schedule hkey hb)
  generalize hlast : (scheduleLength s.cmd.keyBuf.length s.cmd.bsIn - 1) / wordsOf s.cmd.keyBuf.length = m
  have hlow : m * wordsOf s.cmd.keyBuf.length < scheduleLength s.cmd.keyBuf.length s.cmd.bsIn := by
    have := (Nat.le_div_iff_mul_le hkc).1 (Nat.le_of_eq hlast.symm)
    omega
  have hhigh : scheduleLength s.cmd.keyBuf.length s.cmd.bsIn ≤ (m + 1) * wordsOf s.cmd.keyBuf.length := by
    have hlt : _ < (m + 1) * _ := (Nat.div_lt_iff_lt_mul hkc).1 (Nat.lt_succ_of_le (Nat.le_of_eq hlast))
    omega
  obtain ⟨u, hreach, hu, hkfsm⟩ := reaches_afterBatches hf hb hkey hc hcopy m hlow
  rw [if_neg (Nat.not_lt.2 hhigh)] at hkfsm
  have hstep := reaches_of_stepExpander (hu.frame.dp ▸ hf) (by simp [hkfsm]) (stepExpander_invmix hkfsm)
  exact ⟨_, hreach.trans hstep, hu.frame.trans rfl, rfl, hu.stores hb hkey hhigh⟩

end

/-- The three constructors are one construction, whole and in steps: `K_DONE` commits with the same binding (R176,
R206). -/
theorem constructor_binding {i : Instr} (hi : i = .engineNew ∨ i = .cbcNewZ ∨ i = .cbcNewP) {s : State}
    (hcmd : s.command = some i) :
    ∃ b, exec i s = .next (s.construct b) ∧ s.begin i = { s with kx := { s.kx with kfsm := .check } } ∧
      ∀ u, s.sameButKeys u → u.kx.kfsm = .done → u.stepExpander = .next (u.commitKey b) := by
  rcases hi with rfl | rfl | rfl
  · exact ⟨s.unbound, rfl, rfl, fun u hu hdone => by simp [State.stepExpander, hdone, hu.command, hcmd, hu.unbound]⟩
  · exact ⟨s.bound .zero, rfl, rfl, fun u hu hdone => by simp [State.stepExpander, hdone, hu.command, hcmd, hu.bound]⟩
  · exact ⟨s.bound .pkcs7, rfl, rfl, fun u hu hdone => by simp [State.stepExpander, hdone, hu.command, hcmd, hu.bound]⟩

/-- `K_DONE`: what is committed is what the construction executed whole commits (R123). -/
theorem commitKey_eq_construct {s u : State} {b : Binding} (hu : s.sameButKeys u) (hb : validSize s.cmd.bsIn = true)
    (hkey : validSize s.cmd.keyBuf.length = true) (hke : u.ctx.ke = encryptionStore s.cmd.keyBuf s.cmd.bsIn)
    (hkd : u.ctx.kd = decryptionStore s.cmd.keyBuf s.cmd.bsIn) : u.commitKey b = s.construct b := by
  rw [construct_ok hb hkey, ← hke, ← hkd, State.commitKey]
  generalize u.ctx.ke = ke
  generalize u.ctx.kd = kd
  rw [hu]
  rfl

/-- R165 for the constructors. -/
theorem begin_constructor_reaches {i : Instr} {s : State} (hi : i = .engineNew ∨ i = .cbcNewZ ∨ i = .cbcNewP)
    (hidle : s.busy = false) (hcmd : s.command = some i) : ∃ t, exec i s = .next t ∧ (s.begin i).reaches t := by
  obtain ⟨hf, -, -⟩ := (busy_false_iff s).1 hidle
  obtain ⟨b, hexec, hbegin, hdone⟩ := constructor_binding hi hcmd
  refine ⟨_, hexec, ?_⟩
  rw [hbegin]
  cases he : constructError s.cmd.bsIn s.cmd.keyBuf.length with
  | some e =>
    rw [construct_error he]
    exact reaches_of_stepExpander hf nofun (by simp only [State.stepExpander, he]; rfl)
  | none =>
    obtain ⟨hb, hkey⟩ := constructError_none.1 he
    obtain ⟨u, hreach, hu, hfsm, hke, hkd⟩ := reaches_constructed hf hb hkey
      (c := { s with kx := { s.kx with kfsm := .copy } }) rfl rfl
    have hcheck := reaches_of_stepExpander (s := { s with kx := { s.kx with kfsm := .check } }) hf nofun
      (t := { s with kx := { s.kx with kfsm := .copy } }) (by simp [State.stepExpander, he])
    have hcommit := reaches_of_stepExpander (hu.dp ▸ hf) (by simp [hfsm]) (hdone u hu hfsm)
    rw [commitKey_eq_construct hu hb hkey hke hkd] at hcommit
    exact (hcheck.trans hreach).trans hcommit

end Sys2Proof.Machine
end

section
/-! PROOFS. The run of the orchestrator (R217): the padding commands, and the block loops of the CBC commands, each
block a block operation of the datapath. -/

namespace Sys2Proof.Machine

/-! ## The orchestrator's steps -/

/-- The row of R217 for each state of `CFSM`. -/
def State.orchestratorAction : Cfsm → State → Instr → Answer
  | .idle   => fun s _ => .next s
  | .check  => State.checkOrchestrator
  | .pad    => State.padOrchestrator
  | .xorIn  => State.xorInOrchestrator
  | .crypt  => State.cryptOrchestrator
  | .xorOut => State.xorOutOrchestrator
  | .next   => State.nextOrchestrator
  | .unpad  => State.unpadOrchestrator
  | .done   => State.doneOrchestrator

theorem stepOrchestrator_eq_action {s : State} {i : Instr} (hi : s.command = some i) :
    s.stepOrchestrator = State.orchestratorAction s.orch.cfsm s i := by
  rw [State.stepOrchestrator, hi]
  cases s.orch.cfsm <;> rfl

/-- `s` with the datapath and the orchestrator at work: all that a CBC or padding command writes before it ends. -/
abbrev State.working (s : State) (d : Datapath) (o : Orchestrator) : State := { s with dp := d, orch := o }

theorem busy_of_cfsm {s : State} (h : s.orch.cfsm ≠ .idle) : s.busy = true := by simp [State.busy, h]

section
variable {s t : State} {i : Instr} (hk : s.kx.kfsm = .idle) (hi : s.command = some i)
include hk hi

theorem microStep_orchestrator (hf : s.dp.fsm = .idle) :
    s.microStep = State.orchestratorAction s.orch.cfsm s i := by
  simp [State.microStep, hf, hk, stepOrchestrator_eq_action hi]

theorem working_reaches {d : Datapath} {o : Orchestrator} (hd : d.fsm = .idle) (hc : o.cfsm ≠ .idle)
    (h : State.orchestratorAction o.cfsm (s.working d o) i = .next t) : (s.working d o).reaches t :=
  reaches_of_microStep (busy_of_cfsm hc) ((microStep_orchestrator (s := s.working d o) hk hi hd).trans h)

end

/-! ## `C_CHECK` -/

/-- The check that `C_CHECK` makes for each of its commands (R237). -/
def orchestratorError (s : State) : Instr → Option Err
  | .cbcEncrypt => cbcEncryptError s
  | .cbcDecrypt => cbcDecryptError s
  | .pad        => padError s
  | .unpad      => unpadError s
  | _           => none

theorem checkOrchestrator_error {s : State} {i : Instr} {e : Err} (he : orchestratorError s i = some e) :
    s.checkOrchestrator i = .next (s.raise e) := by
  cases i with
  | cbcEncrypt | cbcDecrypt | pad | unpad => simp only [State.checkOrchestrator, orchestratorError] at he ⊢; rw [he]
  | _ => cases he

theorem exec_orchestratorError {s : State} {i : Instr} {e : Err} (he : orchestratorError s i = some e) :
    exec i s = .next (s.raise e) := by
  cases i with
  | cbcEncrypt => exact execCbcEncrypt_error he
  | cbcDecrypt => exact execCbcDecrypt_error he
  | pad => exact execPad_error he
  | unpad => exact execUnpad_error he
  | _ => cases he

section
variable {s : State} (hidle : s.busy = false)
include hidle

/-- The first step of a command that the orchestrator runs. -/
theorem begin_reaches_of_check {i : Instr} {t : State} (hi : s.command = some i) (hbegin : s.begin i = s.toCfsm .check)
    (h : (s.toCfsm .check).checkOrchestrator i = .next t) : (s.begin i).reaches t := by
  obtain ⟨hf, hk, -⟩ := (busy_false_iff s).1 hidle
  rw [hbegin]
  exact working_reaches hk hi hf nofun h

/-- A check that finds an error ends the command in the same state at both levels (R235, R236). -/
theorem begin_reaches_of_error {i : Instr} {e : Err} (hi : s.command = some i)
    (hbegin : s.begin i = s.toCfsm .check) (he : orchestratorError s i = some e) :
    ∃ t, exec i s = .next t ∧ (s.begin i).reaches t := by
  have he' : orchestratorError (s.toCfsm .check) i = some e := he
  exact ⟨_, exec_orchestratorError he, begin_reaches_of_check hidle hi hbegin (checkOrchestrator_error he')⟩

/-! ## `PAD` and `UNPAD` -/

/-- `C_CHECK`, `C_PAD`, `C_DONE`. -/
theorem begin_pad_reaches (hi : s.command = some .pad) : ∃ t, exec .pad s = .next t ∧ (s.begin .pad).reaches t := by
  obtain ⟨hf, hk, -⟩ := (busy_false_iff s).1 hidle
  cases he : padError s with
  | some e => exact begin_reaches_of_error hidle hi rfl he
  | none =>
    have hok : padError (s.toCfsm .check) = none := he
    have hcheck : (s.begin .pad).reaches (s.working s.dp { s.orch with cfsm := .pad }) :=
      begin_reaches_of_check hidle hi rfl (by simp only [State.checkOrchestrator, hok]; rfl)
    exact ⟨_, execPad_ok he,
      (hcheck.trans (working_reaches hk hi hf nofun rfl)).trans (working_reaches hk hi hf nofun rfl)⟩

/-- `C_CHECK`, `C_UNPAD`, and `C_DONE` unless the decoding fails. -/
theorem begin_unpad_reaches (hi : s.command = some .unpad) :
    ∃ t, exec .unpad s = .next t ∧ (s.begin .unpad).reaches t := by
  obtain ⟨hf, hk, -⟩ := (busy_false_iff s).1 hidle
  cases he : unpadError s with
  | some e => exact begin_reaches_of_error hidle hi rfl he
  | none =>
    have hok : unpadError (s.toCfsm .check) = none := he
    have hcheck : (s.begin .unpad).reaches (s.working s.dp { s.orch with padbuf := s.cmd.din, cfsm := .unpad }) :=
      begin_reaches_of_check hidle hi rfl (by simp only [State.checkOrchestrator, hok]; rfl)
    refine ⟨_, execUnpad_ok he, hcheck.trans ?_⟩
    cases hdec : padDecode s.binding.padMode s.cmd.din s.binding.padSize with
    | ok v =>
      have hunpad : (s.working s.dp { s.orch with padbuf := s.cmd.din, cfsm := .unpad }).reaches
          (s.working s.dp { s.orch with padbuf := s.cmd.din, result := v, cfsm := .done }) :=
        working_reaches hk hi hf nofun (by simp only [State.orchestratorAction, State.unpadOrchestrator, hdec])
      exact hunpad.trans (working_reaches hk hi hf nofun rfl)
    | error e =>
      exact working_reaches hk hi hf nofun (by simp only [State.orchestratorAction, State.unpadOrchestrator, hdec]; rfl)

end

/-! ## The block loop of `CBC_ENCRYPT` -/

theorem chainBlock_eq {s : State} {n : Nat} (h : s.orch.chain.length = n) : s.chainBlock n = s.orch.chain :=
  List.ext_getElem (by simp [State.chainBlock, h]) fun i hi hi' => by simp [State.chainBlock, State.chainAt, hi']

/-- The orchestrator after ciphertext block `c` (R217, `C_NEXT`). -/
def Orchestrator.encrypted (o : Orchestrator) (bs : Nat) (c : List Byte) : Orchestrator :=
  { o with
    result := o.result ++ c, chain := c, blk := o.blk + bs,
    cfsm := if o.blk + bs < o.padbuf.length then .xorIn else .done }

/-- The orchestrator after recovered block `p` of the ciphertext `din` (R217, `C_XOR_OUT` and `C_NEXT`). -/
def Orchestrator.decrypted (o : Orchestrator) (bs : Nat) (din p : List Byte) : Orchestrator :=
  { o with
    padbuf := o.padbuf ++ p, chain := slice din o.blk (o.blk + bs), blk := o.blk + bs,
    cfsm := if o.blk + bs < din.length then .crypt else .unpad }

section
variable {s : State} (hk : s.kx.kfsm = .idle) (hsize : validSize s.ctx.blockSize = true)
include hk hsize

/-- `C_CRYPT`: the datapath is started, runs the block, and hands it on at its `DONE`. -/
theorem crypt_reaches {i : Instr} {dir : Dir} {blk : List Byte} {d : Datapath} {o : Orchestrator}
    (hi : s.command = some i) (hd : d.fsm = .idle) (hc : o.cfsm = .crypt) (hlen : blk.length = s.ctx.blockSize)
    (hstart : (s.working d o).cryptOrchestrator i = .next ((s.working d o).startBlock dir blk)) :
    ∃ d', d'.fsm = .idle ∧ d'.out = s.cipher dir blk ∧ (s.working d o).reaches
      (s.working d' { o with cfsm := if s.command = some .cbcEncrypt then .next else .xorOut }) := by
  have hreach : (s.working d o).reaches ((s.working d o).startBlock dir blk) :=
    working_reaches hk hi hd (by simp [hc]) (by rw [hc]; exact hstart)
  obtain ⟨d', hrun, hout⟩ := microRun_block (s := s.working d o) hsize hlen dir
  rw [blockDone_crypt (s := (s.working d o).withDatapath d') hc] at hrun
  exact ⟨{ d' with fsm := .idle, rnd := s.freeRnd (.rndIdle o.blk) }, rfl, hout, hreach.trans ⟨_, hrun⟩⟩

section
variable (hi : s.command = some .cbcEncrypt)
include hi

/-- `C_XOR_IN`, `C_CRYPT`, `C_NEXT`: one block of `PADBUF` (R209). -/
theorem encrypt_block_reaches {d : Datapath} {o : Orchestrator} (hd : d.fsm = .idle) (hc : o.cfsm = .xorIn)
    (hin : o.blk + s.ctx.blockSize ≤ o.padbuf.length) (hchain : o.chain.length = s.ctx.blockSize) :
    ∃ d', d'.fsm = .idle ∧ (s.working d o).reaches (s.working d' (o.encrypted s.ctx.blockSize
      (s.cipher .enc (xorBlock (slice o.padbuf o.blk (o.blk + s.ctx.blockSize)) o.chain)))) := by
  generalize hx : xorBlock (slice o.padbuf o.blk (o.blk + s.ctx.blockSize)) o.chain = x
  have hlen : x.length = s.ctx.blockSize := by
    rw [← hx, xorBlock_length, slice_length hin, hchain, Nat.add_sub_cancel_left, Nat.min_self]
  have hwire : xorBlock (slice o.padbuf o.blk (o.blk + s.ctx.blockSize))
      ((s.working d o).chainBlock s.ctx.blockSize) = x := by rw [chainBlock_eq (s := s.working d o) hchain, hx]
  have hxorIn : (s.working d o).reaches (s.working { d with blkIn := x } { o with cfsm := .crypt }) := by
    refine working_reaches hk hi hd (by simp [hc]) ?_
    rw [hc, ← hwire]
    exact if_pos hin
  obtain ⟨d', hd', hout, hcrypt⟩ := crypt_reaches hk hsize hi (d := { d with blkIn := x })
    (o := { o with cfsm := .crypt }) hd rfl hlen rfl
  rw [if_pos hi] at hcrypt
  refine ⟨d', hd', (hxorIn.trans hcrypt).trans (working_reaches hk hi hd' nofun ?_)⟩
  rw [← hout]
  rfl

/-- The loop of R209 over the `n` blocks that are left. -/
theorem encrypt_loop_reaches (n : Nat) : ∀ {d : Datapath} {o : Orchestrator}, d.fsm = .idle →
    o.cfsm = (if o.blk < o.padbuf.length then .xorIn else .done) → o.padbuf.length = o.blk + n * s.ctx.blockSize →
    o.chain.length = s.ctx.blockSize →
    ∃ d' o', d'.fsm = .idle ∧ o'.cfsm = .done ∧ o'.result = o.result ++
      cbcEncryptBlocks (s.cipher .enc) s.ctx.blockSize n (o.padbuf.drop o.blk) o.chain ∧
      (s.working d o).reaches (s.working d' o') := by
  induction n with
  | zero =>
    intro d o hd hc hleft _
    rw [if_neg (by omega)] at hc
    exact ⟨d, o, hd, hc, by simp [cbcEncryptBlocks], .refl _⟩
  | succ n ih =>
    intro d o hd hc hleft hchain
    have hpos := validSize_pos hsize
    rw [Nat.succ_mul] at hleft
    rw [if_pos (by omega)] at hc
    obtain ⟨d', hd', hblock⟩ := encrypt_block_reaches hk hsize hi hd hc (by omega) hchain
    generalize hcipher : s.cipher .enc (xorBlock (slice o.padbuf o.blk (o.blk + s.ctx.blockSize)) o.chain) = c
      at hblock
    obtain ⟨d'', o'', hd'', hc'', hresult, hrest⟩ := ih (o := o.encrypted s.ctx.blockSize c) hd' rfl
      (by simp only [Orchestrator.encrypted]; omega) (hcipher ▸ cipher_length hsize .enc _)
    refine ⟨d'', o'', hd'', hc'', ?_, hblock.trans hrest⟩
    rw [slice, Nat.add_sub_cancel_left] at hcipher
    simp [hresult, Orchestrator.encrypted, cbcEncryptBlocks, hcipher]

end

section
variable (hi : s.command = some .cbcDecrypt)
include hi

/-- `C_CRYPT`, `C_XOR_OUT`, `C_NEXT`: one block of `DIN` (R211, R212). -/
theorem decrypt_block_reaches {d : Datapath} {o : Orchestrator} (hd : d.fsm = .idle) (hc : o.cfsm = .crypt)
    (hin : o.blk + s.ctx.blockSize ≤ s.cmd.din.length) (hchain : o.chain.length = s.ctx.blockSize) :
    ∃ d', d'.fsm = .idle ∧ (s.working d o).reaches (s.working d' (o.decrypted s.ctx.blockSize s.cmd.din
      (xorBlock (s.cipher .dec (slice s.cmd.din o.blk (o.blk + s.ctx.blockSize))) o.chain))) := by
  obtain ⟨d', hd', hout, hcrypt⟩ := crypt_reaches hk hsize hi hd hc
    (by rw [slice_length hin, Nat.add_sub_cancel_left]) (if_pos hin)
  rw [if_neg (by simp [hi])] at hcrypt
  have hchainBlock := chainBlock_eq (s := s.working d' { o with cfsm := .xorOut }) hchain
  have hxorOut : (s.working d' { o with cfsm := .xorOut }).reaches (s.working d' { o with
      padbuf := o.padbuf ++ xorBlock d'.out o.chain, cfsm := .next }) := by
    have hstep : (s.working d' { o with cfsm := .xorOut }).reaches _ := working_reaches hk hi hd' nofun rfl
    rw [hchainBlock] at hstep
    exact hstep
  refine ⟨d', hd', (hcrypt.trans hxorOut).trans (working_reaches hk hi hd' nofun ?_)⟩
  rw [← hout]
  exact if_pos hin

/-- The loop of R211 over the `n` blocks that are left. -/
theorem decrypt_loop_reaches (n : Nat) : ∀ {d : Datapath} {o : Orchestrator}, d.fsm = .idle →
    o.cfsm = (if o.blk < s.cmd.din.length then .crypt else .unpad) →
    s.cmd.din.length = o.blk + n * s.ctx.blockSize → o.chain.length = s.ctx.blockSize →
    ∃ d' o', d'.fsm = .idle ∧ o'.cfsm = .unpad ∧ o'.padbuf = o.padbuf ++
      cbcDecryptBlocks (s.cipher .dec) s.ctx.blockSize n (s.cmd.din.drop o.blk) o.chain ∧
      (s.working d o).reaches (s.working d' o') := by
  induction n with
  | zero =>
    intro d o hd hc hleft _
    rw [if_neg (by omega)] at hc
    exact ⟨d, o, hd, hc, by simp [cbcDecryptBlocks], .refl _⟩
  | succ n ih =>
    intro d o hd hc hleft hchain
    have hpos := validSize_pos hsize
    rw [Nat.succ_mul] at hleft
    have hin : o.blk + s.ctx.blockSize ≤ s.cmd.din.length := by omega
    rw [if_pos (by omega)] at hc
    obtain ⟨d', hd', hblock⟩ := decrypt_block_reaches hk hsize hi hd hc hin hchain
    obtain ⟨d'', o'', hd'', hc'', hpadbuf, hrest⟩ := ih (o := o.decrypted s.ctx.blockSize s.cmd.din _) hd' rfl
      (by simp only [Orchestrator.decrypted]; omega) ((slice_length hin).trans (Nat.add_sub_cancel_left ..))
    refine ⟨d'', o'', hd'', hc'', ?_, hblock.trans hrest⟩
    rw [hpadbuf]
    simp [Orchestrator.decrypted, cbcDecryptBlocks, slice]

end

end

/-! ## The CBC commands -/

/-- `C_UNPAD`, and `C_DONE` unless the decoding fails. -/
theorem cbcUnpad_reaches {s : State} (hk : s.kx.kfsm = .idle) (hi : s.command = some .cbcDecrypt) {d : Datapath}
    {o : Orchestrator} (hd : d.fsm = .idle) (hc : o.cfsm = .unpad) : (s.working d o).reaches
      (s.releaseCbc.conclude (padDecode s.binding.padMode o.padbuf s.ctx.blockSize)) := by
  have hne : o.cfsm ≠ .idle := by simp [hc]
  cases hdec : padDecode s.binding.padMode o.padbuf s.ctx.blockSize with
  | ok v =>
    have hunpad : (s.working d o).reaches (s.working d { o with result := v, cfsm := .done }) :=
      working_reaches hk hi hd hne (by simp only [hc, State.orchestratorAction, State.unpadOrchestrator, hdec])
    exact hunpad.trans (working_reaches hk hi hd nofun rfl)
  | error e =>
    exact working_reaches hk hi hd hne (by simp only [hc, State.orchestratorAction, State.unpadOrchestrator, hdec]; rfl)

section
variable {s : State} (hs : s.settled) (hidle : s.busy = false)
include hs hidle

/-- `C_CHECK`, `C_PAD`, the loop, `C_DONE`. -/
theorem begin_cbcEncrypt_reaches (hi : s.command = some .cbcEncrypt) :
    ∃ t, exec .cbcEncrypt s = .next t ∧ (s.begin .cbcEncrypt).reaches t := by
  obtain ⟨hf, hk, -⟩ := (busy_false_iff s).1 hidle
  cases he : cbcEncryptError s with
  | some e => exact begin_reaches_of_error hidle hi rfl he
  | none =>
    obtain ⟨hp, hiv⟩ := cbcEncryptError_none.1 he
    obtain ⟨-, hsize⟩ := hs.engine hp
    have hok : cbcEncryptError (s.toCfsm .check) = none := he
    have hcheck : (s.begin .cbcEncrypt).reaches (s.startCbc .pad) :=
      begin_reaches_of_check hidle hi rfl (by simp only [State.checkOrchestrator, hok]; rfl)
    have hpad : (s.startCbc .pad).reaches _ := working_reaches hk hi hf nofun rfl
    have hwhole : (padEncode s.binding.padMode s.cmd.din s.ctx.blockSize).length = 0 +
        (padEncode s.binding.padMode s.cmd.din s.ctx.blockSize).length / s.ctx.blockSize * s.ctx.blockSize := by
      rw [Nat.zero_add, Nat.div_mul_cancel (Nat.dvd_of_mod_eq_zero (padEncode_mod _ _ (validSize_pos hsize)))]
    obtain ⟨d, o, hd, hdone, hresult, hloop⟩ := encrypt_loop_reaches hk hsize hi _ hf
      (o := { s.orch with
        chain := s.cmd.ivBuf.take s.ctx.blockSize, blk := 0, result := []
        padbuf := padEncode s.binding.padMode s.cmd.din s.ctx.blockSize
        cfsm := if (padEncode s.binding.padMode s.cmd.din s.ctx.blockSize).length > 0 then .xorIn else .done })
      rfl hwhole (by simp [hiv])
    have hrespond : (s.working d o).reaches (s.releaseCbc.respond o.result) :=
      working_reaches hk hi hd (by simp [hdone]) (by rw [hdone]; rfl)
    rw [hresult] at hrespond
    exact ⟨_, execCbcEncrypt_ok he, ((hcheck.trans hpad).trans hloop).trans hrespond⟩

/-- `C_CHECK`, the loop, and the unpadding. -/
theorem begin_cbcDecrypt_reaches (hi : s.command = some .cbcDecrypt) :
    ∃ t, exec .cbcDecrypt s = .next t ∧ (s.begin .cbcDecrypt).reaches t := by
  obtain ⟨hf, hk, -⟩ := (busy_false_iff s).1 hidle
  cases he : cbcDecryptError s with
  | some e => exact begin_reaches_of_error hidle hi rfl he
  | none =>
    obtain ⟨hp, hmod, hiv⟩ := cbcDecryptError_none.1 he
    obtain ⟨-, hsize⟩ := hs.engine hp
    have hok : cbcDecryptError (s.toCfsm .check) = none := he
    have hcheck : (s.begin .cbcDecrypt).reaches (s.startCbc (if s.cmd.din.length > 0 then .crypt else .unpad)) :=
      begin_reaches_of_check hidle hi rfl (by simp only [State.checkOrchestrator, hok]; rfl)
    have hwhole : s.cmd.din.length = 0 + s.cmd.din.length / s.ctx.blockSize * s.ctx.blockSize := by
      rw [Nat.zero_add, Nat.div_mul_cancel (Nat.dvd_of_mod_eq_zero hmod)]
    obtain ⟨d, o, hd, hunpad, hpadbuf, hloop⟩ := decrypt_loop_reaches hk hsize hi _ hf
      (o := (s.startCbc (if s.cmd.din.length > 0 then .crypt else .unpad)).orch) rfl hwhole (by simp [hiv])
    have hend := cbcUnpad_reaches hk hi hd hunpad
    rw [hpadbuf] at hend
    exact ⟨_, execCbcDecrypt_ok he, (hcheck.trans hloop).trans hend⟩

end

/-! ## Every command -/

/-- A check of a block command that fails starts nothing (R173, R235). -/
theorem begin_block_error {s : State} {e : Err} {i : Instr} (hi : i ∈ [Instr.engineEncrypt, .engineDecrypt])
    (he : blockError s = some e) : exec i s = .next (s.raise e) ∧ s.begin i = s.raise e := by
  simp only [List.mem_cons, List.not_mem_nil, or_false] at hi
  rcases hi with rfl | rfl
  · exact ⟨congrArg _ (blockCommand_error he), by simp [State.begin, he]⟩
  · exact ⟨congrArg _ (blockCommand_error he), by simp [State.begin, he]⟩

/-- R165 for the block commands. -/
theorem begin_block_reaches {i : Instr} {s : State} (hi : i ∈ [Instr.engineEncrypt, .engineDecrypt]) (hs : s.settled)
    (hidle : s.busy = false) : ∃ t, exec i s = .next t ∧ (s.begin i).reaches t := by
  cases he : blockError s with
  | some e =>
    obtain ⟨hexec, hbegin⟩ := begin_block_error hi he
    exact ⟨_, hexec, hbegin ▸ .refl _⟩
  | none =>
    obtain ⟨dir, hexec, hbegin⟩ := begin_block hi he
    exact ⟨_, hexec, hbegin ▸ ⟨_, microRun_blockCommand dir hs hidle he⟩⟩

theorem isCommand_of_command {s : State} {i : Instr} (h : s.command = some i) : i.isCommand = true := by
  unfold State.command at h
  split at h
  next hd => exact Option.some.inj h ▸ decode_isCommand _ _ hd
  next => cases h

/-- Settles O43: by the machine that runs the command. -/
theorem stateMachinesRefineTheCommands : Obligations.StateMachinesRefineTheCommands := by
  intro s i hs hidle hi
  have hsettled := (inv_idle hidle).1 hs
  suffices h : ∃ t, exec i s = .next t ∧ (s.begin i).reaches t by
    obtain ⟨t, hexec, n, hrun⟩ := h
    exact ⟨n, hrun.trans hexec.symm⟩
  rcases command_cases (isCommand_of_command hi) with hdata | hnew
  · simp only [dataCommands, List.mem_cons, List.not_mem_nil, or_false] at hdata
    rcases hdata with rfl | rfl | rfl | rfl | rfl | rfl
    · exact begin_block_reaches (by simp) hsettled hidle
    · exact begin_block_reaches (by simp) hsettled hidle
    · exact begin_cbcEncrypt_reaches hsettled hidle hi
    · exact begin_cbcDecrypt_reaches hsettled hidle hi
    · exact begin_pad_reaches hidle hi
    · exact begin_unpad_reaches hidle hi
  · exact begin_constructor_reaches hnew hidle hi

end Sys2Proof.Machine
end

section
/-! PROOFS. The padding units: the bytes that zero padding adds, where its decoding cuts, the last byte under PKCS#7, and
the round trips of both. -/

namespace Sys2Proof.Machine

/-! ## Zero padding -/

/-- The rule's count of zero bytes in its other form (R187): what is missing from the last block, nothing when the last
block is whole. -/
theorem zeroPadLength_eq (len : Nat) {bs : Nat} (h : 1 ≤ bs) : zeroPadLength len bs = (bs - len % bs) % bs := by
  have hr : len % bs < bs := Nat.mod_lt _ h
  have hdiv := Nat.div_add_mod len bs
  by_cases h0 : len % bs = 0
  · have hsum : len + bs - 1 = bs * (len / bs) + (bs - 1) := by omega
    have hmod : (len + bs - 1) % bs = bs - 1 := by rw [hsum, Nat.mul_add_mod, Nat.mod_eq_of_lt (by omega)]
    rw [zeroPadLength, hmod, h0, Nat.sub_zero, Nat.mod_self]
    omega
  · have hsum : len + bs - 1 = bs * (len / bs + 1) + (len % bs - 1) := by rw [Nat.mul_succ]; omega
    have hmod : (len + bs - 1) % bs = len % bs - 1 := by
      rw [hsum, Nat.mul_add_mod, Nat.mod_eq_of_lt (Nat.lt_of_le_of_lt (Nat.sub_le _ _) hr)]
    have hlt : bs - len % bs < bs := by omega
    rw [zeroPadLength, hmod, Nat.sub_add_cancel (Nat.pos_of_ne_zero h0), Nat.mod_eq_of_lt hlt]

theorem zeroPadLength_lt (len : Nat) {bs : Nat} (h : 1 ≤ bs) : zeroPadLength len bs < bs :=
  zeroPadLength_eq len h ▸ Nat.mod_lt _ h

@[simp] theorem zeroEncode_length (x : List Byte) (bs : Nat) :
    (zeroEncode x bs).length = x.length + zeroPadLength x.length bs := by simp [zeroEncode]

theorem zeroEncode_of_aligned {x : List Byte} {bs : Nat} (h : 1 ≤ bs) (hx : x.length % bs = 0) :
    zeroEncode x bs = x := by
  simp [zeroEncode, zeroPadLength_eq x.length h, hx, rep]

/-- Settles O31. -/
theorem zeroEncodeReachesTheNextMultiple : Obligations.ZeroEncodeReachesTheNextMultiple := by
  refine fun x bs h => ⟨rfl, zeroPadLength_eq x.length h, ?_, ?_, zeroEncode_of_aligned h⟩
  · rw [zeroEncode_length, zeroPadLength_mod _ h]
  · rw [zeroEncode_length]
    exact Nat.add_lt_add_left (zeroPadLength_lt _ h) _

/-- A length `k` at which the scan of R189 may stop, begun at `off` and held back at `lo`: only zero bytes from `k` on,
and before `k` a byte that is kept. -/
structure ZeroCut (x : List Byte) (lo off k : Nat) : Prop where
  lo_le : lo ≤ k
  le_off : k ≤ off
  zeros : ∀ i, k ≤ i → i < off → x[i]? = some 0
  kept : k = lo ∨ ∃ b, x[k - 1]? = some b ∧ b ≠ 0

theorem zeroScan_cut {x : List Byte} {n off : Nat} (hn : n ≤ off) (hoff : off ≤ x.length) :
    ∃ k, zeroScan x n off = x.take k ∧ ZeroCut x (off - n) off k := by
  induction n generalizing off with
  | zero => exact ⟨off, rfl, Nat.le_refl _, Nat.le_refl _, fun i _ _ => by omega, .inl rfl⟩
  | succ n ih =>
    have hbyte : x[off - 1]? = some (byteAt x (off - 1)) := byteAt_of_lt (by omega)
    by_cases hb : byteAt x (off - 1) = 0
    · obtain ⟨k, hk, hlo, hle, hzeros, hkept⟩ := ih (off := off - 1) (by omega) (by omega)
      have hheld : off - 1 - n = off - (n + 1) := by omega
      rw [hheld] at hlo hkept
      refine ⟨k, by rw [zeroScan, if_neg (not_not.2 hb), hk], hlo, Nat.le_trans hle (Nat.sub_le _ _), ?_, hkept⟩
      intro i hki hi
      rcases Nat.lt_or_eq_of_le (Nat.le_sub_one_of_lt hi) with hlt | rfl
      · exact hzeros i hki hlt
      · rw [hbyte, hb]
    · refine ⟨off, by rw [zeroScan, if_pos hb], Nat.sub_le _ _, Nat.le_refl _, fun i _ _ => by omega, .inr ?_⟩
      exact ⟨_, hbyte, hb⟩

/-- R189: on a whole number of blocks the scan is held back at the first byte of the last block. -/
theorem zeroDecode_cut {x : List Byte} {bs : Nat} (h : 1 ≤ bs) (hx : x ≠ []) (hmod : x.length % bs = 0) :
    ∃ k, zeroDecode x bs = x.take k ∧ ZeroCut x (x.length - bs + 1) x.length k := by
  have hpos : 0 < x.length := List.length_pos_of_ne_nil hx
  have hle : bs ≤ x.length := Nat.le_of_dvd hpos (Nat.dvd_of_mod_eq_zero hmod)
  have hlo : x.length - zeroUnpadMaxStrip bs = x.length - bs + 1 := by unfold zeroUnpadMaxStrip; omega
  rw [zeroDecode, if_neg hpos.ne', ← hlo]
  exact zeroScan_cut (by unfold zeroUnpadMaxStrip; omega) (Nat.le_refl _)

/-- Settles O32: `ZeroCut` is what the statement says of the length that is kept. -/
theorem zeroDecodeStopsInTheLastBlock : Obligations.ZeroDecodeStopsInTheLastBlock := by
  refine fun x bs h hmod => ⟨fun hx => by rw [hx]; rfl, fun hx => ?_⟩
  obtain ⟨k, hk, hcut⟩ := zeroDecode_cut h hx hmod
  exact ⟨k, hk, hcut.lo_le, hcut.le_off, hcut.zeros, hcut.kept⟩

/-! ## PKCS#7 -/

theorem pkcs7PadLength_le (len bs : Nat) : pkcs7PadLength len bs ≤ bs := Nat.sub_le _ _

theorem pkcs7PadLength_pos (len : Nat) {bs : Nat} (h : 1 ≤ bs) : 0 < pkcs7PadLength len bs :=
  Nat.sub_pos_of_lt (Nat.mod_lt _ h)

@[simp] theorem pkcs7Encode_length (x : List Byte) (bs : Nat) :
    (pkcs7Encode x bs).length = x.length + pkcs7PadLength x.length bs := by simp [pkcs7Encode]

/-- R191: PKCS#7 reaches the multiple after the last one that fits. -/
theorem add_pkcs7PadLength (len : Nat) {bs : Nat} (h : 1 ≤ bs) :
    len + pkcs7PadLength len bs = (len / bs + 1) * bs := by
  have hr : len % bs < bs := Nat.mod_lt _ h
  have hdiv := Nat.div_add_mod' len bs
  rw [pkcs7PadLength, Nat.succ_mul]
  omega

/-- R192, R193: the last byte is the count of bytes to cut, and nothing else is looked at. -/
theorem pkcs7Decode_of_getLast? {x : List Byte} {n : Byte} (h : x.getLast? = some n) :
    pkcs7Decode x =
      if x.length < n.toNat then .error .invalidDataSize else .ok (x.take (x.length - n.toNat)) := by
  have hpos : 0 < x.length := List.length_pos_of_ne_nil (by rintro rfl; cases h)
  have hlast : byteAt x (x.length - 1) = n := by
    rw [List.getLast?_eq_getElem?, byteAt_of_lt (by omega)] at h
    exact Option.some.inj h
  rw [pkcs7Decode, if_neg hpos.ne', hlast]
  rfl

theorem pkcs7Decode_ok {x : List Byte} {n : Byte} (h : x.getLast? = some n) (hn : n.toNat ≤ x.length) :
    pkcs7Decode x = .ok (x.take (x.length - n.toNat)) := by
  rw [pkcs7Decode_of_getLast? h, if_neg (Nat.not_lt.2 hn)]

/-- R193: no data, or a count beyond it, is an error. -/
theorem pkcs7Decode_overrun {x : List Byte} (h : x = [] ∨ ∃ n : Byte, x.getLast? = some n ∧ x.length < n.toNat) :
    pkcs7Decode x = .error .invalidDataSize := by
  rcases h with rfl | ⟨n, hlast, hn⟩
  · rfl
  · rw [pkcs7Decode_of_getLast? hlast, if_pos hn]

/-- Settles O33. -/
theorem pkcsEncodingAndLaxDecoding : Obligations.PkcsEncodingAndLaxDecoding := by
  refine ⟨fun x bs h => ⟨rfl, ?_⟩, rfl, fun x n => ⟨fun hn => ?_, fun hn => ?_⟩⟩
  · rw [pkcs7Encode_length, add_pkcs7PadLength _ (validSize_pos h)]
  · exact pkcs7Decode_overrun (.inr ⟨n, List.getLast?_concat, by rwa [List.length_append]⟩)
  · rw [pkcs7Decode_ok List.getLast?_concat (by rwa [List.length_append]), List.length_append]
    rfl

/-! ## The round trips (R195) -/

/-- A count of at most 32 fits the byte that holds it, so the decoding cuts exactly what the encoding appended. -/
theorem pkcs7Decode_pkcs7Encode (x : List Byte) {bs : Nat} (h : validSize bs = true) :
    pkcs7Decode (pkcs7Encode x bs) = .ok x := by
  have hpos := pkcs7PadLength_pos x.length (validSize_pos h)
  have hfits : pkcs7PadLength x.length bs < 256 := by
    have := pkcs7PadLength_le x.length bs
    rcases (validSize_iff bs).1 h with rfl | rfl | rfl <;> omega
  have hcount : (BitVec.ofNat 8 (pkcs7PadLength x.length bs)).toNat = pkcs7PadLength x.length bs :=
    Nat.mod_eq_of_lt hfits
  have hlast : (pkcs7Encode x bs).getLast? = some (BitVec.ofNat 8 (pkcs7PadLength x.length bs)) := by
    simp [pkcs7Encode, rep, List.getLast?_append, List.getLast?_replicate, hpos.ne']
  rw [pkcs7Decode_ok hlast (by rw [hcount, pkcs7Encode_length]; omega), hcount, pkcs7Encode_length,
    Nat.add_sub_cancel, pkcs7Encode, List.take_left]

/-- Zero padding fills a block but for its first byte exactly where a single byte of the data begins it. -/
theorem zeroPadLength_eq_pred_iff (len : Nat) {bs : Nat} (h : 2 ≤ bs) :
    zeroPadLength len bs = bs - 1 ↔ len % bs = 1 := by
  have hr : len % bs < bs := Nat.mod_lt _ (by omega)
  rw [zeroPadLength_eq len (by omega)]
  by_cases h0 : len % bs = 0
  · rw [h0, Nat.sub_zero, Nat.mod_self]; omega
  · rw [Nat.mod_eq_of_lt (by omega)]; omega

theorem zeroEncode_getElem?_of_lt {x : List Byte} {i : Nat} (bs : Nat) (h : i < x.length) :
    (zeroEncode x bs)[i]? = x[i]? := List.getElem?_append_left h

/-- The appended bytes are zero. -/
theorem zeroEncode_getElem?_of_le {x : List Byte} {bs i : Nat} {b : Byte} (h : x.length ≤ i)
    (hb : (zeroEncode x bs)[i]? = some b) : b = 0 := by
  rw [zeroEncode, List.getElem?_append_right h, rep, List.getElem?_replicate] at hb
  split at hb
  · exact (Option.some.inj hb).symm
  · cases hb

/-- What zero padding gives back of data that is not empty: a prefix, and the whole data exactly when the scan stops
after its last byte, which it does at a nonzero byte or at the first byte of the last block. -/
theorem zeroDecode_zeroEncode {x : List Byte} {bs : Nat} (h : 2 ≤ bs) (hx : x ≠ []) :
    ∃ k, zeroDecode (zeroEncode x bs) bs = x.take k ∧ k ≤ x.length ∧
      (k = x.length ↔ (∃ b, x.getLast? = some b ∧ b ≠ 0) ∨ x.length % bs = 1) := by
  have hpos : 0 < x.length := List.length_pos_of_ne_nil hx
  have hpad := zeroPadLength_lt x.length (Nat.le_of_succ_le h)
  have hmod : (zeroEncode x bs).length % bs = 0 := by rw [zeroEncode_length, zeroPadLength_mod _ (by omega)]
  obtain ⟨k, hk, hlo, hoff, hzeros, hkept⟩ :=
    zeroDecode_cut (Nat.le_of_succ_le h) (x := zeroEncode x bs) (by simp [zeroEncode, hx]) hmod
  have hblock : bs ≤ (zeroEncode x bs).length :=
    Nat.le_of_dvd (by rw [zeroEncode_length]; omega) (Nat.dvd_of_mod_eq_zero hmod)
  have hfull := zeroPadLength_eq_pred_iff x.length h
  have hlast : x.getLast? = (zeroEncode x bs)[x.length - 1]? := by
    rw [List.getLast?_eq_getElem?, zeroEncode_getElem?_of_lt bs (by omega)]
  rw [zeroEncode_length] at hlo hoff hzeros hkept hblock
  have hle : k ≤ x.length := by
    rcases hkept with hheld | ⟨b, hb, hb0⟩
    · omega
    · by_contra hgt
      exact hb0 (zeroEncode_getElem?_of_le (by omega) hb)
  refine ⟨k, by rw [hk, zeroEncode, List.take_append_of_le_length hle], hle, fun hkx => ?_, ?_⟩
  · rcases hkept with hheld | hb
    · exact .inr (hfull.1 (by omega))
    · exact .inl (by rw [hlast, ← hkx]; exact hb)
  · rintro (⟨b, hb, hb0⟩ | hone)
    · by_contra hne
      rw [hlast, hzeros _ (by omega) (by omega)] at hb
      exact hb0 (Option.some.inj hb).symm
    · have := hfull.2 hone
      omega

/-- Settles O34: `zeroDecode_zeroEncode` says how long the prefix is that zero padding gives back. -/
theorem paddingRoundTrips : Obligations.PaddingRoundTrips := by
  refine fun x bs h => ⟨pkcs7Decode_pkcs7Encode x h, ?_⟩
  have hbs : 2 ≤ bs := by rcases (validSize_iff bs).1 h with rfl | rfl | rfl <;> decide
  by_cases hx : x = []
  · have hnil : zeroDecode (zeroEncode x bs) bs = x := by
      rw [zeroEncode_of_aligned (by omega) (by simp [hx]), hx]; rfl
    exact ⟨⟨fun _ => .inl hx, fun _ => hnil⟩, fun hne => absurd hnil hne⟩
  · obtain ⟨k, hk, hle, hiff⟩ := zeroDecode_zeroEncode hbs hx
    have hself : zeroDecode (zeroEncode x bs) bs = x ↔ k = x.length := by
      rw [hk, List.take_eq_self_iff]; omega
    exact ⟨by rw [hself, hiff]; simp [hx], fun hne => ⟨k, by have := hself.not.1 hne; omega, hk⟩⟩

end Sys2Proof.Machine
end

section
/-! PROOFS. The commands `PAD` and `UNPAD`, and the errors of the commands that need a bound orchestrator. -/

namespace Sys2Proof.Machine

/-- `t` is a state in which a padding command ended that started in `s`: it has written the response and the padding
unit's working state, and the machines are idle (R197). -/
def State.paddingEndedFrom (s t : State) : Prop :=
  s.sameSetup t ∧ t.dp = { s.dp with fsm := .idle } ∧ t.kx = { s.kx with kfsm := .idle } ∧
  t.orch.chain = s.orch.chain ∧ t.orch.blk = s.orch.blk

theorem paddingEndedFrom_respond (s : State) (v : List Byte) : s.paddingEndedFrom (s.releasePadding.respond v) :=
  ⟨⟨rfl, rfl, rfl, rfl⟩, rfl, rfl, rfl, rfl⟩

theorem releasePadding_raise_failedWith (s : State) (e : Err) : s.failedWith (s.releasePadding.raise e) e :=
  ⟨rfl, rfl, rfl, rfl, rfl, rfl⟩

/-! ## What the commands answer, by case -/

section
variable {s : State}

/-- R33: the check for a binding comes first in every command that needs one, and its error is `InvalidBlockSize`. -/
theorem exec_of_unbound {i : Instr} (hi : i ∈ [Instr.pad, .unpad, .cbcEncrypt, .cbcDecrypt])
    (h : s.binding.padSize = 0) : exec i s = .next (s.raise .invalidBlockSize) := by
  have hb : s.isBound = false := by simp [State.isBound, h]
  simp only [List.mem_cons, List.not_mem_nil, or_false] at hi
  rcases hi with rfl | rfl | rfl | rfl
  · exact execPad_error (by simp [padError, hb, unconfiguredError])
  · exact execUnpad_error (by simp [unpadError, hb, unconfiguredError])
  · exact execCbcEncrypt_error (by simp [cbcEncryptError, hb, unconfiguredError])
  · exact execCbcDecrypt_error (by simp [cbcDecryptError, hb, unconfiguredError])

variable (hp : s.binding.padSize ≠ 0)
include hp

/-- R185. -/
theorem exec_pad_of_bound : exec .pad s =
    .next (s.releasePadding.respond (padEncode s.binding.padMode s.cmd.din s.binding.padSize)) :=
  execPad_ok (padError_none.2 hp)

/-- R186: a bound orchestrator unpads no ragged length. -/
theorem exec_unpad_of_ragged (hmod : s.cmd.din.length % s.binding.padSize ≠ 0) :
    exec .unpad s = .next (s.raise .invalidDataSize) :=
  execUnpad_error (by simp [unpadError, (isBound_iff s).2 hp, hmod])

variable (hmod : s.cmd.din.length % s.binding.padSize = 0)
include hmod

/-- R186: a whole number of blocks is decoded by the discipline, and the command ends as the decoding does. -/
theorem exec_unpad_of_decode {r : Except Err (List Byte)}
    (h : padDecode s.binding.padMode s.cmd.din s.binding.padSize = r) :
    exec .unpad s = .next (s.releasePadding.conclude r) :=
  h ▸ execUnpad_ok (unpadError_none.2 ⟨hp, hmod⟩)

theorem exec_unpad_zero (hm : s.binding.padMode = .zero) :
    exec .unpad s = .next (s.releasePadding.respond (zeroDecode s.cmd.din s.binding.padSize)) :=
  exec_unpad_of_decode hp hmod (r := .ok _) (by rw [hm]; rfl)

theorem exec_unpad_pkcs7 (hm : s.binding.padMode = .pkcs7) :
    exec .unpad s = .next (s.releasePadding.conclude (pkcs7Decode s.cmd.din)) :=
  exec_unpad_of_decode hp hmod (by rw [hm]; rfl)

end

/-! ## The obligations -/

/-- Settles O35. -/
theorem padEncodesByItsDiscipline : Obligations.PadEncodesByItsDiscipline := by
  intro s hp
  obtain ⟨hsetup, hdp, hkx, hchain, hblk⟩ := paddingEndedFrom_respond s
    (padEncode s.binding.padMode s.cmd.din s.binding.padSize)
  refine ⟨_, exec_pad_of_bound hp, rfl, fun hm => ?_, fun hm => ?_, hsetup, hdp, hkx, hchain, hblk, rfl⟩
  · rw [State.respond_resp, hm]; rfl
  · rw [State.respond_resp, hm]; rfl

/-- Settles O36: one lemma for each discipline, and `State.paddingEndedFrom` is the frame the statement wants. -/
theorem unpadDecodesByItsDiscipline : Obligations.UnpadDecodesByItsDiscipline := by
  refine fun s hp hmod => ⟨fun hm => ?_, fun hm n hlast hn => ?_⟩
  · exact ⟨_, exec_unpad_zero hp hmod hm, rfl, paddingEndedFrom_respond s _⟩
  · have hexec := exec_unpad_pkcs7 hp hmod hm
    rw [pkcs7Decode_ok hlast hn, conclude_ok] at hexec
    exact ⟨_, hexec, rfl, paddingEndedFrom_respond s _⟩

/-- Settles O37: the first two clauses are failed checks, the third is a failed decoding. -/
theorem paddingErrors : Obligations.PaddingErrors := by
  refine fun s => ⟨fun hp i hi => ?_, fun hp hmod => ?_, fun hp hmod hm hdin => ?_⟩
  · exact ⟨_, exec_of_unbound hi hp, raise_failedWith s _⟩
  · exact ⟨_, exec_unpad_of_ragged hp hmod, raise_failedWith s _⟩
  · have hexec := exec_unpad_pkcs7 hp hmod hm
    rw [pkcs7Decode_overrun hdin, conclude_error] at hexec
    exact ⟨_, hexec, releasePadding_raise_failedWith s _⟩

end Sys2Proof.Machine
end

section
/-! PROOFS. The CBC commands: the constructors that bind the orchestrator, the checks, the block loops block by block
(R209, R211), and the round trip of a message (R220). -/

namespace Sys2Proof.Machine

/-! ## `CBC_NEW` -/

/-- `CBC_NEW` is the construction that leaves the binding of its `padsel` (R205, R206). -/
theorem exec_cbcNew {p : Instr × PadMode} (hp : p ∈ [(Instr.cbcNewZ, PadMode.zero), (Instr.cbcNewP, PadMode.pkcs7)])
    (s : State) : exec p.1 s = .next (s.construct (s.bound p.2)) := by
  simp only [List.mem_cons, List.not_mem_nil, or_false] at hp
  rcases hp with rfl | rfl <;> rfl

/-- Settles O18: the construction of `ENGINE_NEW`, with the binding of R206. -/
theorem cbcNewBuildsAndBinds : Obligations.CbcNewBuildsAndBinds := by
  intro s hb hk p hp
  obtain ⟨hctx, hbind, hresp, hdp, hkx, horch, hcmd, hhost⟩ := construct_writes (b := s.bound p.2) hb hk
  refine ⟨_, schedule s.cmd.keyBuf s.cmd.bsIn, exec_cbcNew hp s, schedule_isSchedule hk hb, ?_⟩
  rw [hctx, hkx]
  exact ⟨constructed_storesFrom hk hb, rfl, rfl, rfl, hbind, hresp, hdp, rfl, rfl, horch, hcmd, hhost⟩

/-! ## The checks of a bound orchestrator (R207, R210) -/

section
variable {s : State} (hp : s.binding.padSize ≠ 0)
include hp

theorem cbcEncryptError_iv (hiv : s.cmd.ivBuf.length ≠ s.ctx.blockSize) :
    cbcEncryptError s = some .invalidBlockSize := by simp [cbcEncryptError, (isBound_iff s).2 hp, hiv]

theorem cbcDecryptError_ragged (hmod : s.cmd.din.length % s.ctx.blockSize ≠ 0) :
    cbcDecryptError s = some .invalidDataSize := by simp [cbcDecryptError, (isBound_iff s).2 hp, hmod]

theorem cbcDecryptError_iv (hmod : s.cmd.din.length % s.ctx.blockSize = 0)
    (hiv : s.cmd.ivBuf.length ≠ s.ctx.blockSize) : cbcDecryptError s = some .invalidBlockSize := by
  simp [cbcDecryptError, (isBound_iff s).2 hp, hmod, hiv]

end

/-- Settles O40: each clause is a check that fails, and a failed check starts nothing (R235). -/
theorem cbcChecksInOrder : Obligations.CbcChecksInOrder := by
  refine fun s hp => ⟨fun hiv => ?_, fun hmod => ?_, fun hmod hiv => ?_⟩
  · exact ⟨_, execCbcEncrypt_error (cbcEncryptError_iv hp hiv), raise_failedWith s _, rfl⟩
  · exact ⟨_, execCbcDecrypt_error (cbcDecryptError_ragged hp hmod), raise_failedWith s _, rfl⟩
  · exact ⟨_, execCbcDecrypt_error (cbcDecryptError_iv hp hmod hiv), raise_failedWith s _, rfl⟩

/-! ## The block loops, block by block -/

theorem blockAt_zero_eq_take (msg : List Byte) (bs : Nat) : blockAt msg bs 0 = msg.take bs := by
  simp [blockAt, slice]

/-- Past its first block a message is chained as the rest of it is, with that block for the IV. -/
theorem previousBlock_succ {a rest : List Byte} {bs : Nat} (iv : List Byte) (n : Nat) (h : a.length = bs) :
    previousBlock iv (a ++ rest) bs (n + 1) = previousBlock a rest bs n := by
  cases n with
  | zero => exact blockAt_zero h
  | succ n => exact blockAt_succ n h

/-- R209: ciphertext block `m` is the encryption of message block `m` combined with the ciphertext block before it. -/
theorem cbcEncryptBlocks_blockAt {e : List Byte → List Byte} {bs : Nat} (he : ∀ b, (e b).length = bs) {n m : Nat}
    (hm : m < n) (msg chain : List Byte) : blockAt (cbcEncryptBlocks e bs n msg chain) bs m =
      e (xorBlock (blockAt msg bs m) (previousBlock chain (cbcEncryptBlocks e bs n msg chain) bs m)) := by
  induction n generalizing m msg chain with
  | zero => omega
  | succ n ih =>
    rw [cbcEncryptBlocks]
    cases m with
    | zero => rw [blockAt_zero (he _), blockAt_zero_eq_take]; rfl
    | succ m => rw [blockAt_succ m (he _), previousBlock_succ _ _ (he _), ih (by omega), blockAt_drop]

/-- R211, R212: recovered block `m` is the decryption of ciphertext block `m` combined with the ciphertext block before
it, as the host supplied it. -/
theorem cbcDecryptBlocks_blockAt {d : List Byte → List Byte} {bs : Nat} (hd : ∀ b, (d b).length = bs) {n m : Nat}
    (hm : m < n) {msg chain : List Byte} (hmsg : n * bs ≤ msg.length) (hc : chain.length = bs) :
    blockAt (cbcDecryptBlocks d bs n msg chain) bs m =
      xorBlock (d (blockAt msg bs m)) (previousBlock chain msg bs m) := by
  induction n generalizing m msg chain with
  | zero => omega
  | succ n ih =>
    rw [Nat.succ_mul] at hmsg
    have hblock : (msg.take bs).length = bs := by rw [List.length_take]; omega
    have hfirst : (xorBlock (d (msg.take bs)) chain).length = bs := by simp [hd, hc]
    rw [cbcDecryptBlocks]
    cases m with
    | zero => rw [blockAt_zero hfirst, blockAt_zero_eq_take]; rfl
    | succ m =>
      have hprev := previousBlock_succ (rest := msg.drop bs) chain m hblock
      rw [List.take_append_drop] at hprev
      rw [blockAt_succ m hfirst, ih (by omega) (by rw [List.length_drop]; omega) hblock, blockAt_drop, hprev]

/-- If `d` undoes `e` on a block, the loop of R211 undoes the loop of R209 on a message of whole blocks, both under one
IV. -/
theorem cbcDecryptBlocks_cbcEncryptBlocks {e d : List Byte → List Byte} {bs : Nat} (he : ∀ b, (e b).length = bs)
    (hundo : ∀ p, p.length = bs → d (e p) = p) (n : Nat) {msg chain : List Byte} (hmsg : msg.length = n * bs)
    (hc : chain.length = bs) : cbcDecryptBlocks d bs n (cbcEncryptBlocks e bs n msg chain) chain = msg := by
  induction n generalizing msg chain with
  | zero => rw [Nat.zero_mul] at hmsg; exact (List.eq_nil_of_length_eq_zero hmsg).symm
  | succ n ih =>
    rw [Nat.succ_mul] at hmsg
    have hblock : (msg.take bs).length = bs := by rw [List.length_take]; omega
    have hin : (xorBlock (msg.take bs) chain).length = bs := by rw [xorBlock_length, hblock, hc, Nat.min_self]
    rw [cbcEncryptBlocks, cbcDecryptBlocks, List.take_left' (he _), List.drop_left' (he _), hundo _ hin,
      xorBlock_cancel (hblock.trans hc.symm), ih (by rw [List.length_drop]; omega) (he _), List.take_append_drop]

/-! ## The results of the two commands -/

/-- A bound orchestrator has a constructed engine of a legal block size (R44). -/
theorem State.Inv.engine {s : State} (hs : s.Inv) (hp : s.binding.padSize ≠ 0) :
    s.ctx.cfgValid = true ∧ validSize s.ctx.blockSize = true := by
  have ⟨_, _, hbind, _⟩ := hs
  obtain ⟨hv, -⟩ := hbind hp
  exact ⟨hv, hs.blockSize_valid hv⟩

section
variable {s : State} (hsize : validSize s.ctx.blockSize = true)
include hsize

theorem padded_blocks : (padEncode s.binding.padMode s.cmd.din s.ctx.blockSize).length / s.ctx.blockSize *
    s.ctx.blockSize = (padEncode s.binding.padMode s.cmd.din s.ctx.blockSize).length :=
  Nat.div_mul_cancel (Nat.dvd_of_mod_eq_zero (padEncode_mod _ _ (validSize_pos hsize)))

theorem cbcEncryption_length :
    s.cbcEncryption.length = (padEncode s.binding.padMode s.cmd.din s.ctx.blockSize).length :=
  (cbcEncryptBlocks_length (cipher_length hsize .enc) _ _ _).trans (padded_blocks hsize)

variable (hiv : s.cmd.ivBuf.length = s.ctx.blockSize)
include hiv

/-- R209 for the ciphertext that `CBC_ENCRYPT` answers. -/
theorem cbcEncryption_blockAt {n : Nat} (hn : n < s.cbcEncryption.length / s.ctx.blockSize) :
    blockAt s.cbcEncryption s.ctx.blockSize n = s.cipher .enc (xorBlock
      (blockAt (padEncode s.binding.padMode s.cmd.din s.ctx.blockSize) s.ctx.blockSize n)
      (previousBlock s.cmd.ivBuf s.cbcEncryption s.ctx.blockSize n)) := by
  rw [cbcEncryption_length hsize] at hn
  rw [State.cbcEncryption, List.take_of_length_le hiv.le]
  exact cbcEncryptBlocks_blockAt (cipher_length hsize .enc) hn _ _

variable (hmod : s.cmd.din.length % s.ctx.blockSize = 0)
include hmod

theorem cbcRecovered_length : s.cbcRecovered.length = s.cmd.din.length := by
  have hwhole := Nat.div_mul_cancel (Nat.dvd_of_mod_eq_zero hmod)
  rw [State.cbcRecovered, List.take_of_length_le hiv.le]
  exact (cbcDecryptBlocks_length (cipher_length hsize .dec) _ _ _ hwhole.le hiv).trans hwhole

/-- R211 for the text that `CBC_DECRYPT` unpads. -/
theorem cbcRecovered_blockAt {n : Nat} (hn : n < s.cmd.din.length / s.ctx.blockSize) :
    blockAt s.cbcRecovered s.ctx.blockSize n = xorBlock (s.cipher .dec (blockAt s.cmd.din s.ctx.blockSize n))
      (previousBlock s.cmd.ivBuf s.cmd.din s.ctx.blockSize n) := by
  have hwhole := Nat.div_mul_cancel (Nat.dvd_of_mod_eq_zero hmod)
  rw [State.cbcRecovered, List.take_of_length_le hiv.le]
  exact cbcDecryptBlocks_blockAt (cipher_length hsize .dec) hn hwhole.le hiv

end

/-- `t` is a state in which a CBC command past its checks ended that started in `s`: the setup and the expander stay,
and the working state that the command used holds no value (R214). -/
def State.cbcEndedFrom (s t : State) : Prop :=
  s.sameSetup t ∧ t.kx = { s.kx with kfsm := .idle } ∧ t.orch.chain = [] ∧ t.dp.t = [] ∧ t.dp.a = []

theorem cbcEndedFrom_conclude (s : State) (r : Except Err (List Byte)) :
    s.cbcEndedFrom (s.releaseCbc.conclude r) := by
  cases r with
  | ok v => exact ⟨⟨rfl, rfl, rfl, rfl⟩, rfl, rfl, rfl, rfl⟩
  | error e => exact ⟨⟨rfl, rfl, rfl, rfl⟩, rfl, rfl, rfl, rfl⟩

theorem releaseCbc_raise_failedWith (s : State) (e : Err) : s.failedWith (s.releaseCbc.raise e) e :=
  ⟨rfl, rfl, rfl, rfl, rfl, rfl⟩

/-- R207, R209: `CBC_ENCRYPT` past its checks. -/
theorem exec_cbcEncrypt_of_bound {s : State} (hp : s.binding.padSize ≠ 0)
    (hiv : s.cmd.ivBuf.length = s.ctx.blockSize) :
    ∃ t, exec .cbcEncrypt s = .next t ∧ t.resp = { status := .ok, dout := s.cbcEncryption } ∧ s.cbcEndedFrom t :=
  ⟨_, execCbcEncrypt_ok (cbcEncryptError_none.2 ⟨hp, hiv⟩), rfl, cbcEndedFrom_conclude s (.ok _)⟩

/-- Settles O38: the response is `State.cbcEncryption`, whose blocks `cbcEncryption_blockAt` gives. -/
theorem cbcEncryptChainsTheBlocks : Obligations.CbcEncryptChainsTheBlocks := by
  intro s hs hp hiv
  obtain ⟨-, hsize⟩ := hs.engine hp
  obtain ⟨t, hexec, hresp, hended⟩ := exec_cbcEncrypt_of_bound hp hiv
  refine ⟨t, hexec, ?_⟩
  rw [hresp]
  exact ⟨rfl, cbcEncryption_length hsize, fun _ => cbcEncryption_blockAt hsize hiv, hended⟩

/-- Settles O39: the recovered text is `State.cbcRecovered`, and the command ends as its unpadding does. -/
theorem cbcDecryptUnchainsTheBlocks : Obligations.CbcDecryptUnchainsTheBlocks := by
  intro s hs hp hmod hiv
  obtain ⟨-, hsize⟩ := hs.engine hp
  refine ⟨_, s.cbcRecovered, execCbcDecrypt_ok (cbcDecryptError_none.2 ⟨hp, hmod, hiv⟩),
    cbcRecovered_length hsize hiv hmod, fun _ => cbcRecovered_blockAt hsize hiv hmod, fun v hv => ?_, fun e he => ?_,
    cbcEndedFrom_conclude s _⟩
  · rw [hv]; rfl
  · obtain ⟨hm, rfl⟩ := padDecode_error he
    rw [he]
    exact ⟨rfl, hm, releaseCbc_raise_failedWith s _⟩

/-- Settles O42: `cbcRecovered_blockAt` gives block `n` by the two ciphertext blocks, and the context alone determines
the cipher. -/
theorem recoveredBlockDependsOnTwoBlocks : Obligations.RecoveredBlockDependsOnTwoBlocks := by
  intro s s' n hs hv hr hctx hiv hiv' hmod hmod' hn hn' hblock hprev
  have hsize := hs.blockSize_valid hv
  obtain ⟨-, hstores, -⟩ := hs.settled hr
  have hrecovered' := cbcRecovered_blockAt (s := s') (n := n) (by rwa [hctx]) (by rwa [hctx]) (by rwa [hctx])
    (by rwa [hctx])
  rw [hctx, cipher_congr (hstores hv) hctx] at hrecovered'
  rw [cbcRecovered_blockAt hsize hiv hmod hn, hrecovered', hblock, hprev]

/-! ## The round trip of a message (R220) -/

/-- `cipher_dec_enc` where a command may be running: the cipher reads none of the machines' states. -/
theorem State.settled.cipher_dec_enc {s : State} (hs : s.settled) (hv : s.ctx.cfgValid = true) {p : List Byte}
    (hp : p.length = s.ctx.blockSize) : s.cipher .dec (s.cipher .enc p) = p :=
  Machine.cipher_dec_enc (s := s.machinesIdle) (inv_of_idle hs rfl rfl rfl) hv rfl hp

section
variable {s t : State} (hs : s.settled) (hp : s.binding.padSize ≠ 0) (hiv : s.cmd.ivBuf.length = s.ctx.blockSize)
  (hctx : t.ctx = s.ctx) (hbind : t.binding = s.binding) (hiv' : t.cmd.ivBuf = s.cmd.ivBuf)
  (hdin : t.cmd.din = s.cbcEncryption)
include hs hp hiv hctx hiv' hdin

/-- Under one context and one IV, decrypting what was encrypted recovers the padded message. -/
theorem cbcRecovered_of_cbcEncryption :
    t.cbcRecovered = padEncode s.binding.padMode s.cmd.din s.ctx.blockSize := by
  obtain ⟨hv, hsize⟩ := hs.engine hp
  have ⟨_, hstores, _⟩ := hs
  have hdec : t.cipher .dec = s.cipher .dec := funext (cipher_congr (hstores hv) hctx .dec)
  rw [State.cbcRecovered, hctx, hdin, hiv', hdec, cbcEncryption_length hsize, State.cbcEncryption,
    List.take_of_length_le hiv.le]
  exact cbcDecryptBlocks_cbcEncryptBlocks (cipher_length hsize .enc) (fun _ => hs.cipher_dec_enc hv) _
    (padded_blocks hsize).symm hiv

include hbind

/-- Under one context, binding and IV, `CBC_DECRYPT` of what `CBC_ENCRYPT` gives passes its checks and ends as the
unpadding of the padded message does. -/
theorem exec_cbcDecrypt_of_cbcEncryption : exec .cbcDecrypt t = .next (t.releaseCbc.conclude
    (padDecode s.binding.padMode (padEncode s.binding.padMode s.cmd.din s.ctx.blockSize) s.ctx.blockSize)) := by
  obtain ⟨-, hsize⟩ := hs.engine hp
  have hwhole : t.cmd.din.length % s.ctx.blockSize = 0 := by
    rw [hdin, cbcEncryption_length hsize, padEncode_mod _ _ (validSize_pos hsize)]
  have hchecks : cbcDecryptError t = none := by
    rw [cbcDecryptError_none, hbind, hctx, hiv']
    exact ⟨hp, hwhole, hiv⟩
  rw [← cbcRecovered_of_cbcEncryption hs hp hiv hctx hiv' hdin, ← hbind, ← hctx]
  exact execCbcDecrypt_ok hchecks

end

/-- R195 for either discipline: what the unpadding gives back of a padded message. -/
theorem padDecode_padEncode (m : PadMode) (x : List Byte) {bs : Nat} (h : validSize bs = true) :
    ∃ v, padDecode m (padEncode m x bs) bs = .ok v ∧ (m = .pkcs7 → v = x) ∧
      (m = .zero → (v = x ↔ x = [] ∨ (∃ b, x.getLast? = some b ∧ b ≠ 0) ∨ x.length % bs = 1) ∧
        (v ≠ x → ∃ k, k < x.length ∧ v = x.take k)) := by
  obtain ⟨hpkcs7, hzero⟩ := paddingRoundTrips x bs h
  cases m with
  | zero => exact ⟨_, rfl, nofun, fun _ => hzero⟩
  | pkcs7 => exact ⟨x, hpkcs7, fun _ => rfl, nofun⟩

/-- The state with `iv` and `x` as the IV and the data that the host presents. -/
abbrev State.withMessage (s : State) (iv x : List Byte) : State :=
  { s with cmd := { s.cmd with ivBuf := iv, din := x } }

/-- Settles O41: the second command unpads the padded message. -/
theorem cbcRoundTrip : Obligations.CbcRoundTrip := by
  intro s iv x hs hr hp hiv
  have hsettled : (s.withMessage iv x).settled := hs.settled hr
  obtain ⟨t, henc, hresp, ⟨hctx, hbind, hcmd, -⟩, -⟩ := exec_cbcEncrypt_of_bound (s := s.withMessage iv x) hp hiv
  obtain ⟨v, hdecode, hv⟩ := padDecode_padEncode s.binding.padMode x (hs.engine hp).2
  have hdec := exec_cbcDecrypt_of_cbcEncryption (t := t.withDin t.resp.dout) hsettled hp hiv hctx hbind
    (congrArg Command.ivBuf hcmd :) (congrArg Response.dout hresp :)
  rw [hdecode] at hdec
  exact ⟨t, _, henc, congrArg Response.status hresp, hdec, rfl, hv⟩

end Sys2Proof.Machine
end

section
/-! PROOFS. No other failure path (R241): under the invariant every state of the three machines has a row to follow, and
every block that a row reads lies inside its buffer, so a step stops only where the host presents a reserved word. -/

namespace Sys2Proof.Machine

/-! ## The machines of a running command -/

/-- R166, R170: the selects of a running block operation spell a micro-operation. -/
theorem stepBlock_next {s : State} (hs : s.Inv) (hf : s.dp.fsm ≠ .idle) : ∃ t, s.stepBlock = .next t := by
  have hready := hs.blockReady hf
  have hsize := hready.settled.blockSize_valid hready.cfg
  cases hfsm : s.dp.fsm with
  | idle => exact absurd hfsm hf
  | load => exact ⟨_, stepBlock_load hsize hfsm⟩
  | round => exact ⟨_, stepBlock_round hsize hfsm⟩
  | final => exact ⟨_, stepBlock_final hsize hfsm⟩
  | done => exact ⟨_, stepBlock_done hfsm⟩

/-- R176: only `K_DONE` looks at the command latched, and while the expander runs that is a constructor. -/
theorem stepExpander_next {s : State} (hs : s.Inv) (hk : s.kx.kfsm ≠ .idle) : ∃ t, s.stepExpander = .next t := by
  obtain ⟨-, -, -, -, ⟨hrun, -⟩, -⟩ := hs
  cases hkfsm : s.kx.kfsm with
  | idle => exact absurd hkfsm hk
  | check =>
    simp only [State.stepExpander, hkfsm]
    split <;> exact ⟨_, rfl⟩
  | copy => exact ⟨_, stepExpander_copy hkfsm⟩
  | expand => exact ⟨_, stepExpander_expand hkfsm⟩
  | invmix => exact ⟨_, stepExpander_invmix hkfsm⟩
  | done =>
    obtain ⟨b, -, hstep⟩ := stepExpander_done hkfsm (hrun hk).2
    exact ⟨_, hstep⟩

section
variable {s : State} {i : Instr}

/-- The block of `PADBUF` at `BLK` that an encryption reads exists (R50, R218). -/
theorem State.encryptingOk.block_le (h : s.encryptingOk) :
    s.orch.blk + s.ctx.blockSize ≤ s.orch.padbuf.length := by
  obtain ⟨-, -, hwhole, hblk, hlt⟩ := h
  exact block_inside hwhole hblk hlt

/-- The block of `DIN` at `BLK` that a decryption reads exists (R50, R218). -/
theorem State.decryptingOk.block_le (h : s.decryptingOk) :
    s.orch.blk + s.ctx.blockSize ≤ s.cmd.din.length := by
  obtain ⟨-, he, hblk, hlt⟩ := h
  exact block_inside (cbcDecryptError_none.1 he).2.1 hblk hlt

/-- `C_CHECK` goes on whether the check of its command finds an error or not. -/
theorem checkAction_next (hi : i ∈ [Instr.cbcEncrypt, .cbcDecrypt, .pad, .unpad]) :
    ∃ t, State.orchestratorAction .check s i = .next t := by
  simp only [List.mem_cons, List.not_mem_nil, or_false] at hi
  rcases hi with rfl | rfl | rfl | rfl <;> simp only [State.orchestratorAction, State.checkOrchestrator]
  all_goals split <;> exact ⟨_, rfl⟩

/-- `C_UNPAD` goes on whether the decoding succeeds or not. -/
theorem unpadAction_next (hi : i ∈ [Instr.cbcDecrypt, .unpad]) :
    ∃ t, State.orchestratorAction .unpad s i = .next t := by
  simp only [List.mem_cons, List.not_mem_nil, or_false] at hi
  rcases hi with rfl | rfl <;> simp only [State.orchestratorAction, State.unpadOrchestrator]
  all_goals split <;> exact ⟨_, rfl⟩

/-- Every state of `CFSM` in which the invariant puts a command has a row for that command (R217). -/
theorem orchestratorAction_next (hc : s.orch.cfsm ≠ .idle) (ho : s.orchestratorOk) :
    ∃ i, s.command = some i ∧ ∃ t, State.orchestratorAction s.orch.cfsm s i = .next t := by
  cases hcfsm : s.orch.cfsm <;> simp only [State.orchestratorOk, hcfsm] at ho
  case idle => exact absurd hcfsm hc
  case check => rcases ho with hi | hi | hi | hi <;> exact ⟨_, hi, checkAction_next (by simp)⟩
  case pad => rcases ho with ⟨hi, -⟩ | ⟨hi, -⟩ <;> exact ⟨_, hi, _, rfl⟩
  case xorIn => exact ⟨_, ho.1, _, if_pos ho.block_le⟩
  case crypt =>
    rcases ho with henc | ⟨hdec, -⟩
    · exact ⟨_, henc.1, _, rfl⟩
    · exact ⟨_, hdec.1, _, if_pos hdec.block_le⟩
  case xorOut => exact ⟨_, ho.1.1, _, rfl⟩
  case next =>
    rcases ho with ⟨henc, -⟩ | ⟨hdec, -⟩
    · exact ⟨_, henc.1, _, rfl⟩
    · exact ⟨_, hdec.1, _, if_pos hdec.block_le⟩
  case unpad => rcases ho with ⟨hi, -⟩ | ⟨hi, -⟩ <;> exact ⟨_, hi, unpadAction_next (by simp)⟩
  case done => rcases ho.1 with hi | hi | hi | hi <;> exact ⟨_, hi, _, rfl⟩

end

/-- A running command goes on: whichever machine takes the step, there is a next state. -/
theorem microStep_next {s : State} (hs : s.Inv) (hb : s.busy = true) : ∃ t, s.microStep = .next t := by
  by_cases hf : s.dp.fsm = .idle
  · by_cases hk : s.kx.kfsm = .idle
    · have hc : s.orch.cfsm ≠ .idle := fun hc => by simp [(busy_false_iff s).2 ⟨hf, hk, hc⟩] at hb
      obtain ⟨-, -, -, -, -, ho⟩ := hs
      obtain ⟨i, hi, hnext⟩ := orchestratorAction_next hc ho
      rwa [microStep_orchestrator hk hi hf]
    · rw [microStep_expander hf hk]; exact stepExpander_next hs hk
  · rw [microStep_block hf]; exact stepBlock_next hs hf

/-! ## The step of the whole machine -/

/-- A presented command is taken up, or its word decodes to nothing and is refused (R78). -/
theorem present_next_or_reserved (s : State) (stepped : Bool) (c : Command) (rest : List HostMove) :
    (∃ t, s.present stepped c rest = .next t) ∨
    ∃ why, decodeCmd8 c.word = .error why ∧ s.present stepped c rest = .refused (.reservedCommand why) := by
  cases hd : decodeCmd8 c.word with
  | error why => exact .inr ⟨why, rfl, present_error hd stepped⟩
  | ok i =>
    rw [present_ok hd]
    cases stepped with
    | true => exact .inl ⟨_, rfl⟩
    | false => exact .inl (exec_next i _)

/-- All that a step from a state with the invariant can answer (R241). -/
theorem step_next_or_reserved {s : State} (hs : s.Inv) :
    (∃ t, step s = .next t) ∨
    ∃ why c rest, step s = .refused (.reservedCommand why) ∧ s.busy = false ∧
      (s.host = .issue c :: rest ∨ s.host = .start c :: rest) ∧ decodeCmd8 c.word = .error why := by
  rcases step_cases s with ⟨rest, -, hstep⟩ | ⟨hb, hstep | ⟨rest, -, hstep⟩⟩ |
    ⟨hidle, hstep | ⟨rest, -, hstep⟩ | ⟨c, rest, hhost, hstep⟩ | ⟨c, rest, hhost, hstep⟩⟩ <;> rw [hstep]
  · exact .inl ⟨_, rfl⟩
  · exact .inl (microStep_next hs hb)
  · exact .inl (microStep_next (moved_inv rest hs) hb)
  · exact .inl ⟨_, rfl⟩
  · exact .inl ⟨_, rfl⟩
  · exact (present_next_or_reserved s false c rest).imp_right fun ⟨why, hd, hp⟩ =>
      ⟨why, c, rest, hp, hidle, .inl hhost, hd⟩
  · exact (present_next_or_reserved s true c rest).imp_right fun ⟨why, hd, hp⟩ =>
      ⟨why, c, rest, hp, hidle, .inr hhost, hd⟩

/-- Settles O46: a step that answers no next state is the refusal that `step_next_or_reserved` describes. -/
theorem noOtherFailurePath : Obligations.NoOtherFailurePath := by
  intro s hs
  rcases step_next_or_reserved hs with ⟨t, hstep⟩ | ⟨why, c, rest, hstep, hreserved⟩ <;> rw [hstep]
  · exact ⟨nofun, nofun⟩
  · exact ⟨nofun, fun r hr => ⟨why, c, rest, (Host.Outcome.refused.inj hr).symm, hreserved⟩⟩

/-- Settles O8. -/
theorem idleMachineHoldsItsState : Obligations.IdleMachineHoldsItsState := fun s hidle =>
  ⟨fun hhost => (step_nil hhost).trans (noMove_idle hidle),
    fun rest hhost => (step_wait hhost).trans (noMove_idle (s := s.moved rest) hidle)⟩

end Sys2Proof.Machine
end

section
/-! PROOFS. The errors of the commands (R232 to R238): which command raises which, what a command that fails leaves, and
the first command after reset (R262). -/

namespace Sys2Proof.Machine

/-! ## How a command ends -/

/-- The errors that a command may raise (R232, R234): `InvalidBlockSize` is not tied to a command. -/
def mayRaise (i : Instr) : Err → Prop
  | .invalidBlockSize => True
  | .invalidKeySize   => i = .engineNew ∨ i = .cbcNewZ ∨ i = .cbcNewP
  | .invalidDataSize  => i = .cbcDecrypt ∨ i = .unpad

/-- `t` is a state in which command `i` ended that started in `s`: with `OK`, or with an error of its own that changed
nothing else (R236). -/
def State.concludedBy (s : State) (i : Instr) (t : State) : Prop :=
  t.resp.status = .ok ∨ ∃ e, s.failedWith t e ∧ mayRaise i e

section
variable {s : State} {i : Instr}

theorem raise_concludedBy {e : Err} (h : mayRaise i e) : s.concludedBy i (s.raise e) :=
  .inr ⟨e, raise_failedWith s e, h⟩

/-- A block command's check finds `InvalidBlockSize` alone (R136, R151). -/
theorem blockCommand_concludedBy (dir : Dir) : s.concludedBy i (s.blockCommand dir) := by
  cases he : blockError s with
  | some e =>
    obtain rfl := blockError_some he
    rw [blockCommand_error he]
    exact raise_concludedBy trivial
  | none => rw [blockCommand_ok he]; exact .inl rfl

/-- The checks of `C_CHECK` find an error of the command that makes them (R237). -/
theorem orchestratorError_mayRaise {e : Err} (he : orchestratorError s i = some e) : mayRaise i e := by
  cases i with
  | cbcEncrypt => obtain rfl := cbcEncryptError_some he; trivial
  | cbcDecrypt =>
    rcases cbcDecryptError_some he with rfl | rfl
    · trivial
    · exact .inl rfl
  | pad => obtain rfl := padError_some he; trivial
  | unpad =>
    rcases unpadError_some he with rfl | rfl
    · trivial
    · exact .inr rfl
  | _ => cases he

/-- A command that raises what its checks find, and otherwise ends in `u`. -/
theorem concludedBy_of_check {t u : State} (h : exec i s = .next t)
    (hok : orchestratorError s i = none → exec i s = .next u) (hu : s.concludedBy i u) : s.concludedBy i t := by
  cases he : orchestratorError s i with
  | some e =>
    obtain rfl := Host.Outcome.next.inj (h.symm.trans (exec_orchestratorError he))
    exact raise_concludedBy (orchestratorError_mayRaise he)
  | none =>
    obtain rfl := Host.Outcome.next.inj (h.symm.trans (hok he))
    exact hu

/-- Unpadding finds `InvalidDataSize` alone, and ends the commands that unpad as their decoding does (R192, R193). -/
theorem conclude_concludedBy {u : State} (hi : i = .cbcDecrypt ∨ i = .unpad) (hu : ∀ e, s.failedWith (u.raise e) e)
    (m : PadMode) (x : List Byte) (bs : Nat) : s.concludedBy i (u.conclude (padDecode m x bs)) := by
  cases hd : padDecode m x bs with
  | ok v => exact .inl rfl
  | error e =>
    obtain ⟨-, rfl⟩ := padDecode_error hd
    exact .inr ⟨_, hu _, hi⟩

theorem constructError_some {bs klen : Nat} {e : Err} (h : constructError bs klen = some e) :
    e = .invalidBlockSize ∨ e = .invalidKeySize := by
  unfold constructError at h
  split at h
  · exact .inl (Option.some.inj h).symm
  · split at h
    · exact .inr (Option.some.inj h).symm
    · cases h

/-- The checks of a construction find an error of a constructor (R116). -/
theorem construct_concludedBy (hi : i = .engineNew ∨ i = .cbcNewZ ∨ i = .cbcNewP) (b : Binding) :
    s.concludedBy i (s.construct b) := by
  rcases construct_cases s b with ⟨e, he, hraise⟩ | ⟨-, -, hbuilt⟩
  · rw [hraise]
    rcases constructError_some he with rfl | rfl
    · exact raise_concludedBy trivial
    · exact raise_concludedBy hi
  · rw [hbuilt]; exact .inl rfl

/-- R232, R234, R236: how a command executed whole ends. -/
theorem exec_concludedBy {t : State} (hi : i.isCommand = true) (h : exec i s = .next t) : s.concludedBy i t := by
  rcases command_cases hi with hdata | hnew
  · simp only [dataCommands, List.mem_cons, List.not_mem_nil, or_false] at hdata
    rcases hdata with rfl | rfl | rfl | rfl | rfl | rfl
    · exact Host.Outcome.next.inj h ▸ blockCommand_concludedBy .enc
    · exact Host.Outcome.next.inj h ▸ blockCommand_concludedBy .dec
    · exact concludedBy_of_check h execCbcEncrypt_ok (.inl rfl)
    · exact concludedBy_of_check h execCbcDecrypt_ok
        (conclude_concludedBy (.inl rfl) (releaseCbc_raise_failedWith s) _ _ _)
    · exact concludedBy_of_check h execPad_ok (.inl rfl)
    · exact concludedBy_of_check h execUnpad_ok
        (conclude_concludedBy (.inr rfl) (releasePadding_raise_failedWith s) _ _ _)
  · obtain ⟨b, -, hexec⟩ := exec_constructor hnew s
    exact Host.Outcome.next.inj (hexec.symm.trans h) ▸ construct_concludedBy hnew b

/-- A command that ends with error `e` raised it. -/
theorem State.concludedBy.of_error {t : State} {e : Err} (h : s.concludedBy i t) (he : t.resp.status = .err e) :
    s.failedWith t e ∧ mayRaise i e := by
  rcases h with hok | ⟨e', hfailed, hmay⟩
  · rw [hok] at he; cases he
  · have ⟨_, _, hresp, _⟩ := hfailed
    rw [hresp] at he
    cases he
    exact ⟨hfailed, hmay⟩

end

/-- Settles O47. -/
theorem failedCommandLeavesTheSetup : Obligations.FailedCommandLeavesTheSetup :=
  fun _ _ _ _ hi h he => ((exec_concludedBy hi h).of_error he).1

/-- Settles O50: `mayRaise` at the two errors. -/
theorem errorKindsByCommand : Obligations.ErrorKindsByCommand := fun _ _ _ hi h =>
  ⟨fun he => ((exec_concludedBy hi h).of_error he).2, fun he => ((exec_concludedBy hi h).of_error he).2⟩

/-! ## The first commands after reset -/

/-- Without an engine and without a binding every data command gives `InvalidBlockSize` (R136, R151, R196, D9). -/
theorem exec_data_of_unconfigured {i : Instr} {s : State} (hi : i ∈ dataCommands) (hcfg : s.ctx.cfgValid = false)
    (hbind : s.binding.padSize = 0) : exec i s = .next (s.raise .invalidBlockSize) := by
  have hblock : blockError s = some .invalidBlockSize := by simp [blockError, hcfg, unconfiguredError]
  simp only [dataCommands, List.mem_cons, List.not_mem_nil, or_false] at hi
  rcases hi with rfl | rfl | rfl | rfl | rfl | rfl
  · exact (begin_block_error (by simp) hblock).1
  · exact (begin_block_error (by simp) hblock).1
  all_goals exact exec_of_unbound (by simp) hbind

/-- Settles O14: the reset state has neither engine nor binding, and a construction needs neither. -/
theorem firstCommandsAfterReset : Obligations.FirstCommandsAfterReset := by
  refine fun e c rest => ⟨fun i hi => ?_, fun hb hk i hi => ?_⟩
  · exact ⟨_, exec_data_of_unconfigured hi rfl rfl, raise_failedWith _ _⟩
  · obtain ⟨b, -, hexec⟩ := exec_constructor (mem_constructors.1 hi) (State.resetAt e c rest)
    obtain ⟨hctx, -, hresp, -⟩ := construct_writes (s := State.resetAt e c rest) (b := b) hb hk
    exact ⟨_, hexec, hresp, congrArg Context.cfgValid hctx⟩

end Sys2Proof.Machine
end
